-- ==== Sys2Proof/Machine/Descriptor.lean ====
section
/-! DEFINITION. Segment selectors, segment descriptors and the hidden part of a segment register
(10_state.md R27 to R32, 41_pop_segment.md R147). -/

namespace Sys2Proof

/-- `d.kind` (10_state.md R29). -/
inductive SegKind where
  | data | code | system
deriving DecidableEq, Repr, Inhabited

/-- The attributes of a hidden part (10_state.md R27, 41_pop_segment.md R147; 70_reset_and_hazards.md R200). -/
structure SegAttr where
  kind : SegKind
  writable : Bool
  readable : Bool
  conforming : Bool
  expandDown : Bool
  dpl : BitVec 2
  present : Bool
  /-- The D flag of a code segment, the B flag of a stack segment (R35). -/
  db : Bool
  /-- The L flag of a code segment (R35). -/
  l : Bool
  /-- Loaded with a NULL selector (R41). -/
  unusable : Bool
  /-- The accessed bit, which 70_reset_and_hazards.md R200 names; no POP reads it (log 34). -/
  accessed : Bool
deriving DecidableEq, Repr, Inhabited

/-- The hidden part of a segment register (10_state.md R27). -/
structure Hidden where
  base : Word64
  limit : Word32
  attr : SegAttr
deriving DecidableEq, Repr, Inhabited

/-- A segment descriptor (10_state.md R29). -/
structure Descriptor where
  base : Word32
  limit : Word32
  present : Bool
  dpl : BitVec 2
  kind : SegKind
  writable : Bool
  readable : Bool
  conforming : Bool
  expandDown : Bool
  db : Bool
  l : Bool
  accessed : Bool
deriving DecidableEq, Repr

/-! ### Selectors (10_state.md R28) -/

def selIndex (sel : Word16) : Nat := (sel.extractLsb' 3 13).toNat

def selTI (sel : Word16) : Bool := sel.getLsbD 2

def selRPL (sel : Word16) : BitVec 2 := sel.extractLsb' 0 2

/-- A NULL selector: 0000H to 0003H. -/
def selNull (sel : Word16) : Bool := decide (sel.extractLsb' 2 14 = 0)

/-- The `(selector)` error code, `sel AND FFFCH` (60_exceptions.md R177), in the 32 bits of log 33. -/
def selCode (sel : Word16) : Word32 := (sel &&& 0xFFFC).setWidth 32

/-! ### Descriptors -/

/-- The 20-bit limit field (10_state.md R32). -/
def descLimit20 (q : Word64) : BitVec 20 := q.extractLsb' 48 4 ++ q.extractLsb' 0 16

/-- `d.limit`, the byte-granular limit (10_state.md R32). -/
def descLimit (q : Word64) : Word32 :=
  if q.getLsbD 55 then descLimit20 q ++ 0xFFF#12 else (descLimit20 q).setWidth 32

/-- `d.kind` (10_state.md R32). -/
def descKind (q : Word64) : SegKind :=
  if q.getLsbD 44 then (if q.getLsbD 43 then .code else .data) else .system

/-- The descriptor in a quadword of a descriptor table (10_state.md R32). DESIGN CHOICE (log 36): a property that the kind
gives no meaning (R29: writable and expand-down but for data, readable and conforming but for code) is false. -/
def descriptorOf (q : Word64) : Descriptor where
  base := q.extractLsb' 56 8 ++ q.extractLsb' 16 24
  limit := descLimit q
  present := q.getLsbD 47
  dpl := q.extractLsb' 45 2
  kind := descKind q
  writable := decide (descKind q = .data) && q.getLsbD 41
  readable := decide (descKind q = .code) && q.getLsbD 41
  conforming := decide (descKind q = .code) && q.getLsbD 42
  expandDown := decide (descKind q = .data) && q.getLsbD 42
  db := q.getLsbD 54
  l := q.getLsbD 53
  accessed := q.getLsbD 40

/-- "Data or readable code segment" (10_state.md R30). -/
def Descriptor.isDataOrReadableCode (d : Descriptor) : Bool :=
  decide (d.kind = .data) || (decide (d.kind = .code) && d.readable)

/-- "Data or nonconforming code segment" (10_state.md R30). -/
def Descriptor.isDataOrNonconforming (d : Descriptor) : Bool :=
  decide (d.kind = .data) || (decide (d.kind = .code) && !d.conforming)

/-- "Writable data segment" (10_state.md R30). -/
def Descriptor.isWritableData (d : Descriptor) : Bool := decide (d.kind = .data) && d.writable

/-- `Hidden(d)` (41_pop_segment.md R147), with the accessed bit as the load leaves it (log 34). -/
def hiddenOf (d : Descriptor) (accessed : Bool) : Hidden where
  base := d.base.setWidth 64
  limit := d.limit
  attr :=
    { kind := d.kind
      writable := d.writable
      readable := d.readable
      conforming := d.conforming
      expandDown := d.expandDown
      dpl := d.dpl
      present := d.present
      db := d.db
      l := d.l
      unusable := false
      accessed := accessed }

/-- `PrivFail` (41_pop_segment.md R146, reading B; log 14). -/
def privFail (rpl cpl dpl : BitVec 2) : Bool := decide (rpl > dpl) || decide (cpl > dpl)

end Sys2Proof
end

