-- ==== Sys2Proof/Config.lean ====
section
/-! DEFINITION. What an implementation fixes. The free values have no body: nothing in Lean can evaluate them
or prove a value of them. The parameters that a run takes as an argument are plain data, held in State. -/

namespace Sys2Proof

namespace Config

/-- Free value (log 8): bits 63:32 of a general register after a 32-bit write, for each draw (10_state.md R22). -/
opaque upperHalf : Nat → Word32

/-- Free value (log 9): the base, limit and attributes of a segment register loaded with a NULL selector, for
each draw (10_state.md R41). -/
opaque nullHidden : Nat → Hidden

/-- Free value (log 10): whether the processor sets the accessed bit of the descriptor it loads, for each draw
(41_pop_segment.md R147, 92_eei_decisions.md D26). -/
opaque setsAccessed : Nat → Bool

/-- Free value (log 34): the accessed bit of a segment register loaded in `V86`, for each draw (41_pop_segment.md R141). -/
opaque accessedInV86 : Nat → Bool

/-- Free value (log 11): whether an access of `n` bytes counts as unaligned when its linear address and its
offset disagree (93_implementation_defined.md U16). -/
opaque alignBand (lin off : Word64) (n : Nat) : Bool

/-- Free value (log 35): the order in which the bytes of one write are stored, for each draw: where the byte with `k` bytes
above it goes among those (20_memory.md R61, R63). -/
opaque storeOrder (draw k : Nat) : Nat

/-- Free value (log 7): `WrapWriteLoc`, the effective address of a memory destination based on ESP when a 16-bit
stack pointer wraps, given register 4 before the POP, the increment, and the address formed from the stack
pointer whose upper half is kept (40_pop_general.md R130). -/
opaque wrapWriteLoc (x4 : Word64) (n : Nat) (ea : Word64) : Word32

end Config

/-- The kind of an access, for `Translate` (20_memory.md R62). -/
inductive Access where
  | read | write
deriving DecidableEq, Repr

/-- The privilege of an access, for `Translate` (20_memory.md R62). -/
inductive Privilege where
  | user | supervisor
deriving DecidableEq, Repr

/-- A run of addresses. -/
structure AddrRange where
  lo : Nat
  size : Nat
deriving DecidableEq, Repr

/-- What `Translate` answers for a region: a run of physical addresses, or a page-fault code. DESIGN CHOICE (log 33): the
code has 32 bits; the spec gives it no width (20_memory.md R62, 60_exceptions.md R177). -/
inductive PageTarget where
  | maps (phys : Nat)
  | fails (code : Word32)
deriving DecidableEq, Repr

/-- One line of `Translate` (20_memory.md R62) as plain data: a run of linear addresses, the kinds and
privileges of access it speaks of, and the answer. -/
structure PageRegion where
  range : AddrRange
  reads : Bool
  writes : Bool
  user : Bool
  supervisor : Bool
  target : PageTarget
deriving DecidableEq, Repr

/-- The parameters of 00_scope.md R6 that a run takes as arguments (log 4). -/
structure Platform where
  /-- `VA_BITS` (20_memory.md R55). -/
  vaBits : Nat
  /-- `PhysMem`, the plain physical memory (20_memory.md R61). -/
  physMem : List AddrRange
  /-- `Translate` (20_memory.md R62): the first region that speaks of an access answers it, and an access that no
  region speaks of is mapped to the address itself. -/
  pages : List PageRegion
deriving DecidableEq, Repr

end Sys2Proof
end

