-- ==== Sys2Proof/Syntax.lean ====
section
/-! DEFINITION. The instructions of X86-POP as terms: modes, prefixes, operands, and the 15 rows of the
opcode table (30_encoding.md R92). A term keeps the prefixes as they were written, so that it determines its
bytes. -/

namespace Sys2Proof

/-- The five operating modes (00_scope.md R3). -/
inductive Mode where
  | long64 | compat | prot | real | v86
deriving DecidableEq, Repr, Inhabited

/-- The three widths an operand, an address or the stack pointer can have (00_scope.md R6). -/
inductive Width where
  | w16 | w32 | w64
deriving DecidableEq, Repr, Inhabited

/-- The six segment registers (10_state.md R26). -/
inductive SegName where
  | es | cs | ss | ds | fs | gs
deriving DecidableEq, Repr, Inhabited

/-- The number of a general-purpose register, four bits: a REX bit and a three-bit field
(10_state.md R21, 30_encoding.md R85). -/
abbrev Reg := BitVec 4

/-- What decides how bytes are read as an instruction, besides the bytes: the mode and CS.D
(30_encoding.md R96, R97). -/
structure Ctx where
  mode : Mode
  codeD : Bool
deriving DecidableEq, Repr

/-- The legacy prefix bytes of 30_encoding.md R81. -/
inductive LegacyPrefix where
  /-- 66H, operand-size override. -/
  | opSize
  /-- 67H, address-size override. -/
  | addrSize
  /-- F0H. -/
  | lock
  /-- F2H; no POP has one (R88). -/
  | repne
  /-- F3H; no POP has one (R88). -/
  | rep
  /-- 26H, 2EH, 36H, 3EH, 64H, 65H. -/
  | seg (s : SegName)
deriving DecidableEq, Repr

/-- The REX prefix `0100WRXB` (30_encoding.md R84). -/
structure Rex where
  w : Bool
  r : Bool
  x : Bool
  b : Bool
deriving DecidableEq, Repr

/-- All prefixes of an instruction, in the order they stand (30_encoding.md R80). -/
structure Prefixes where
  legacy : List LegacyPrefix
  rex : Option Rex
deriving DecidableEq, Repr

/-- The registers of a 16-bit address, by ModRM.rm 0 to 7 (30_encoding.md R99). -/
inductive Base16 where
  | bxSi | bxDi | bpSi | bpDi | si | di | bp | bx
deriving DecidableEq, Repr

/-- The displacement of a 16-bit address, by ModRM.mod (30_encoding.md R99). -/
inductive Disp16 where
  | absent
  | byte (d : Byte)
  | word (d : Word16)
deriving DecidableEq, Repr

/-- The displacement of a 32-bit or 64-bit address, by ModRM.mod (30_encoding.md R100). -/
inductive Disp32 where
  | absent
  | byte (d : Byte)
  | dword (d : Word32)
deriving DecidableEq, Repr

/-- A memory destination as the ModRM and SIB bytes give it (30_encoding.md R95, R99 to R102). -/
inductive Mem where
  /-- 16-bit address: base registers and displacement. -/
  | base16 (b : Base16) (d : Disp16)
  /-- 16-bit address: disp16 alone (mod = 00, rm = 110). -/
  | disp16 (a : Word16)
  /-- One base register, no SIB byte. -/
  | base (r : Reg) (d : Disp32)
  /-- disp32 alone (mod = 00, rm = 101); relative to the next instruction in `Long64` (R102). -/
  | disp32 (a : Word32)
  /-- SIB with a base register. -/
  | sib (scale : BitVec 2) (index : Option Reg) (base : Reg) (d : Disp32)
  /-- SIB without a base register (mod = 00, SIB.base = 101), a disp32 in its place. -/
  | sibNoBase (scale : BitVec 2) (index : Option Reg) (a : Word32)
deriving DecidableEq, Repr

/-- The destination of format M: a register (mod = 11) or memory (30_encoding.md R95). -/
inductive RmDest where
  | reg (r : Reg)
  | mem (m : Mem)
deriving DecidableEq, Repr

/-- One constructor for each row of the opcode table (30_encoding.md R92). -/
inductive Instr where
  /-- Row 1, `8F /0`, POP r/m16. -/
  | popRm16 (p : Prefixes) (d : RmDest)
  /-- Row 2, `8F /0`, POP r/m32. -/
  | popRm32 (p : Prefixes) (d : RmDest)
  /-- Row 3, `8F /0`, POP r/m64. -/
  | popRm64 (p : Prefixes) (d : RmDest)
  /-- Row 4, `58+ rw`, POP r16. -/
  | popR16 (p : Prefixes) (r : Reg)
  /-- Row 5, `58+ rd`, POP r32. -/
  | popR32 (p : Prefixes) (r : Reg)
  /-- Row 6, `58+ rd`, POP r64. -/
  | popR64 (p : Prefixes) (r : Reg)
  /-- Row 7, `1F`, POP DS. -/
  | popDs (p : Prefixes)
  /-- Row 8, `07`, POP ES. -/
  | popEs (p : Prefixes)
  /-- Row 9, `17`, POP SS. -/
  | popSs (p : Prefixes)
  /-- Row 10, `0F A1`, POP FS, operand size 16. -/
  | popFs16 (p : Prefixes)
  /-- Row 11, `0F A1`, POP FS, operand size 32. -/
  | popFs32 (p : Prefixes)
  /-- Row 12, `0F A1`, POP FS, operand size 64. -/
  | popFs64 (p : Prefixes)
  /-- Row 13, `0F A9`, POP GS, operand size 16. -/
  | popGs16 (p : Prefixes)
  /-- Row 14, `0F A9`, POP GS, operand size 32. -/
  | popGs32 (p : Prefixes)
  /-- Row 15, `0F A9`, POP GS, operand size 64. -/
  | popGs64 (p : Prefixes)
deriving DecidableEq, Repr

/-- Why a sequence of bytes is no POP the spec describes (30_encoding.md R105). -/
inductive DecodeError where
  /-- F2H or F3H among the prefixes (R88 a). -/
  | repeatPrefix
  /-- The same legacy prefix twice (R88 b). -/
  | duplicatePrefix
  /-- Two segment overrides (R88 b). -/
  | twoSegmentOverrides
  /-- The opcode is none of the table's: not POP (R105). A misplaced REX byte ends here (R88 c). -/
  | notPop (opcode : Byte)
  /-- `0F` followed by a byte other than A1 and A9: not POP (R105). -/
  | notPop0F (opcode : Byte)
  /-- `8F` with ModRM.reg from 1 to 7: not POP (R90). -/
  | notPop8F (reg : BitVec 3)
  /-- Longer than 15 bytes (R88 d). -/
  | tooLong
  /-- The bytes end before the instruction does. -/
  | truncated
deriving DecidableEq, Repr

end Sys2Proof
end

