-- ==== Sys2Proof/Machine/Sizes.lean ====
section
/-! DEFINITION. What prefixes and the context say of an instruction: operand size, address size, register
extension bits, instruction length, and which terms have bytes (30_encoding.md sections 1, 4, 5). -/

namespace Sys2Proof

def Width.bytes : Width → Nat
  | .w16 => 2
  | .w32 => 4
  | .w64 => 8

def Width.bits : Width → Nat
  | .w16 => 16
  | .w32 => 32
  | .w64 => 64

/-- The low bits of a quadword at a width, zero-extended: `v mod 2^bits` (00_scope.md R7). -/
def Width.trunc (w : Width) (v : Word64) : Word64 :=
  match w with
  | .w16 => (v.setWidth 16).setWidth 64
  | .w32 => (v.setWidth 32).setWidth 64
  | .w64 => v

def Prefixes.has (p : Prefixes) (q : LegacyPrefix) : Bool := decide (q ∈ p.legacy)

def Prefixes.rexW (p : Prefixes) : Bool :=
  match p.rex with
  | some x => x.w
  | none => false

def Prefixes.rexX (p : Prefixes) : Bool :=
  match p.rex with
  | some x => x.x
  | none => false

def Prefixes.rexB (p : Prefixes) : Bool :=
  match p.rex with
  | some x => x.b
  | none => false

def LegacyPrefix.segName : LegacyPrefix → Option SegName
  | .seg s => some s
  | _ => none

/-- The segment overrides among the prefixes. -/
def Prefixes.segs (p : Prefixes) : List SegName := p.legacy.filterMap LegacyPrefix.segName

/-- `OperandSize` (30_encoding.md R96). -/
def operandSize (c : Ctx) (p : Prefixes) : Width :=
  match c.mode with
  | .long64 => if p.has .opSize && !p.rexW then .w16 else .w64
  | _ => if c.codeD != p.has .opSize then .w32 else .w16

/-- `AddrSize` (30_encoding.md R97). -/
def addrSize (c : Ctx) (p : Prefixes) : Width :=
  match c.mode with
  | .long64 => if p.has .addrSize then .w32 else .w64
  | _ => if c.codeD != p.has .addrSize then .w32 else .w16

/-- A register number from a REX bit and a three-bit field (30_encoding.md R85). -/
def extend (rexBit : Bool) (field : BitVec 3) : Reg := BitVec.ofBool rexBit ++ field

/-- The three-bit field of a register number. -/
def Reg.field (r : Reg) : BitVec 3 := r.setWidth 3

/-- The REX bit of a register number. -/
def Reg.high (r : Reg) : Bool := r.msb

/-- The segment override that acts on a memory destination, if any: in `Long64` only FS and GS do
(30_encoding.md R87). -/
def segOverride (m : Mode) (p : Prefixes) : Option SegName :=
  match p.segs.head? with
  | some s =>
    if m = .long64 then (if s = .fs ∨ s = .gs then some s else none) else some s
  | none => none

/-! ### Length (30_encoding.md R104) -/

def Disp16.size : Disp16 → Nat
  | .absent => 0
  | .byte _ => 1
  | .word _ => 2

def Disp32.size : Disp32 → Nat
  | .absent => 0
  | .byte _ => 1
  | .dword _ => 4

/-- SIB and displacement bytes after the ModRM byte. -/
def Mem.size : Mem → Nat
  | .base16 _ d => d.size
  | .disp16 _ => 2
  | .base _ d => d.size
  | .disp32 _ => 4
  | .sib _ _ _ d => 1 + d.size
  | .sibNoBase _ _ _ => 1 + 4

def RmDest.size : RmDest → Nat
  | .reg _ => 0
  | .mem m => m.size

def Prefixes.size (p : Prefixes) : Nat := p.legacy.length + (if p.rex.isSome then 1 else 0)

def Instr.prefixes : Instr → Prefixes
  | .popRm16 p _ => p
  | .popRm32 p _ => p
  | .popRm64 p _ => p
  | .popR16 p _ => p
  | .popR32 p _ => p
  | .popR64 p _ => p
  | .popDs p => p
  | .popEs p => p
  | .popSs p => p
  | .popFs16 p => p
  | .popFs32 p => p
  | .popFs64 p => p
  | .popGs16 p => p
  | .popGs32 p => p
  | .popGs64 p => p

/-- Opcode bytes and what follows them. -/
def Instr.bodySize : Instr → Nat
  | .popRm16 _ d => 2 + d.size
  | .popRm32 _ d => 2 + d.size
  | .popRm64 _ d => 2 + d.size
  | .popR16 _ _ => 1
  | .popR32 _ _ => 1
  | .popR64 _ _ => 1
  | .popDs _ => 1
  | .popEs _ => 1
  | .popSs _ => 1
  | .popFs16 _ => 2
  | .popFs32 _ => 2
  | .popFs64 _ => 2
  | .popGs16 _ => 2
  | .popGs32 _ => 2
  | .popGs64 _ => 2

/-- Instruction length `len` in bytes (30_encoding.md R104). -/
def Instr.len (i : Instr) : Nat := i.prefixes.size + i.bodySize

/-! ### Which terms have bytes in a context -/

/-- The prefixes a POP can have: none of R88's combinations, and REX in `Long64` only (30_encoding.md R84). -/
def Prefixes.encodable (c : Ctx) (p : Prefixes) : Bool :=
  !p.has .rep && !p.has .repne && decide p.legacy.Nodup && decide (p.segs.length ≤ 1)
    && (p.rex.isNone || decide (c.mode = .long64))

/-- An index register and the bit X (30_encoding.md R101): number 4 means none. -/
def indexEncodable (p : Prefixes) : Option Reg → Bool
  | none => !p.rexX
  | some r => decide (r.high = p.rexX) && decide (r ≠ 4)

/-- A base register with its displacement: field 101 with mod = 00 is taken (30_encoding.md R100, R101). -/
def baseEncodable (p : Prefixes) (r : Reg) (d : Disp32) : Bool :=
  decide (r.high = p.rexB) && !(decide (r.field = 5) && decide (d = .absent))

/-- The memory operands an address size and the REX bits can express (30_encoding.md R99 to R102). -/
def Mem.encodable (c : Ctx) (p : Prefixes) : Mem → Bool
  | .base16 b d => decide (addrSize c p = .w16) && !(decide (b = .bp) && decide (d = .absent))
  | .disp16 _ => decide (addrSize c p = .w16)
  | .base r d => decide (addrSize c p ≠ .w16) && decide (r.field ≠ 4) && baseEncodable p r d
  | .disp32 _ => decide (addrSize c p ≠ .w16)
  | .sib _ ix r d => decide (addrSize c p ≠ .w16) && indexEncodable p ix && baseEncodable p r d
  | .sibNoBase _ ix _ => decide (addrSize c p ≠ .w16) && indexEncodable p ix

def RmDest.encodable (c : Ctx) (p : Prefixes) : RmDest → Bool
  | .reg r => decide (r.high = p.rexB)
  | .mem m => m.encodable c p

/-- The row is the one `OperandSize` selects (30_encoding.md R93) and the operand has a field. -/
def Instr.rowEncodable (c : Ctx) : Instr → Bool
  | .popRm16 p d => decide (operandSize c p = .w16) && d.encodable c p
  | .popRm32 p d => decide (operandSize c p = .w32) && d.encodable c p
  | .popRm64 p d => decide (operandSize c p = .w64) && d.encodable c p
  | .popR16 p r => decide (operandSize c p = .w16) && decide (r.high = p.rexB)
  | .popR32 p r => decide (operandSize c p = .w32) && decide (r.high = p.rexB)
  | .popR64 p r => decide (operandSize c p = .w64) && decide (r.high = p.rexB)
  | .popDs _ => true
  | .popEs _ => true
  | .popSs _ => true
  | .popFs16 p => decide (operandSize c p = .w16)
  | .popFs32 p => decide (operandSize c p = .w32)
  | .popFs64 p => decide (operandSize c p = .w64)
  | .popGs16 p => decide (operandSize c p = .w16)
  | .popGs32 p => decide (operandSize c p = .w32)
  | .popGs64 p => decide (operandSize c p = .w64)

/-- Some bytes of this context decode to the instruction. -/
def Instr.encodable (c : Ctx) (i : Instr) : Bool :=
  i.prefixes.encodable c && i.rowEncodable c && decide (i.len ≤ 15)

end Sys2Proof
end

