-- ==== Sys2Proof/WellFormed.lean ====
section
/-! DEFINITION. Which instruction terms are well formed in a decoding context. The checks themselves stand in
Machine/Sizes.lean. -/

namespace Sys2Proof

/-- An instruction term is well formed in a context when bytes of that context can express it: its prefixes,
its row (30_encoding.md R93), its operand and its length (R88). -/
abbrev WellFormed (c : Ctx) (i : Instr) : Prop := i.encodable c = true

end Sys2Proof
end

