-- ==== Sys2Proof/Decode.lean ====
section
/-! DEFINITION. The decoder of 30_encoding.md R105, total on any bytes, rejecting by name; then the encoder,
written from the same tables. -/

namespace Sys2Proof

/-! ### Prefix bytes (30_encoding.md R81, R84) -/

/-- The prefix bytes of R81. -/
def legacyOfByte (b : Byte) : Option LegacyPrefix :=
  if b = 0x66 then some .opSize
  else if b = 0x67 then some .addrSize
  else if b = 0xF0 then some .lock
  else if b = 0xF2 then some .repne
  else if b = 0xF3 then some .rep
  else if b = 0x26 then some (.seg .es)
  else if b = 0x2E then some (.seg .cs)
  else if b = 0x36 then some (.seg .ss)
  else if b = 0x3E then some (.seg .ds)
  else if b = 0x64 then some (.seg .fs)
  else if b = 0x65 then some (.seg .gs)
  else none

/-- The longest run of prefix bytes at the start, and what follows it (R105). -/
def takeLegacy : List Byte → List LegacyPrefix × List Byte
  | [] => ([], [])
  | b :: bs =>
    match legacyOfByte b with
    | some q => (q :: (takeLegacy bs).1, (takeLegacy bs).2)
    | none => ([], b :: bs)

/-- A byte 40H to 4FH as REX (R84). -/
def rexOfByte (b : Byte) : Option Rex :=
  if b.extractLsb' 4 4 = 4 then
    some { w := b.getLsbD 3, r := b.getLsbD 2, x := b.getLsbD 1, b := b.getLsbD 0 }
  else none

/-- At most one REX byte, in `Long64` only (R84). -/
def takeRex (m : Mode) : List Byte → Option Rex × List Byte
  | [] => (none, [])
  | b :: bs =>
    if m = .long64 then
      match rexOfByte b with
      | some x => (some x, bs)
      | none => (none, b :: bs)
    else (none, b :: bs)

/-! ### Displacements, little-endian (20_memory.md R51) -/

def takeByte : List Byte → Except DecodeError (Byte × List Byte)
  | b :: bs => .ok (b, bs)
  | [] => .error .truncated

def takeWord : List Byte → Except DecodeError (Word16 × List Byte)
  | b0 :: b1 :: bs => .ok (b1 ++ b0, bs)
  | _ => .error .truncated

def takeDword : List Byte → Except DecodeError (Word32 × List Byte)
  | b0 :: b1 :: b2 :: b3 :: bs => .ok (b3 ++ b2 ++ b1 ++ b0, bs)
  | _ => .error .truncated

/-- The displacement after a 16-bit addressing form, by mod (R99). -/
def takeDisp16 (md : BitVec 2) (bs : List Byte) : Except DecodeError (Disp16 × List Byte) :=
  if md = 1 then (takeByte bs).map fun x => (.byte x.1, x.2)
  else if md = 2 then (takeWord bs).map fun x => (.word x.1, x.2)
  else .ok (.absent, bs)

/-- The displacement after a 32-bit or 64-bit addressing form, by mod (R100). -/
def takeDisp32 (md : BitVec 2) (bs : List Byte) : Except DecodeError (Disp32 × List Byte) :=
  if md = 1 then (takeByte bs).map fun x => (.byte x.1, x.2)
  else if md = 2 then (takeDword bs).map fun x => (.dword x.1, x.2)
  else .ok (.absent, bs)

/-! ### Memory operands -/

/-- ModRM.rm in a 16-bit address (R99). -/
def base16OfField (rm : BitVec 3) : Base16 :=
  if rm = 0 then .bxSi
  else if rm = 1 then .bxDi
  else if rm = 2 then .bpSi
  else if rm = 3 then .bpDi
  else if rm = 4 then .si
  else if rm = 5 then .di
  else if rm = 6 then .bp
  else .bx

def decodeMem16 (md : BitVec 2) (rm : BitVec 3) (bs : List Byte) :
    Except DecodeError (Mem × List Byte) :=
  if md = 0 ∧ rm = 6 then (takeWord bs).map fun x => (.disp16 x.1, x.2)
  else (takeDisp16 md bs).map fun x => (.base16 (base16OfField rm) x.1, x.2)

/-- The index register of a SIB byte; number 4 means none (R101). -/
def indexOf (rexX : Bool) (field : BitVec 3) : Option Reg :=
  if extend rexX field = 4 then none else some (extend rexX field)

/-- The SIB byte and what follows it (R101). -/
def decodeSib (p : Prefixes) (md : BitVec 2) : List Byte → Except DecodeError (Mem × List Byte)
  | [] => .error .truncated
  | sib :: bs =>
    if sib.extractLsb' 0 3 = 5 ∧ md = 0 then
      (takeDword bs).map fun x =>
        (.sibNoBase (sib.extractLsb' 6 2) (indexOf p.rexX (sib.extractLsb' 3 3)) x.1, x.2)
    else
      (takeDisp32 md bs).map fun x =>
        (.sib (sib.extractLsb' 6 2) (indexOf p.rexX (sib.extractLsb' 3 3))
          (extend p.rexB (sib.extractLsb' 0 3)) x.1, x.2)

/-- A 32-bit or 64-bit address (R100 to R102). -/
def decodeMem32 (p : Prefixes) (md : BitVec 2) (rm : BitVec 3) (bs : List Byte) :
    Except DecodeError (Mem × List Byte) :=
  if rm = 4 then decodeSib p md bs
  else if rm = 5 ∧ md = 0 then (takeDword bs).map fun x => (.disp32 x.1, x.2)
  else (takeDisp32 md bs).map fun x => (.base (extend p.rexB rm) x.1, x.2)

/-- The ModRM byte and what follows it (R89, R90, R95). -/
def decodeModRm (c : Ctx) (p : Prefixes) : List Byte → Except DecodeError (RmDest × List Byte)
  | [] => .error .truncated
  | m :: bs =>
    if m.extractLsb' 3 3 ≠ 0 then .error (.notPop8F (m.extractLsb' 3 3))
    else if m.extractLsb' 6 2 = 3 then .ok (.reg (extend p.rexB (m.extractLsb' 0 3)), bs)
    else if addrSize c p = .w16 then
      (decodeMem16 (m.extractLsb' 6 2) (m.extractLsb' 0 3) bs).map fun x => (.mem x.1, x.2)
    else
      (decodeMem32 p (m.extractLsb' 6 2) (m.extractLsb' 0 3) bs).map fun x => (.mem x.1, x.2)

/-! ### Rows (30_encoding.md R92, R93) -/

def rowM (w : Width) (p : Prefixes) (d : RmDest) : Instr :=
  match w with
  | .w16 => .popRm16 p d
  | .w32 => .popRm32 p d
  | .w64 => .popRm64 p d

def rowO (w : Width) (p : Prefixes) (r : Reg) : Instr :=
  match w with
  | .w16 => .popR16 p r
  | .w32 => .popR32 p r
  | .w64 => .popR64 p r

def rowFs (w : Width) (p : Prefixes) : Instr :=
  match w with
  | .w16 => .popFs16 p
  | .w32 => .popFs32 p
  | .w64 => .popFs64 p

def rowGs (w : Width) (p : Prefixes) : Instr :=
  match w with
  | .w16 => .popGs16 p
  | .w32 => .popGs32 p
  | .w64 => .popGs64 p

/-- The opcode and what follows it, the prefixes known (R105). -/
def decodeOpcode (c : Ctx) (p : Prefixes) : List Byte → Except DecodeError (Instr × List Byte)
  | [] => .error .truncated
  | op :: bs =>
    if op.extractLsb' 3 5 = 0x0B then
      .ok (rowO (operandSize c p) p (extend p.rexB (op.extractLsb' 0 3)), bs)
    else if op = 0x8F then
      (decodeModRm c p bs).map fun x => (rowM (operandSize c p) p x.1, x.2)
    else if op = 0x1F then .ok (.popDs p, bs)
    else if op = 0x07 then .ok (.popEs p, bs)
    else if op = 0x17 then .ok (.popSs p, bs)
    else if op = 0x0F then
      match bs with
      | [] => .error .truncated
      | op2 :: bs2 =>
        if op2 = 0xA1 then .ok (rowFs (operandSize c p) p, bs2)
        else if op2 = 0xA9 then .ok (rowGs (operandSize c p) p, bs2)
        else .error (.notPop0F op2)
    else .error (.notPop op)

/-- The prefix combinations that are refused (R88). -/
def prefixError (p : Prefixes) : Option DecodeError :=
  if p.has .rep || p.has .repne then some .repeatPrefix
  else if ¬ p.legacy.Nodup then some .duplicatePrefix
  else if 1 < p.segs.length then some .twoSegmentOverrides
  else none

/-- All prefixes of an instruction and the bytes after them. -/
def takePrefixes (m : Mode) (bs : List Byte) : Prefixes × List Byte :=
  ({ legacy := (takeLegacy bs).1, rex := (takeRex m (takeLegacy bs).2).1 },
    (takeRex m (takeLegacy bs).2).2)

/-- One instruction from the front of a sequence of bytes, with the bytes after it (30_encoding.md R105).
A LOCK prefix and the opcodes that are invalid in `Long64` decode: executing them raises #UD. -/
def decode (c : Ctx) (bs : List Byte) : Except DecodeError (Instr × List Byte) :=
  match prefixError (takePrefixes c.mode bs).1 with
  | some e => .error e
  | none =>
    match decodeOpcode c (takePrefixes c.mode bs).1 (takePrefixes c.mode bs).2 with
    | .error e => .error e
    | .ok (i, rest) => if i.len ≤ 15 then .ok (i, rest) else .error .tooLong

/-! ### The encoder -/

def LegacyPrefix.byte : LegacyPrefix → Byte
  | .opSize => 0x66
  | .addrSize => 0x67
  | .lock => 0xF0
  | .repne => 0xF2
  | .rep => 0xF3
  | .seg .es => 0x26
  | .seg .cs => 0x2E
  | .seg .ss => 0x36
  | .seg .ds => 0x3E
  | .seg .fs => 0x64
  | .seg .gs => 0x65

def Rex.byte (x : Rex) : Byte :=
  4#4 ++ BitVec.ofBool x.w ++ BitVec.ofBool x.r ++ BitVec.ofBool x.x ++ BitVec.ofBool x.b

def rexBytes : Option Rex → List Byte
  | some x => [x.byte]
  | none => []

def Prefixes.bytes (p : Prefixes) : List Byte := p.legacy.map LegacyPrefix.byte ++ rexBytes p.rex

def wordBytes (d : Word16) : List Byte := [d.extractLsb' 0 8, d.extractLsb' 8 8]

def dwordBytes (d : Word32) : List Byte :=
  [d.extractLsb' 0 8, d.extractLsb' 8 8, d.extractLsb' 16 8, d.extractLsb' 24 8]

def Disp16.bytes : Disp16 → List Byte
  | .absent => []
  | .byte d => [d]
  | .word d => wordBytes d

def Disp32.bytes : Disp32 → List Byte
  | .absent => []
  | .byte d => [d]
  | .dword d => dwordBytes d

/-- ModRM.mod for a displacement (R99, R100). -/
def Disp16.md : Disp16 → BitVec 2
  | .absent => 0
  | .byte _ => 1
  | .word _ => 2

def Disp32.md : Disp32 → BitVec 2
  | .absent => 0
  | .byte _ => 1
  | .dword _ => 2

def Base16.field : Base16 → BitVec 3
  | .bxSi => 0
  | .bxDi => 1
  | .bpSi => 2
  | .bpDi => 3
  | .si => 4
  | .di => 5
  | .bp => 6
  | .bx => 7

/-- ModRM with reg = 000 (R89, R90). -/
def modRm (md : BitVec 2) (rm : BitVec 3) : Byte := md ++ 0#3 ++ rm

def indexField : Option Reg → BitVec 3
  | none => 4
  | some r => Reg.field r

def sibByte (scale : BitVec 2) (index base : BitVec 3) : Byte := scale ++ index ++ base

/-- ModRM, SIB and displacement of a memory operand (R99 to R102). -/
def Mem.bytes : Mem → List Byte
  | .base16 b d => modRm d.md b.field :: d.bytes
  | .disp16 a => modRm 0 6 :: wordBytes a
  | .base r d => modRm d.md (Reg.field r) :: d.bytes
  | .disp32 a => modRm 0 5 :: dwordBytes a
  | .sib sc ix r d => modRm d.md 4 :: sibByte sc (indexField ix) (Reg.field r) :: d.bytes
  | .sibNoBase sc ix a => modRm 0 4 :: sibByte sc (indexField ix) 5 :: dwordBytes a

def RmDest.bytes : RmDest → List Byte
  | .reg r => [modRm 3 (Reg.field r)]
  | .mem m => m.bytes

/-- `58+r` (R91). -/
def opcodeO (r : Reg) : Byte := 0x0B#5 ++ Reg.field r

def Instr.bodyBytes : Instr → List Byte
  | .popRm16 _ d => 0x8F :: d.bytes
  | .popRm32 _ d => 0x8F :: d.bytes
  | .popRm64 _ d => 0x8F :: d.bytes
  | .popR16 _ r => [opcodeO r]
  | .popR32 _ r => [opcodeO r]
  | .popR64 _ r => [opcodeO r]
  | .popDs _ => [0x1F]
  | .popEs _ => [0x07]
  | .popSs _ => [0x17]
  | .popFs16 _ => [0x0F, 0xA1]
  | .popFs32 _ => [0x0F, 0xA1]
  | .popFs64 _ => [0x0F, 0xA1]
  | .popGs16 _ => [0x0F, 0xA9]
  | .popGs32 _ => [0x0F, 0xA9]
  | .popGs64 _ => [0x0F, 0xA9]

/-- The bytes of an instruction, in address order. -/
def encode (i : Instr) : List Byte := i.prefixes.bytes ++ i.bodyBytes

/-! ### The opcode table's words -/

/-- The `n` low bytes of a number, the least significant first. -/
def lowBytes : Nat → Nat → List Byte
  | 0, _ => []
  | n + 1, w => BitVec.ofNat 8 w :: lowBytes n (w / 256)

/-- The bytes of a table word: bits 7:0 are the byte at the lowest address, and every bit above `nbits`, up to
the longest instruction (15 bytes), is 0. -/
def tableBytes (nbits w : Nat) : List Byte := lowBytes 15 (w % 2 ^ nbits)

/-- DESIGN CHOICE (log 6). A table row gives no mode and no CS.D; its word is read in the context right after
reset, `Real` with CS.D = 0. -/
def tableCtx : Ctx := { mode := .real, codeD := false }

/-- The instruction the decoder reads from a table word. -/
def decodeTableWord (nbits w : Nat) : Option Instr :=
  match decode tableCtx (tableBytes nbits w) with
  | .ok (i, _) => some i
  | .error _ => none

end Sys2Proof
end

