-- ==== Sys2Proof/Machine/Memory.lean ====
section
/-! DEFINITION. Memory: a map from physical byte address to byte (10_state.md R40, 20_memory.md R50), as a list
of cells in one canonical form. -/

namespace Sys2Proof.Machine

/-- Memory as the list of the bytes that differ from an unlisted one. -/
structure Memory where
  cells : List Host.Cell
deriving DecidableEq, Repr

/-- DESIGN CHOICE (log 3). What an unlisted address reads as; the spec gives no contents at reset
(70_reset_and_hazards.md R200). -/
def unlisted : Byte := 0

def readCells : List Host.Cell → Nat → Byte
  | [], _ => unlisted
  | c :: cs, a => if c.1 = a then c.2 else readCells cs a

def writeCells : List Host.Cell → Nat → Byte → List Host.Cell
  | [], a, v => if v = unlisted then [] else [(a, v)]
  | c :: cs, a, v =>
    if a < c.1 then (if v = unlisted then c :: cs else (a, v) :: c :: cs)
    else if a = c.1 then (if v = unlisted then cs else (a, v) :: cs)
    else c :: writeCells cs a v

/-- The canonical form: addresses strictly rising, no cell equal to an unlisted byte. -/
def cellsWf (cs : List Host.Cell) : Bool :=
  decide (cs.Pairwise fun x y => x.1 < y.1) && cs.all fun c => decide (c.2 ≠ unlisted)

def Memory.wf (m : Memory) : Bool := cellsWf m.cells

/-- One byte. -/
def Memory.read (m : Memory) (a : Nat) : Byte := readCells m.cells a

/-- One byte stored. -/
def Memory.write (m : Memory) (a : Nat) (v : Byte) : Memory := { cells := writeCells m.cells a v }

/-- Bytes stored at addresses, one after the other, as listed: where one address stands twice the later byte stays. The
order of the bytes of one write is `State.storeOrder` (log 35). -/
def Memory.writeAll (m : Memory) : List (Nat × Byte) → Memory
  | [] => m
  | c :: cs => (m.write c.1 c.2).writeAll cs

/-- A list in another order: each element is put among those after it at the place `place` answers for their number. -/
def shuffle {α : Type} (place : Nat → Nat) : List α → List α
  | [] => []
  | c :: cs => (shuffle place cs).take (place cs.length) ++ c :: (shuffle place cs).drop (place cs.length)

/-! ### Little-endian values (20_memory.md R51) -/

/-- The number whose bytes are listed least significant first. -/
def leNat : List Byte → Nat
  | [] => 0
  | b :: bs => b.toNat + 256 * leNat bs

/-- The `n` low bytes of a value, least significant first. -/
def leBytes (n : Nat) (v : Word64) : List Byte :=
  (List.range n).map fun i => v.extractLsb' (8 * i) 8

end Sys2Proof.Machine
end

