-- ==== Sys2Proof/Machine/State.lean ====
section
/-! DEFINITION. The state of the machine, the ways a step can stop, and the state after reset. -/

namespace Sys2Proof.Machine

/-- A segment register: visible selector and hidden part (10_state.md R26, R27). -/
structure SegReg where
  sel : Word16
  hidden : Hidden
deriving DecidableEq, Repr

/-- The six segment registers (10_state.md R26). -/
structure SegFile where
  es : SegReg
  cs : SegReg
  ss : SegReg
  ds : SegReg
  fs : SegReg
  gs : SegReg
deriving DecidableEq, Repr

/-- GDTR (10_state.md R31). -/
structure Gdtr where
  base : Word64
  limit : Word32
deriving DecidableEq, Repr

/-- LDTR: its selector, the table its hidden part gives, and whether a local table is loaded (10_state.md R31). -/
structure Ldtr where
  sel : Word16
  base : Word64
  limit : Word32
  loaded : Bool
deriving DecidableEq, Repr

/-- The program of a run: a fixed list of bytes, with the offset in the code segment of its first byte
(70_reset_and_hazards.md R208, 20_memory.md R68; log 5). -/
structure Program where
  base : Word64
  bytes : List Byte
deriving DecidableEq, Repr

/-- Everything the spec gives the machine (10_state.md), the parameters of a run (00_scope.md R6), and one field
of the model's own. -/
structure State where
  /-- x[0] to x[15] (10_state.md R20). -/
  regs : Vector Word64 16
  /-- The instruction pointer (10_state.md R24). -/
  rip : Word64
  /-- RFLAGS (10_state.md R25). -/
  rflags : Word64
  /-- The segment registers (10_state.md R26). -/
  segs : SegFile
  /-- CPL where the mode does not fix it (10_state.md R33); read through `State.cpl`. -/
  cplField : BitVec 2
  /-- CR0 (10_state.md R34). -/
  cr0 : Word64
  /-- CR2, where a page fault records its linear address (60_exceptions.md R179). -/
  cr2 : Word64
  /-- IA32_EFER (10_state.md R34). -/
  efer : Word64
  /-- GDTR (10_state.md R31). -/
  gdtr : Gdtr
  /-- LDTR (10_state.md R31). -/
  ldtr : Ldtr
  /-- The inhibition after POP SS (10_state.md R37). -/
  ssInhibit : Bool
  /-- Memory (10_state.md R40). -/
  mem : Memory
  /-- The program of the run (70_reset_and_hazards.md R208). -/
  prog : Program
  /-- The parameters of the run (00_scope.md R6). -/
  plat : Platform
  /-- The model's own: how many free values have been drawn (log 8). -/
  draws : Nat
deriving DecidableEq, Repr

/-- The exceptions of POP with what they carry (60_exceptions.md R170), before they are taken. DESIGN CHOICE (log 33): an
error code has 32 bits; the spec gives it no width. -/
inductive Exc where
  /-- #UD. -/
  | ud
  /-- #NP with its error code. -/
  | np (code : Word32)
  /-- #SS with its error code. -/
  | ss (code : Word32)
  /-- #GP with its error code. -/
  | gp (code : Word32)
  /-- #PF with the code of `Translate` and the linear address of the first failing byte. -/
  | pf (code : Word32) (lin : Word64)
  /-- #AC with its error code. -/
  | ac (code : Word32)
deriving DecidableEq, Repr

/-- The fault outcomes (60_exceptions.md R180). Each carries its error code, where it has one (R177), and the
machine's state at the fault (R181). DESIGN CHOICE (log 33): a code has 32 bits. All are raised by the meanings of the
instructions, through `takeException`. All are safe: the processor would go on into a handler, the model stops (92_eei_decisions.md D4). -/
inductive Fault where
  /-- #UD: a LOCK prefix (R86); 1FH, 07H or 17H in `Long64` (R106). Safe. -/
  | invalidOpcode (state : State)
  /-- #NP: DS, ES, FS or GS loaded with a descriptor that is not present (R143). Safe. -/
  | segmentNotPresent (code : Option Word32) (state : State)
  /-- #SS: a stack address outside the segment or non-canonical (R59, R60); SS loaded with a descriptor that is not
  present (R145). Safe. -/
  | stackFault (code : Option Word32) (state : State)
  /-- #GP: a check on a memory destination (R59, R60) or on a segment load (R143, R145). Safe. -/
  | generalProtection (code : Option Word32) (state : State)
  /-- #PF: `Translate` refuses a byte (R61); with the linear address of the first such byte (R179). Safe. -/
  | pageFault (code : Option Word32) (lin : Word64) (state : State)
  /-- #AC: an unaligned access with alignment checking enabled (R57). Safe. -/
  | alignmentCheck (code : Option Word32) (state : State)
deriving DecidableEq, Repr

/-- The refusals (00_scope.md R10): the spec gives the situation no meaning. All are safe: the model stops. -/
inductive Refusal where
  /-- Raised by `exec` for an instruction that has no meaning yet. Safe. -/
  | notModelled (mnemonic : String)
  /-- Raised by `step`: the bytes at `rip` are no POP the spec describes (30_encoding.md R88, R90, R105). Safe. -/
  | undecodable (e : DecodeError)
  /-- Raised by every meaning on a term that no bytes of the current mode and CS.D encode (30_encoding.md R93,
  93_implementation_defined.md U5); `step` never meets it. Safe. -/
  | notEncodable
  /-- Raised by the checked accesses: the access runs past the top of the offset space (20_memory.md R71). Safe. -/
  | straddlesOffsetSpace
  /-- Raised by the accesses: a byte outside `PhysMem` (20_memory.md R61). Safe. -/
  | outsidePlainMemory (phys : Nat)
  /-- Raised by the writes: a byte of the program (20_memory.md R68). Safe. -/
  | writeIntoProgramText (phys : Nat)
  /-- Raised by `step`: `rip` is just past the last byte of the program, the run is over
  (70_reset_and_hazards.md R208). Safe. -/
  | endOfProgram
  /-- Raised by `step`: `rip` is nowhere in the program (70_reset_and_hazards.md R208). Safe. -/
  | outsideProgram
deriving DecidableEq, Repr

/-- How the pseudocode ends an instruction early: `raise` or `refuse` (00_scope.md R8). -/
inductive Stop where
  | raise (e : Exc)
  | refuse (r : Refusal)
deriving DecidableEq, Repr

/-- A value, or an early end (00_scope.md R8, R9). -/
abbrev Res (α : Type) := Except Stop α

/-! ### Reset (70_reset_and_hazards.md R200; log 2) -/

def resetCode : SegReg where
  sel := 0xF000
  hidden :=
    { base := 0xFFFF0000
      limit := 0xFFFF
      attr :=
        { kind := .code, writable := false, readable := true, conforming := false, expandDown := false
          dpl := 0, present := true, db := false, l := false, unusable := false
          accessed := true } }

def resetData : SegReg where
  sel := 0
  hidden :=
    { base := 0
      limit := 0xFFFF
      attr :=
        { kind := .data, writable := true, readable := false, conforming := false, expandDown := false
          dpl := 0, present := true, db := false, l := false, unusable := false
          accessed := true } }

/-- The machine right after reset (70_reset_and_hazards.md R200), with no program. -/
def State.reset : State where
  regs := Vector.replicate 16 0
  rip := 0xFFF0
  rflags := 2
  segs :=
    { es := resetData, cs := resetCode, ss := resetData, ds := resetData, fs := resetData, gs := resetData }
  cplField := 0
  cr0 := 0x60000010
  cr2 := 0
  efer := 0
  gdtr := { base := 0, limit := 0xFFFF }
  ldtr := { sel := 0, base := 0, limit := 0xFFFF, loaded := false }
  ssInhibit := false
  mem := { cells := [] }
  prog := { base := 0, bytes := [] }
  plat := { vaBits := 48, physMem := [{ lo := 0, size := 2 ^ 64 }], pages := [] }
  draws := 0

end Sys2Proof.Machine
end

