-- ==== Sys2Proof/Machine/Flags.lean ====
section
/-! DEFINITION. The flag and control bits POP reads (10_state.md R25, R33 to R37). POP writes none of them: there
is no flag computation (10_state.md R25, "Flags affected: None."). -/

namespace Sys2Proof.Machine

/-- EFLAGS.AC, bit 18 (10_state.md R34). -/
def State.flagAC (s : State) : Bool := s.rflags.getLsbD 18

/-- EFLAGS.VM, bit 17 (10_state.md R34). -/
def State.flagVM (s : State) : Bool := s.rflags.getLsbD 17

/-- EFLAGS.IF, bit 9 (10_state.md R34). -/
def State.flagIF (s : State) : Bool := s.rflags.getLsbD 9

/-- CR0.PE, bit 0 (10_state.md R34). -/
def State.crPE (s : State) : Bool := s.cr0.getLsbD 0

/-- CR0.AM, bit 18 (10_state.md R34). -/
def State.crAM (s : State) : Bool := s.cr0.getLsbD 18

/-- CR0.PG, bit 31 (10_state.md R34). -/
def State.crPG (s : State) : Bool := s.cr0.getLsbD 31

/-- IA32_EFER.LMA, bit 10 (10_state.md R34). -/
def State.eferLMA (s : State) : Bool := s.efer.getLsbD 10

/-- The mode (10_state.md R36). -/
def State.mode (s : State) : Mode :=
  if !s.crPE then .real
  else if !s.eferLMA && s.flagVM then .v86
  else if !s.eferLMA then .prot
  else if s.segs.cs.hidden.attr.l then .long64
  else .compat

/-- `Prot` or `Compat`: the modes with the protected-mode checks on an access (20_memory.md R56, R59). -/
def State.protected (s : State) : Bool := decide (s.mode = .prot) || decide (s.mode = .compat)

/-- CPL: 0 in `Real`, 3 in `V86` (10_state.md R33; log 24). -/
def State.cpl (s : State) : BitVec 2 :=
  match s.mode with
  | .real => 0
  | .v86 => 3
  | _ => s.cplField

/-- What the decoder reads of the state: the mode and CS.D (10_state.md R35). -/
def State.ctx (s : State) : Ctx := { mode := s.mode, codeD := s.segs.cs.hidden.attr.db }

/-- `StackAddrSize` (30_encoding.md R98). -/
def State.stackAddrSize (s : State) : Width :=
  match s.mode with
  | .long64 => .w64
  | _ => if s.segs.ss.hidden.attr.db then .w32 else .w16

/-- `AlignCheckEnabled` (20_memory.md R57). -/
def State.alignCheckEnabled (s : State) : Bool := s.crAM && s.flagAC && decide (s.cpl = 3)

/-- Paging is on: CR0.PG, never in `Real` (20_memory.md R62; log 25). -/
def State.pagingOn (s : State) : Bool := s.crPG && decide (s.mode ≠ .real)

/-- The privilege of POP's own accesses (20_memory.md R62). -/
def State.priv (s : State) : Privilege := if s.cpl = 3 then .user else .supervisor

/-- A maskable interrupt could be delivered at this instruction boundary: IF is set and no inhibition holds it back
(10_state.md R25, R37; 60_exceptions.md R184; log 28). Nothing in the model delivers one. -/
def State.interruptible (s : State) : Bool := s.flagIF && !s.ssInhibit

end Sys2Proof.Machine
end

