-- ==== Sys2Proof/Machine/Paging.lean ====
section
/-! DEFINITION. The parameters `Translate` and `PhysMem`, read from their plain data (20_memory.md R61, R62; log 4). -/

namespace Sys2Proof

def AddrRange.contains (r : AddrRange) (a : Nat) : Bool := decide (r.lo ≤ a) && decide (a < r.lo + r.size)

/-- A region speaks of an access. -/
def PageRegion.covers (r : PageRegion) (acc : Access) (pr : Privilege) (lin : Nat) : Bool :=
  r.range.contains lin
    && (match acc with | .read => r.reads | .write => r.writes)
    && (match pr with | .user => r.user | .supervisor => r.supervisor)

/-- `Translate` as the regions give it: a physical address or a page-fault code (20_memory.md R62). -/
def translatePages (rs : List PageRegion) (acc : Access) (pr : Privilege) (lin : Nat) : Except Word32 Nat :=
  match rs.find? fun r => r.covers acc pr lin with
  | none => .ok lin
  | some r =>
    match r.target with
    | .maps phys => .ok (phys + (lin - r.range.lo))
    | .fails code => .error code

/-- `PhysMem` (20_memory.md R61). -/
def Platform.plain (p : Platform) (a : Nat) : Bool := p.physMem.any fun r => r.contains a

end Sys2Proof
end

