-- ==== Sys2Proof/Machine/Ops.lean ====
section
/-! DEFINITION. The operations the instructions share: registers, segment registers, checked memory accesses,
taking an exception, and completing an instruction. -/

namespace Sys2Proof.Machine

/-! ### General registers (10_state.md R20 to R23) -/

def State.x (s : State) (r : Reg) : Word64 := s.regs[r.toNat]'(r.isLt)

def State.setX (s : State) (r : Reg) (v : Word64) : State :=
  { s with regs := s.regs.set r.toNat v r.isLt }

/-- A register read at a width, zero-extended (00_scope.md R8). -/
def State.readReg (s : State) (w : Width) (r : Reg) : Word64 := w.trunc (s.x r)

/-- The low bits of a value replaced by those of another. -/
def replaceLow (w : Width) (old v : Word64) : Word64 :=
  match w with
  | .w16 => old.extractLsb' 16 48 ++ v.setWidth 16
  | .w32 => old.extractLsb' 32 32 ++ v.setWidth 32
  | .w64 => v

/-- A register write at a width (10_state.md R22): a 16-bit write keeps the bits above it, a 32-bit write leaves
them a free value (log 8). -/
def State.writeReg (s : State) (w : Width) (r : Reg) (v : Word64) : State :=
  match w with
  | .w16 => s.setX r (replaceLow .w16 (s.x r) v)
  | .w32 => { s.setX r (Config.upperHalf s.draws ++ v.setWidth 32) with draws := s.draws + 1 }
  | .w64 => s.setX r v

/-- The number of the stack pointer (10_state.md R23). -/
def rsp : Reg := 4

/-- `rSP(sa)` at the current stack-address size (10_state.md R23). -/
def State.stackPointer (s : State) : Word64 := s.readReg s.stackAddrSize rsp

/-- The instruction pointer after an instruction of a given length (10_state.md R24). -/
def State.nextRip (s : State) (len : Nat) : Word64 :=
  match s.mode with
  | .long64 => s.rip + BitVec.ofNat 64 len
  | _ => Width.w32.trunc (s.rip + BitVec.ofNat 64 len)

/-- What every completed POP does last: `rip` moves past it, and `ss_inhibit` is set by POP SS and cleared by every
other (10_state.md R24, R37). -/
def State.retire (s : State) (len : Nat) (inhibit : Bool) : State :=
  { s with rip := s.nextRip len, ssInhibit := inhibit }

/-! ### Segment registers (10_state.md R26) -/

def SegFile.get (f : SegFile) : SegName → SegReg
  | .es => f.es
  | .cs => f.cs
  | .ss => f.ss
  | .ds => f.ds
  | .fs => f.fs
  | .gs => f.gs

def SegFile.set (f : SegFile) (n : SegName) (v : SegReg) : SegFile :=
  match n with
  | .es => { f with es := v }
  | .cs => { f with cs := v }
  | .ss => { f with ss := v }
  | .ds => { f with ds := v }
  | .fs => { f with fs := v }
  | .gs => { f with gs := v }

def State.seg (s : State) (n : SegName) : SegReg := s.segs.get n

def State.setSeg (s : State) (n : SegName) (v : SegReg) : State := { s with segs := s.segs.set n v }

/-! ### Exceptions (60_exceptions.md R177 to R181) -/

/-- An error code as the mode delivers it: none in `Real` (60_exceptions.md R177). -/
def State.errorCode (s : State) (code : Word32) : Option Word32 :=
  if s.mode = .real then none else some code

/-- TAKING AN EXCEPTION. The step ends in the fault outcome (60_exceptions.md R180), everything being as it was
before the instruction (R181); a page fault also records its linear address in CR2 (R179). -/
def takeException (e : Exc) (s : State) : Host.Outcome State Fault Refusal :=
  match e with
  | .ud => .fault (.invalidOpcode s)
  | .np code => .fault (.segmentNotPresent (s.errorCode code) s)
  | .ss code => .fault (.stackFault (s.errorCode code) s)
  | .gp code => .fault (.generalProtection (s.errorCode code) s)
  | .pf code lin => .fault (.pageFault (s.errorCode code) lin { s with cr2 := lin })
  | .ac code => .fault (.alignmentCheck (s.errorCode code) s)

/-- The vector number of an exception (60_exceptions.md R170). -/
def Exc.vector : Exc → Nat
  | .ud => 6
  | .np _ => 11
  | .ss _ => 12
  | .gp _ => 13
  | .pf _ _ => 14
  | .ac _ => 17

/-- How an instruction ends (00_scope.md R9): all its writes take effect together, or none does. -/
def finish (s : State) : Res State → Host.Outcome State Fault Refusal
  | .ok t => .next t
  | .error (.raise e) => takeException e s
  | .error (.refuse r) => .refused r

/-- The frame of every meaning: a term that no bytes of this context encode is refused (30_encoding.md R93), a LOCK
prefix raises #UD (R86), and otherwise the instruction's own pseudocode runs. -/
def perform (i : Instr) (s : State) (body : Res State) : Host.Outcome State Fault Refusal :=
  if i.encodable s.ctx then
    if i.prefixes.has .lock then takeException .ud s else finish s body
  else .refused .notEncodable

/-! ### Logical to linear (20_memory.md R52 to R57) -/

/-- `Linear(s, off)` (20_memory.md R52). -/
def State.linear (s : State) (n : SegName) (off : Word64) : Word64 :=
  match s.mode with
  | .long64 => (if n = .fs ∨ n = .gs then (s.seg n).hidden.base else 0) + off
  | _ => Width.w32.trunc ((s.seg n).hidden.base + off)

/-- The linear address of byte `i` of an access, wrapping at the width of a linear address (log 26). -/
def State.linAt (s : State) (lin : Word64) (i : Nat) : Word64 :=
  match s.mode with
  | .long64 => lin + BitVec.ofNat 64 i
  | _ => Width.w32.trunc (lin + BitVec.ofNat 64 i)

/-- The linear addresses of an access of `n` bytes. -/
def State.linRun (s : State) (lin : Word64) (n : Nat) : List Word64 := (List.range n).map (s.linAt lin)

/-- `InLimit(s, off, n)`, in untruncated arithmetic (20_memory.md R54). -/
def inLimit (h : Hidden) (off n : Nat) : Bool :=
  if h.attr.kind = .data ∧ h.attr.expandDown = true then
    decide (h.limit.toNat < off) && decide (off + n - 1 ≤ if h.attr.db then 0xFFFFFFFF else 0xFFFF)
  else decide (off + n - 1 ≤ h.limit.toNat)

/-- `Canonical(a)`: bits 63 to `VA_BITS - 1` are all equal (20_memory.md R55). -/
def canonical (vaBits : Nat) (a : Word64) : Bool :=
  decide (a.toNat / 2 ^ (vaBits - 1) = 0) || decide (a.toNat / 2 ^ (vaBits - 1) = 2 ^ (65 - vaBits) - 1)

/-- `Writable(s)` (20_memory.md R56). -/
def State.writable (s : State) (n : SegName) : Bool :=
  decide (n ≠ .cs) && decide ((s.seg n).hidden.attr.kind = .data) && (s.seg n).hidden.attr.writable

/-- `LimitFault(s)` (20_memory.md R60); `takeException` drops the code in `Real`. -/
def limitFault (n : SegName) : Exc := if n = .ss then .ss 0 else .gp 0

/-- The exception of `Check` (20_memory.md R59), if one of its causes holds. -/
def State.checkFault (s : State) (n : SegName) (off : Word64) (len : Nat) (acc : Access) : Option Exc :=
  if s.mode = .long64 then
    if (s.linRun (s.linear n off) len).all (canonical s.plat.vaBits) then none
    else some (if n = .ss then .ss 0 else .gp 0)
  else if s.protected = true ∧ n ≠ .ss ∧ (s.seg n).hidden.attr.unusable = true then some (.gp 0)
  else if s.protected = true ∧ acc = .write ∧ s.writable n = false then some (.gp 0)
  else if inLimit (s.seg n).hidden off.toNat len then none
  else some (limitFault n)

/-- `Check(s, off, n, sz, acc)` (20_memory.md R59, R71). -/
def State.check (s : State) (n : SegName) (off : Word64) (len : Nat) (sz : Width) (acc : Access) : Res Unit :=
  match s.checkFault n off len acc with
  | some e => .error (.raise e)
  | none => if 2 ^ sz.bits ≤ off.toNat + len - 1 then .error (.refuse .straddlesOffsetSpace) else .ok ()

/-- An access is unaligned: its linear address is no multiple of its size (20_memory.md R57). Where the offset
says otherwise, the test is a free value (93_implementation_defined.md U16; log 11). -/
def unaligned (lin off : Word64) (n : Nat) : Bool :=
  if decide (lin.toNat % n = 0) = decide (off.toNat % n = 0) then decide (lin.toNat % n ≠ 0)
  else Config.alignBand lin off n

/-- The #AC test (20_memory.md R57, R58). -/
def State.alignCheck (s : State) (lin off : Word64) (n : Nat) : Res Unit :=
  if s.alignCheckEnabled && unaligned lin off n then .error (.raise (.ac 0)) else .ok ()

/-! ### Linear to physical (20_memory.md R61, R62) -/

/-- `Translate`, the identity when paging is off (20_memory.md R62). -/
def State.translate (s : State) (acc : Access) (pr : Privilege) (lin : Word64) : Except Word32 Nat :=
  if s.pagingOn then translatePages s.plat.pages acc pr lin.toNat else .ok lin.toNat

/-- The physical addresses of linear ones; the first that `Translate` refuses raises #PF (20_memory.md R61). -/
def State.translateRun (s : State) (acc : Access) (pr : Privilege) : List Word64 → Res (List Nat)
  | [] => .ok []
  | l :: ls =>
    match s.translate acc pr l with
    | .error code => .error (.raise (.pf code l))
    | .ok p => (s.translateRun acc pr ls).map (p :: ·)

/-- The physical addresses of an access of `n` bytes, all of them in plain memory (20_memory.md R61). -/
def State.physRun (s : State) (acc : Access) (pr : Privilege) (lin : Word64) (n : Nat) : Res (List Nat) :=
  match s.translateRun acc pr (s.linRun lin n) with
  | .error e => .error e
  | .ok ps =>
    match ps.find? fun p => !s.plat.plain p with
    | some p => .error (.refuse (.outsidePlainMemory p))
    | none => .ok ps

/-! ### The program's own bytes (20_memory.md R68; log 5) -/

/-- The offset in the code segment of byte `k` of the program. -/
def State.textOffset (s : State) (k : Nat) : Word64 :=
  match s.mode with
  | .long64 => s.prog.base + BitVec.ofNat 64 k
  | _ => Width.w32.trunc (s.prog.base + BitVec.ofNat 64 k)

/-- The physical addresses of the program's bytes: where `Translate`, at the privilege of POP's own accesses, maps their
linear addresses for a read and where it maps them for a write. DESIGN CHOICE (log 5): a byte stands at no physical
address when it maps them for neither. -/
def State.textPhys (s : State) : List Nat :=
  (List.range s.prog.bytes.length).flatMap fun k =>
    [Access.read, Access.write].filterMap fun acc =>
      (s.translate acc s.priv (s.linear .cs (s.textOffset k))).toOption

/-- A physical address holds a byte of the program. -/
def State.inText (s : State) (a : Nat) : Bool := decide (a ∈ s.textPhys)

/-! ### Reading and writing (20_memory.md R58 to R61) -/

/-- The value of bytes at physical addresses, little-endian (20_memory.md R51, R61). -/
def Memory.value (m : Memory) (ps : List Nat) : Word64 := BitVec.ofNat 64 (leNat (ps.map m.read))

/-- `MemRead(lin, n)` (20_memory.md R61). -/
def State.memRead (s : State) (pr : Privilege) (lin : Word64) (n : Nat) : Res Word64 :=
  (s.physRun .read pr lin n).map s.mem.value

/-- The order in which the bytes of one write are stored. It shows only where `Translate` maps two of them to one physical
address, and the spec gives none (20_memory.md R61, R63): there it is a free value (DESIGN CHOICE, log 35). -/
def State.storeOrder (s : State) (cs : List (Nat × Byte)) : List (Nat × Byte) :=
  if (cs.map Prod.fst).Nodup then cs else shuffle (Config.storeOrder s.draws) cs

/-- `MemWrite(lin, n, v)` (20_memory.md R61), refused where it touches the program (R68). -/
def State.memWrite (s : State) (lin : Word64) (n : Nat) (v : Word64) : Res State :=
  match s.physRun .write s.priv lin n with
  | .error e => .error e
  | .ok ps =>
    match ps.find? s.inText with
    | some p => .error (.refuse (.writeIntoProgramText p))
    | none =>
      .ok { s with
        mem := s.mem.writeAll (s.storeOrder (ps.zip (leBytes n v)))
        draws := s.draws + 1 }

/-- `SegRead(s, off, n, sz)` (20_memory.md R58). -/
def State.segRead (s : State) (n : SegName) (off : Word64) (len : Nat) (sz : Width) : Res Word64 :=
  match s.check n off len sz .read with
  | .error e => .error e
  | .ok () =>
    match s.alignCheck (s.linear n off) off len with
    | .error e => .error e
    | .ok () => s.memRead s.priv (s.linear n off) len

/-- `SegWrite(s, off, n, sz, v)` (20_memory.md R59). -/
def State.segWrite (s : State) (n : SegName) (off : Word64) (len : Nat) (sz : Width) (v : Word64) : Res State :=
  match s.check n off len sz .write with
  | .error e => .error e
  | .ok () =>
    match s.alignCheck (s.linear n off) off len with
    | .error e => .error e
    | .ok () => s.memWrite (s.linear n off) len v

/-! ### The top of the stack (40_pop_general.md R120) -/

/-- The stack pointer after an increment, at the stack-address size (40_pop_general.md R120). -/
def State.spAfter (s : State) (w : Width) : Word64 :=
  s.stackAddrSize.trunc (s.stackPointer + BitVec.ofNat 64 w.bytes)

/-- The value `PopRead` answers (40_pop_general.md R120); the new stack pointer is `spAfter`. -/
def State.popRead (s : State) (w : Width) : Res Word64 :=
  s.segRead .ss s.stackPointer w.bytes s.stackAddrSize

/-- `rSP(sa) <- sp_new` (10_state.md R23), the size and the value those of a state `s0`. -/
def State.writeSP (s : State) (s0 : State) (w : Width) : State :=
  s.writeReg s0.stackAddrSize rsp (s0.spAfter w)

end Sys2Proof.Machine
end

