-- ==== Sys2Proof/Machine/Operands.lean ====
section
/-! DEFINITION. Memory destinations: effective address and segment (30_encoding.md R95, R99 to R103, R87). -/

namespace Sys2Proof.Machine

/-- A 16-bit displacement, sign-extended from a byte (30_encoding.md R100). -/
def dispValue16 : Disp16 → Word16
  | .absent => 0
  | .byte d => d.signExtend 16
  | .word d => d

/-- A displacement sign-extended to 64 bits; at 32 bits only its low half counts (30_encoding.md R100). -/
def dispValue32 : Disp32 → Word64
  | .absent => 0
  | .byte d => d.signExtend 64
  | .dword d => d.signExtend 64

/-- The registers of a 16-bit address: BX is 3, BP 5, SI 6, DI 7 (30_encoding.md R99). -/
def State.baseValue16 (s : State) (b : Base16) : Word16 :=
  match b with
  | .bxSi => (s.x 3).setWidth 16 + (s.x 6).setWidth 16
  | .bxDi => (s.x 3).setWidth 16 + (s.x 7).setWidth 16
  | .bpSi => (s.x 5).setWidth 16 + (s.x 6).setWidth 16
  | .bpDi => (s.x 5).setWidth 16 + (s.x 7).setWidth 16
  | .si => (s.x 6).setWidth 16
  | .di => (s.x 7).setWidth 16
  | .bp => (s.x 5).setWidth 16
  | .bx => (s.x 3).setWidth 16

/-- The index register times its scale (30_encoding.md R101). -/
def State.indexValue (s : State) (as : Width) (scale : BitVec 2) (index : Option Reg) : Word64 :=
  match index with
  | none => 0
  | some r => s.readReg as r <<< scale.toNat

/-- The effective address at an address size, `next` being the address of the next instruction
(30_encoding.md R99 to R102). -/
def State.effAddr (s : State) (m : Mem) (as : Width) (next : Word64) : Word64 :=
  match m with
  | .base16 b d => (s.baseValue16 b + dispValue16 d).setWidth 64
  | .disp16 a => a.setWidth 64
  | .base r d => as.trunc (s.readReg as r + dispValue32 d)
  | .disp32 a => as.trunc ((if s.mode = .long64 then next else 0) + a.signExtend 64)
  | .sib scale index r d => as.trunc (s.readReg as r + s.indexValue as scale index + dispValue32 d)
  | .sibNoBase scale index a => as.trunc (s.indexValue as scale index + a.signExtend 64)

/-- ESP, EBP, RSP or RBP is the base register (30_encoding.md R103). -/
def baseSeg (r : Reg) : SegName := if r = 4 ∨ r = 5 then .ss else .ds

/-- The default segment of a memory destination (30_encoding.md R99, R103). -/
def defaultSeg : Mem → SegName
  | .base16 .bpSi _ => .ss
  | .base16 .bpDi _ => .ss
  | .base16 .bp _ => .ss
  | .base16 _ _ => .ds
  | .disp16 _ => .ds
  | .base r _ => baseSeg r
  | .disp32 _ => .ds
  | .sib _ _ r _ => baseSeg r
  | .sibNoBase _ _ _ => .ds

/-- The segment of a memory destination (30_encoding.md R87, R103). -/
def State.memSeg (s : State) (p : Prefixes) (m : Mem) : SegName :=
  match segOverride s.mode p with
  | some n => n
  | none => defaultSeg m

/-- Register 4 is the base of the address (40_pop_general.md R130). -/
def basedOnSP : Mem → Bool
  | .sib _ _ r _ => decide (r = 4)
  | _ => false

/-- The 16-bit stack pointer wraps and register 4 is the base of the destination (40_pop_general.md R130). -/
def State.wrapCase (s : State) (w : Width) (m : Mem) : Bool :=
  decide (s.stackAddrSize = .w16) && decide (2 ^ 16 ≤ s.stackPointer.toNat + w.bytes) && basedOnSP m

/-- `x4_after`: register 4 as it stands after the increment (40_pop_general.md R129). -/
def State.spAdvanced (s : State) (w : Width) : State :=
  s.setX rsp (replaceLow s.stackAddrSize (s.x rsp) (s.spAfter w))

/-- The effective address of the destination of a POP of width `w` and length `len`, register 4 read after the
increment (40_pop_general.md R129); `WrapWriteLoc` in the case of R130 (log 7). -/
def State.destAddr (s : State) (p : Prefixes) (m : Mem) (w : Width) (len : Nat) : Word64 :=
  if s.wrapCase w m then
    (Config.wrapWriteLoc (s.x rsp) w.bytes
      ((s.spAdvanced w).effAddr m (addrSize s.ctx p) (s.nextRip len))).setWidth 64
  else (s.spAdvanced w).effAddr m (addrSize s.ctx p) (s.nextRip len)

end Sys2Proof.Machine
end

