-- ==== Sys2Proof/Machine/PopGeneral.lean ====
section
/-! DEFINITION. POP into a general-purpose register or memory (40_pop_general.md). -/

namespace Sys2Proof.Machine

/-- `PopToReg(i, w)` (40_pop_general.md R121): the stack pointer first, the destination second (R128). -/
def popToReg (r : Reg) (w : Width) (len : Nat) (s : State) : Res State :=
  match s.popRead w with
  | .error e => .error e
  | .ok v => .ok (((s.writeSP s w).writeReg w r v).retire len false)

/-- `PopToMem(w)` (40_pop_general.md R129). -/
def popToMem (p : Prefixes) (m : Mem) (w : Width) (len : Nat) (s : State) : Res State :=
  match s.popRead w with
  | .error e => .error e
  | .ok v =>
    match s.segWrite (s.memSeg p m) (s.destAddr p m w len) w.bytes (addrSize s.ctx p) v with
    | .error e => .error e
    | .ok t => .ok ((t.writeSP s w).retire len false)

/-- Format M: a register or a memory destination (30_encoding.md R95). -/
def popToRm (p : Prefixes) (d : RmDest) (w : Width) (len : Nat) (s : State) : Res State :=
  match d with
  | .reg r => popToReg r w len s
  | .mem m => popToMem p m w len s

/-- POP r/m16 (40_pop_general.md R122). -/
def execPopRm16 (p : Prefixes) (d : RmDest) (s : State) : Host.Outcome State Fault Refusal :=
  perform (.popRm16 p d) s (popToRm p d .w16 (Instr.popRm16 p d).len s)

/-- POP r/m32 (40_pop_general.md R123). -/
def execPopRm32 (p : Prefixes) (d : RmDest) (s : State) : Host.Outcome State Fault Refusal :=
  perform (.popRm32 p d) s (popToRm p d .w32 (Instr.popRm32 p d).len s)

/-- POP r/m64 (40_pop_general.md R124). -/
def execPopRm64 (p : Prefixes) (d : RmDest) (s : State) : Host.Outcome State Fault Refusal :=
  perform (.popRm64 p d) s (popToRm p d .w64 (Instr.popRm64 p d).len s)

/-- POP r16 (40_pop_general.md R125). -/
def execPopR16 (p : Prefixes) (r : Reg) (s : State) : Host.Outcome State Fault Refusal :=
  perform (.popR16 p r) s (popToReg r .w16 (Instr.popR16 p r).len s)

/-- POP r32 (40_pop_general.md R126). -/
def execPopR32 (p : Prefixes) (r : Reg) (s : State) : Host.Outcome State Fault Refusal :=
  perform (.popR32 p r) s (popToReg r .w32 (Instr.popR32 p r).len s)

/-- POP r64 (40_pop_general.md R127). -/
def execPopR64 (p : Prefixes) (r : Reg) (s : State) : Host.Outcome State Fault Refusal :=
  perform (.popR64 p r) s (popToReg r .w64 (Instr.popR64 p r).len s)

end Sys2Proof.Machine
end

