-- ==== Sys2Proof/Machine/Segment.lean ====
section
/-! DEFINITION. Loading a segment register (41_pop_segment.md R141 to R147). -/

namespace Sys2Proof.Machine

/-- The base and limit of the table a selector indexes; none when it is the local table and none is loaded
(10_state.md R31). -/
def State.table (s : State) (sel : Word16) : Option (Word64 × Word32) :=
  if selTI sel then (if s.ldtr.loaded then some (s.ldtr.base, s.ldtr.limit) else none)
  else some (s.gdtr.base, s.gdtr.limit)

/-- The linear address of a descriptor (10_state.md R31; log 26). -/
def State.descLinear (s : State) (base : Word64) (sel : Word16) : Word64 := s.linAt base (selIndex sel * 8)

/-- `Lookup(sel)` (10_state.md R31): none is `OutsideLimits`; otherwise the descriptor, and the physical address of
its byte 5, which holds the accessed bit. -/
def State.lookup (s : State) (sel : Word16) : Res (Option (Descriptor × Nat)) :=
  match s.table sel with
  | none => .ok none
  | some (base, limit) =>
    if limit.toNat < selIndex sel * 8 + 7 then .ok none
    else
      match s.physRun .read .supervisor (s.descLinear base sel) 8 with
      | .error e => .error e
      | .ok ps => .ok (some (descriptorOf (s.mem.value ps), ps.getD 5 0))

/-- The accessed bit after a descriptor is loaded: set if it was set, else a free value (log 10, log 34). -/
def State.accessedBit (s : State) (d : Descriptor) : Bool := d.accessed || Config.setsAccessed s.draws

/-- The accessed bit of a descriptor that is loaded: where it is 0, the processor may set it in memory (41_pop_segment.md
R147; log 10). The byte must not be one of the program's (20_memory.md R68). -/
def State.markAccessed (s : State) (d : Descriptor) (byte5 : Nat) : Res State :=
  if d.accessed then .ok s
  else if s.inText byte5 then .error (.refuse (.writeIntoProgramText byte5))
  else
    .ok { s with
      mem := s.mem.write byte5 (s.mem.read byte5 ||| (if s.accessedBit d then 1 else 0))
      draws := s.draws + 1 }

/-- `LoadDataSeg(s, sel)` (41_pop_segment.md R143). -/
def State.loadDataSeg (s : State) (sel : Word16) : Res (Hidden × State) :=
  match s.lookup sel with
  | .error e => .error e
  | .ok none => .error (.raise (.gp (selCode sel)))
  | .ok (some (d, byte5)) =>
    if d.isDataOrReadableCode = false then .error (.raise (.gp (selCode sel)))
    else if d.isDataOrNonconforming = true ∧ privFail (selRPL sel) s.cpl d.dpl = true then
      .error (.raise (.gp (selCode sel)))
    else if d.present = false then .error (.raise (.np (selCode sel)))
    else (s.markAccessed d byte5).map fun t => (hiddenOf d (s.accessedBit d), t)

/-- `LoadSS(sel)` (41_pop_segment.md R145). -/
def State.loadSS (s : State) (sel : Word16) : Res (Hidden × State) :=
  if selNull sel then .error (.raise (.gp 0))
  else
    match s.lookup sel with
    | .error e => .error e
    | .ok none => .error (.raise (.gp (selCode sel)))
    | .ok (some (d, byte5)) =>
      if selRPL sel ≠ s.cpl then .error (.raise (.gp (selCode sel)))
      else if d.isWritableData = false then .error (.raise (.gp (selCode sel)))
      else if d.dpl ≠ s.cpl then .error (.raise (.gp (selCode sel)))
      else if d.present = false then .error (.raise (.ss (selCode sel)))
      else (s.markAccessed d byte5).map fun t => (hiddenOf d (s.accessedBit d), t)

/-- `NullHidden`: unusable, everything else a free value (10_state.md R41; log 9). Outside `Long64` a base has
32 bits (10_state.md R27). -/
def State.nullHidden (s : State) : Hidden where
  base := if s.mode = .long64 then (Config.nullHidden s.draws).base else Width.w32.trunc (Config.nullHidden s.draws).base
  limit := (Config.nullHidden s.draws).limit
  attr := { (Config.nullHidden s.draws).attr with unusable := true }

/-- The attributes after a load in `V86` (41_pop_segment.md R141; log 20), the accessed bit given (log 34). -/
def v86Attr (accessed : Bool) : SegAttr where
  kind := .data
  writable := true
  readable := false
  conforming := false
  expandDown := false
  dpl := 3
  present := true
  db := false
  l := false
  unusable := false
  accessed := accessed

/-- `RealHidden(s, sel)` (41_pop_segment.md R141). -/
def State.realHidden (s : State) (n : SegName) (sel : Word16) : Hidden :=
  if s.mode = .v86 then { base := sel.setWidth 64 <<< 4, limit := 0xFFFF, attr := v86Attr (Config.accessedInV86 s.draws) }
  else
    { base := sel.setWidth 64 <<< 4
      limit := (s.seg n).hidden.limit
      attr := { (s.seg n).hidden.attr with unusable := false } }

/-- The hidden part a selector loads into a segment register, by mode (41_pop_segment.md R148), and the state with
the accessed bit and the draws of the load. -/
def State.segHidden (s : State) (n : SegName) (sel : Word16) : Res (Hidden × State) :=
  if s.mode = .real then .ok (s.realHidden n sel, s)
  else if s.mode = .v86 then .ok (s.realHidden n sel, { s with draws := s.draws + 1 })
  else if n = .ss then s.loadSS sel
  else if selNull sel then .ok (s.nullHidden, { s with draws := s.draws + 1 })
  else s.loadDataSeg sel

end Sys2Proof.Machine
end

