-- ==== Sys2Proof/Machine/PopSegment.lean ====
section
/-! DEFINITION. POP into a segment register (41_pop_segment.md). -/

namespace Sys2Proof.Machine

/-- The selector in a popped value: its low 16 bits (41_pop_segment.md R140; log 21). -/
def popSelector (v : Word64) : Word16 := v.setWidth 16

/-- `PopToSeg(s)` (41_pop_segment.md R148); POP SS alone sets the inhibition (R149). -/
def popToSeg (n : SegName) (w : Width) (len : Nat) (s : State) : Res State :=
  match s.popRead w with
  | .error e => .error e
  | .ok v =>
    match s.segHidden n (popSelector v) with
    | .error e => .error e
    | .ok (h, t) =>
      .ok (((t.writeSP s w).setSeg n { sel := popSelector v, hidden := h }).retire len (decide (n = .ss)))

/-- POP DS, ES and SS: #UD in `Long64` (30_encoding.md R106). -/
def popToLegacySeg (n : SegName) (p : Prefixes) (len : Nat) (s : State) : Res State :=
  if s.mode = .long64 then .error (.raise .ud) else popToSeg n (operandSize s.ctx p) len s

/-- POP DS (41_pop_segment.md R150). -/
def execPopDs (p : Prefixes) (s : State) : Host.Outcome State Fault Refusal :=
  perform (.popDs p) s (popToLegacySeg .ds p (Instr.popDs p).len s)

/-- POP ES (41_pop_segment.md R151). -/
def execPopEs (p : Prefixes) (s : State) : Host.Outcome State Fault Refusal :=
  perform (.popEs p) s (popToLegacySeg .es p (Instr.popEs p).len s)

/-- POP SS (41_pop_segment.md R152). -/
def execPopSs (p : Prefixes) (s : State) : Host.Outcome State Fault Refusal :=
  perform (.popSs p) s (popToLegacySeg .ss p (Instr.popSs p).len s)

/-- POP FS, operand size 16 (41_pop_segment.md R153). -/
def execPopFs16 (p : Prefixes) (s : State) : Host.Outcome State Fault Refusal :=
  perform (.popFs16 p) s (popToSeg .fs .w16 (Instr.popFs16 p).len s)

/-- POP FS, operand size 32 (41_pop_segment.md R154). -/
def execPopFs32 (p : Prefixes) (s : State) : Host.Outcome State Fault Refusal :=
  perform (.popFs32 p) s (popToSeg .fs .w32 (Instr.popFs32 p).len s)

/-- POP FS, operand size 64 (41_pop_segment.md R155). -/
def execPopFs64 (p : Prefixes) (s : State) : Host.Outcome State Fault Refusal :=
  perform (.popFs64 p) s (popToSeg .fs .w64 (Instr.popFs64 p).len s)

/-- POP GS, operand size 16 (41_pop_segment.md R156). -/
def execPopGs16 (p : Prefixes) (s : State) : Host.Outcome State Fault Refusal :=
  perform (.popGs16 p) s (popToSeg .gs .w16 (Instr.popGs16 p).len s)

/-- POP GS, operand size 32 (41_pop_segment.md R157). -/
def execPopGs32 (p : Prefixes) (s : State) : Host.Outcome State Fault Refusal :=
  perform (.popGs32 p) s (popToSeg .gs .w32 (Instr.popGs32 p).len s)

/-- POP GS, operand size 64 (41_pop_segment.md R158). -/
def execPopGs64 (p : Prefixes) (s : State) : Host.Outcome State Fault Refusal :=
  perform (.popGs64 p) s (popToSeg .gs .w64 (Instr.popGs64 p).len s)

end Sys2Proof.Machine
end

