-- ==== Sys2Proof/Machine/Dispatch.lean ====
section
/-! DEFINITION. One arm per row of the opcode table (30_encoding.md R92). -/

namespace Sys2Proof.Machine

def exec (i : Instr) (s : State) : Host.Outcome State Fault Refusal :=
  match i with
  | .popRm16 p d => Sys2Proof.Machine.execPopRm16 p d s
  | .popRm32 p d => Sys2Proof.Machine.execPopRm32 p d s
  | .popRm64 p d => Sys2Proof.Machine.execPopRm64 p d s
  | .popR16 p r => Sys2Proof.Machine.execPopR16 p r s
  | .popR32 p r => Sys2Proof.Machine.execPopR32 p r s
  | .popR64 p r => Sys2Proof.Machine.execPopR64 p r s
  | .popDs p => Sys2Proof.Machine.execPopDs p s
  | .popEs p => Sys2Proof.Machine.execPopEs p s
  | .popSs p => Sys2Proof.Machine.execPopSs p s
  | .popFs16 p => Sys2Proof.Machine.execPopFs16 p s
  | .popFs32 p => Sys2Proof.Machine.execPopFs32 p s
  | .popFs64 p => Sys2Proof.Machine.execPopFs64 p s
  | .popGs16 p => Sys2Proof.Machine.execPopGs16 p s
  | .popGs32 p => Sys2Proof.Machine.execPopGs32 p s
  | .popGs64 p => Sys2Proof.Machine.execPopGs64 p s

end Sys2Proof.Machine
end

