-- ==== Sys2Proof/Machine/Fetch.lean ====
section
/-! DEFINITION. Where the next instruction's bytes stand in the program (70_reset_and_hazards.md R208; log 5). -/

namespace Sys2Proof.Machine

/-- How far `rip` is past the first byte of the program, at the width of the instruction pointer
(10_state.md R24). -/
def State.fetchIndex (s : State) : Nat :=
  match s.mode with
  | .long64 => (s.rip - s.prog.base).toNat
  | _ => (Width.w32.trunc (s.rip - s.prog.base)).toNat

/-- The bytes of the program from `rip` on; at or past the last byte there are none, and the run is over or `rip` is
elsewhere. -/
def State.fetch (s : State) : Res (List Byte) :=
  if s.fetchIndex < s.prog.bytes.length then .ok (s.prog.bytes.drop s.fetchIndex)
  else if s.fetchIndex = s.prog.bytes.length then .error (.refuse .endOfProgram)
  else .error (.refuse .outsideProgram)

/-- The instruction at `rip` (30_encoding.md R105). -/
def State.nextInstr (s : State) : Res Instr :=
  match s.fetch with
  | .error e => .error e
  | .ok bs =>
    match decode s.ctx bs with
    | .error e => .error (.refuse (.undecodable e))
    | .ok (i, _) => .ok i

/-- A program that begins at `rip`. -/
def State.withProgram (s : State) (bytes : List Byte) : State :=
  { s with prog := { base := s.rip, bytes := bytes } }

end Sys2Proof.Machine
end

