-- ==== Sys2Proof/Machine/Step.lean ====
section
/-! DEFINITION. One step: the instruction at `rip` is decoded and run (00_scope.md R9, 70_reset_and_hazards.md R208). -/

namespace Sys2Proof.Machine

def step (s : State) : Host.Outcome State Fault Refusal :=
  match s.nextInstr with
  | .error (.raise e) => takeException e s
  | .error (.refuse r) => .refused r
  | .ok i => exec i s

/-- The state with a program that begins at `rip` and whose first instruction is a word of the opcode table, zero
bytes after it (log 5). -/
def State.withFetchWord (s : State) (nbits w : Nat) : State := s.withProgram (tableBytes nbits w)

end Sys2Proof.Machine
end

