-- ==== Sys2Proof/Safety.lean ====
section
/-! DEFINITION. The terms claims use: what an instruction pops into, when an access completes, what a completed POP
leaves unchanged, the invariant of a run, and its end. Nothing here is part of the machine. -/

namespace Sys2Proof

/-- The operand size of an instruction in a context (30_encoding.md R93, R96). -/
def Instr.width (c : Ctx) : Instr → Width
  | .popRm16 _ _ => .w16
  | .popRm32 _ _ => .w32
  | .popRm64 _ _ => .w64
  | .popR16 _ _ => .w16
  | .popR32 _ _ => .w32
  | .popR64 _ _ => .w64
  | .popDs p => operandSize c p
  | .popEs p => operandSize c p
  | .popSs p => operandSize c p
  | .popFs16 _ => .w16
  | .popFs32 _ => .w32
  | .popFs64 _ => .w64
  | .popGs16 _ => .w16
  | .popGs32 _ => .w32
  | .popGs64 _ => .w64

/-- The destination as a general register: of POP r16, r32, r64, and of POP r/m16, r/m32, r/m64 with mod = 11. -/
def Instr.regDest : Instr → Option Reg
  | .popRm16 _ (.reg r) => some r
  | .popRm32 _ (.reg r) => some r
  | .popRm64 _ (.reg r) => some r
  | .popR16 _ r => some r
  | .popR32 _ r => some r
  | .popR64 _ r => some r
  | _ => none

/-- The destination as a memory operand: of POP r/m16, r/m32, r/m64 with mod = 00, 01 or 10. -/
def Instr.memDest : Instr → Option Mem
  | .popRm16 _ (.mem m) => some m
  | .popRm32 _ (.mem m) => some m
  | .popRm64 _ (.mem m) => some m
  | _ => none

/-- The destination as a segment register: of the nine rows of 41_pop_segment.md. -/
def Instr.segDest : Instr → Option SegName
  | .popDs _ => some .ds
  | .popEs _ => some .es
  | .popSs _ => some .ss
  | .popFs16 _ => some .fs
  | .popFs32 _ => some .fs
  | .popFs64 _ => some .fs
  | .popGs16 _ => some .gs
  | .popGs32 _ => some .gs
  | .popGs64 _ => some .gs
  | _ => none

/-- A 16-bit displacement as a number: a byte is signed (30_encoding.md R99, R100). -/
def Disp16.int : Disp16 → Int
  | .absent => 0
  | .byte d => d.toInt
  | .word d => d.toNat

/-- A 32-bit or 64-bit displacement as a number, signed (30_encoding.md R100). -/
def Disp32.int : Disp32 → Int
  | .absent => 0
  | .byte d => d.toInt
  | .dword d => d.toInt

/-- POP DS, POP ES, POP SS: the rows the opcode table calls "Invalid" in 64-bit mode (30_encoding.md R92). -/
def Instr.invalidIn64 : Instr → Bool
  | .popDs _ => true
  | .popEs _ => true
  | .popSs _ => true
  | _ => false

namespace Machine

/-- The `n` bytes at a linear address are mapped, for an access and a privilege, to the physical addresses `ps`, all
in plain memory (20_memory.md R61, R62). -/
structure State.BytesAt (s : State) (acc : Access) (pr : Privilege) (lin : Word64) (n : Nat) (ps : List Nat) : Prop where
  length : ps.length = n
  mapped : ∀ k < n, s.translate acc pr (s.linAt lin k) = .ok (ps.getD k 0)
  plain : ∀ p ∈ ps, s.plat.plain p = true

/-- An access of `len` bytes at offset `off` of a segment passes `Check` (20_memory.md R59), the alignment test (R57)
and translation (R61), and its bytes are at the physical addresses `ps`. -/
structure State.Reaches (s : State) (n : SegName) (off : Word64) (len : Nat) (sz : Width) (acc : Access)
    (ps : List Nat) : Prop where
  canonical : s.mode = .long64 → ∀ k < len, canonical s.plat.vaBits (s.linAt (s.linear n off) k) = true
  usable : s.protected = true → n ≠ .ss → (s.seg n).hidden.attr.unusable = false
  writable : s.protected = true → acc = .write → s.writable n = true
  limit : s.mode ≠ .long64 → inLimit (s.seg n).hidden off.toNat len = true
  room : off.toNat + len ≤ 2 ^ sz.bits
  aligned : s.alignCheckEnabled = true → unaligned (s.linear n off) off len = false
  bytes : s.BytesAt acc s.priv (s.linear n off) len ps

/-- An access of `len` bytes at offset `off` of a segment meets none of the exceptions of `Check` (20_memory.md R59); it may
still run past the top of the offset space (R71). -/
structure State.PassesCheck (s : State) (n : SegName) (off : Word64) (len : Nat) (acc : Access) : Prop where
  canonical : s.mode = .long64 → ∀ k < len, canonical s.plat.vaBits (s.linAt (s.linear n off) k) = true
  usable : s.protected = true → n ≠ .ss → (s.seg n).hidden.attr.unusable = false
  writable : s.protected = true → acc = .write → s.writable n = true
  limit : s.mode ≠ .long64 → inLimit (s.seg n).hidden off.toNat len = true

/-- The top of the stack can be read at a width, from the physical addresses `ps` (40_pop_general.md R120). -/
abbrev State.StackReadable (s : State) (w : Width) (ps : List Nat) : Prop :=
  s.Reaches .ss s.stackPointer w.bytes s.stackAddrSize .read ps

/-- A memory destination can be written, at the physical addresses `qs`, none of them the program's
(40_pop_general.md R129; 20_memory.md R68). -/
structure State.DestWritable (s : State) (p : Prefixes) (m : Mem) (w : Width) (len : Nat) (qs : List Nat) : Prop where
  reaches : s.Reaches (s.memSeg p m) (s.destAddr p m w len) w.bytes (addrSize s.ctx p) .write qs
  notText : ∀ q ∈ qs, s.inText q = false

/-- A selector's descriptor lies in its table and can be read (10_state.md R31, R32). -/
def State.FindsDescriptor (s : State) (sel : Word16) (d : Descriptor) (byte5 : Nat) : Prop :=
  ∃ base limit ps, s.table sel = some (base, limit) ∧ selIndex sel * 8 + 7 ≤ limit.toNat ∧
    s.BytesAt .read .supervisor (s.descLinear base sel) 8 ps ∧
    d = descriptorOf (s.mem.value ps) ∧ byte5 = ps.getD 5 0

/-- "Index is outside descriptor table limits" (10_state.md R31). -/
def State.OutsideTable (s : State) (sel : Word16) : Prop :=
  (selTI sel = true ∧ s.ldtr.loaded = false) ∨
  (selTI sel = true ∧ s.ldtr.loaded = true ∧ s.ldtr.limit.toNat < selIndex sel * 8 + 7) ∨
  (selTI sel = false ∧ s.gdtr.limit.toNat < selIndex sel * 8 + 7)

/-- The tests on a descriptor loaded into DS, ES, FS or GS, but for presence (41_pop_segment.md R143, R146). -/
def State.AcceptsData (s : State) (sel : Word16) (d : Descriptor) : Prop :=
  (d.kind = .data ∨ (d.kind = .code ∧ d.readable = true)) ∧
    ((d.kind = .code ∧ d.conforming = true) ∨ (selRPL sel ≤ d.dpl ∧ s.cpl ≤ d.dpl))

/-- The tests on a descriptor loaded into SS, but for presence (41_pop_segment.md R145). -/
def State.AcceptsStack (s : State) (sel : Word16) (d : Descriptor) : Prop :=
  selRPL sel = s.cpl ∧ d.kind = .data ∧ d.writable = true ∧ d.dpl = s.cpl

/-- A POP that gets past decoding: its bytes exist in this context, it has no LOCK prefix, and it is not one of the
opcodes that are invalid in `Long64` (30_encoding.md R93, R106). -/
structure State.Runs (s : State) (i : Instr) : Prop where
  wf : WellFormed s.ctx i
  noLock : i.prefixes.has .lock = false
  valid : i.invalidIn64 = true → s.mode ≠ .long64

/-- A register as the address of a memory destination reads it: register 4 with the value it has after the increment, its
bits above the stack-address size kept (40_pop_general.md R129). -/
def State.addressReg (s : State) (w : Width) (r : Reg) : Nat :=
  if r = rsp then
    (s.x rsp).toNat / 2 ^ s.stackAddrSize.bits * 2 ^ s.stackAddrSize.bits +
      ((s.x rsp).toNat + w.bytes) % 2 ^ s.stackAddrSize.bits
  else (s.x r).toNat

/-- The index register of an address times its scale; 0 without one (30_encoding.md R101). -/
def State.scaledIndex (s : State) (w : Width) (scale : BitVec 2) : Option Reg → Nat
  | none => 0
  | some r => s.addressReg w r * 2 ^ scale.toNat

/-- The case of 40_pop_general.md R130: the increment carries out of a 16-bit stack pointer. -/
def State.stackWraps (s : State) (w : Width) : Prop :=
  s.stackAddrSize = .w16 ∧ 2 ^ 16 ≤ (s.x rsp).toNat % 2 ^ 16 + w.bytes

/-- The selector a POP into a segment register reads from the bytes at `ps` (41_pop_segment.md R140). -/
def State.poppedSelector (s : State) (ps : List Nat) : Word16 := BitVec.ofNat 16 (leNat (ps.map s.mem.read))

/-! ### What a completed POP leaves -/

/-- Flags, control registers, privilege, descriptor-table registers, program and parameters: everything but general
registers, `rip`, segment registers, memory, `ss_inhibit` and the draws (10_state.md R25, R33, R34, R38). -/
structure SameControl (s t : State) : Prop where
  rflags : t.rflags = s.rflags
  cplField : t.cplField = s.cplField
  cr0 : t.cr0 = s.cr0
  cr2 : t.cr2 = s.cr2
  efer : t.efer = s.efer
  gdtr : t.gdtr = s.gdtr
  ldtr : t.ldtr = s.ldtr
  prog : t.prog = s.prog
  plat : t.plat = s.plat

/-- The stack pointer after a POP that does not load it: incremented modulo `2^sa`, and on a 16-bit stack the bits
above it kept (40_pop_general.md R120, 10_state.md R23). -/
structure StackAdvanced (s t : State) (w : Width) : Prop where
  pointer : (t.readReg s.stackAddrSize rsp).toNat =
    (s.stackPointer.toNat + w.bytes) % 2 ^ s.stackAddrSize.bits
  above16 : s.stackAddrSize = .w16 → (t.x rsp).toNat / 2 ^ 16 = (s.x rsp).toNat / 2 ^ 16

/-- A completed POP into general register `r` (40_pop_general.md R121, 10_state.md R22, R38). `v` is the value popped. -/
structure PoppedIntoReg (s t : State) (w : Width) (r : Reg) (v : Nat) (len : Nat) : Prop where
  dest : (t.readReg w r).toNat = v
  keeps : w = .w16 → r ≠ rsp → (t.x r).toNat / 2 ^ 16 = (s.x r).toNat / 2 ^ 16
  stack : r ≠ rsp → StackAdvanced s t w
  others : ∀ q, q ≠ r → q ≠ rsp → t.x q = s.x q
  rip : t.rip = s.nextRip len
  inhibit : t.ssInhibit = false
  segs : t.segs = s.segs
  mem : t.mem = s.mem
  control : SameControl s t

/-- A completed POP into memory (40_pop_general.md R129): the bytes at `ps` are stored at `qs`, every other byte is as
before, and no register but the stack pointer changes. Where two of the bytes are stored at one physical address either may
stand there, as in 20_memory.md R61 and R63 (log 35). -/
structure PoppedIntoMem (s t : State) (w : Width) (ps qs : List Nat) (len : Nat) : Prop where
  stored : s.mem.wf = true → qs.Nodup → ∀ k < w.bytes, t.mem.read (qs.getD k 0) = s.mem.read (ps.getD k 0)
  among : s.mem.wf = true → ∀ k < w.bytes, ∃ j < w.bytes, qs.getD j 0 = qs.getD k 0 ∧
    t.mem.read (qs.getD k 0) = s.mem.read (ps.getD j 0)
  elsewhere : ∀ a, a ∉ qs → t.mem.read a = s.mem.read a
  stack : StackAdvanced s t w
  others : ∀ q, q ≠ rsp → t.x q = s.x q
  rip : t.rip = s.nextRip len
  inhibit : t.ssInhibit = false
  segs : t.segs = s.segs
  control : SameControl s t

/-- A completed POP into segment register `n`, memory apart (41_pop_segment.md R148): the selector is `sel`, the other
segment registers are as before, and no general register but the stack pointer changes. -/
structure PoppedIntoSeg (s t : State) (n : SegName) (w : Width) (sel : Word16) (len : Nat) : Prop where
  sel : (t.seg n).sel = sel
  otherSegs : ∀ q, q ≠ n → t.seg q = s.seg q
  stack : StackAdvanced s t w
  others : ∀ q, q ≠ rsp → t.x q = s.x q
  rip : t.rip = s.nextRip len
  inhibit : t.ssInhibit = decide (n = .ss)
  control : SameControl s t

/-- A hidden part holds a descriptor, field by field (41_pop_segment.md R147); the fields its kind gives no meaning are those
of `descriptorOf` (log 36). Of its accessed bit only this is said: it is
set where the descriptor's was (log 34). -/
structure HoldsDescriptor (h : Hidden) (d : Descriptor) : Prop where
  base : h.base.toNat = d.base.toNat
  limit : h.limit = d.limit
  kind : h.attr.kind = d.kind
  writable : h.attr.writable = d.writable
  readable : h.attr.readable = d.readable
  conforming : h.attr.conforming = d.conforming
  expandDown : h.attr.expandDown = d.expandDown
  dpl : h.attr.dpl = d.dpl
  present : h.attr.present = d.present
  db : h.attr.db = d.db
  l : h.attr.l = d.l
  unusable : h.attr.unusable = false
  accessed : d.accessed = true → h.attr.accessed = true

/-- Memory after a descriptor was loaded: as before, but that bit 0 of the descriptor's byte 5 may have become 1
(41_pop_segment.md R147, 92_eei_decisions.md D26). -/
structure AccessedBitOnly (s t : State) (byte5 : Nat) : Prop where
  elsewhere : ∀ a, a ≠ byte5 → t.mem.read a = s.mem.read a
  byte : s.mem.wf = true → t.mem.read byte5 = s.mem.read byte5 ∨ t.mem.read byte5 = s.mem.read byte5 ||| 1

/-! ### The invariant of a run -/

/-- What the spec says of every state of a run: the canonical form of memory; `rip` and the bases within 32 bits
where it says so (10_state.md R24, R27); the consistency conditions of a launch state (70_reset_and_hazards.md R201). -/
structure State.Inv (s : State) : Prop where
  mem : s.mem.wf = true
  rip : s.mode ≠ .long64 → s.rip.toNat < 2 ^ 32
  bases : ∀ n, (s.mode = .long64 → n ≠ .fs ∧ n ≠ .gs) → (s.seg n).hidden.base.toNat < 2 ^ 32
  long : s.mode = .long64 → s.segs.cs.hidden.attr.l = true ∧ s.segs.cs.hidden.attr.db = false
  real : s.mode = .real → s.cplField = 0 ∧ s.crPG = false
  v86 : s.mode = .v86 → s.cplField = 3
  stack : s.protected = true → s.writable .ss = true

/-- A launch state (70_reset_and_hazards.md R201). -/
structure State.Launch (s : State) : Prop where
  inv : s.Inv
  inhibit : s.ssInhibit = false

/-! ### The end of a run -/

/-- A final state: `rip` is just past the last byte of the program (70_reset_and_hazards.md R208). -/
def State.final (s : State) : Bool := decide (s.fetchIndex = s.prog.bytes.length)

/-- The state a fault leaves (60_exceptions.md R181). -/
def Fault.state : Fault → State
  | .invalidOpcode s => s
  | .segmentNotPresent _ s => s
  | .stackFault _ s => s
  | .generalProtection _ s => s
  | .pageFault _ _ s => s
  | .alignmentCheck _ s => s

/-- The same fault, the flags register replaced in the state it carries. -/
def Fault.withFlags (f : Word64) : Fault → Fault
  | .invalidOpcode s => .invalidOpcode { s with rflags := f }
  | .segmentNotPresent c s => .segmentNotPresent c { s with rflags := f }
  | .stackFault c s => .stackFault c { s with rflags := f }
  | .generalProtection c s => .generalProtection c { s with rflags := f }
  | .pageFault c lin s => .pageFault c lin { s with rflags := f }
  | .alignmentCheck c s => .alignmentCheck c { s with rflags := f }

/-- A step is safe when the machine goes on or the run is over. -/
def State.safeStep (s : State) : Bool :=
  match step s with
  | .next _ => true
  | .refused .endOfProgram => true
  | _ => false

end Machine

end Sys2Proof
end

