-- ==== Sys2Proof/Certificates/Slice0/Obligations.lean ====
section
/-! DEFINITION. The statements for the provers. Each docstring names the rules of spec/ the statement formalises, or
the log entry it rests on. The hypotheses are met by the witnesses of Tests/Slice0.lean. -/

section

open Sys2Proof Sys2Proof.Machine

/-! ### Encoding -/

/-- Decoding the bytes of a well-formed instruction gives it back, whatever bytes follow (30_encoding.md R80 to R105). -/
def Obligations.DecodeOfEncode : Prop :=
  ∀ (c : Ctx) (i : Instr) (rest : List Byte), WellFormed c i → decode c (encode i ++ rest) = .ok (i, rest)

/-- What the decoder accepts is well formed, and is spelled by exactly the bytes consumed (30_encoding.md R80 to R105). -/
def Obligations.EncodeOfDecode : Prop :=
  ∀ (c : Ctx) (bs : List Byte) (i : Instr) (rest : List Byte),
    decode c bs = .ok (i, rest) → WellFormed c i ∧ bs = encode i ++ rest

/-- A few of the byte sequences of 95_test_vectors.md decode to their instructions: E3, E16, E45, E63, E48, E29, E30. -/
def Obligations.SampleWordsDecode : Prop :=
  decode { mode := .long64, codeD := false } [0x41, 0x5F] =
    .ok (.popR64 { legacy := [], rex := some { w := false, r := false, x := false, b := true } } 15, []) ∧
  decode { mode := .long64, codeD := false } [0x8F, 0x44, 0x24, 0x08] =
    .ok (.popRm64 { legacy := [], rex := none } (.mem (.sib 0 none 4 (.byte 8))), []) ∧
  decode { mode := .prot, codeD := true } [0x8F, 0x45, 0xFC] =
    .ok (.popRm32 { legacy := [], rex := none } (.mem (.base 5 (.byte 0xFC))), []) ∧
  decode { mode := .real, codeD := false } [0x8F, 0x46, 0x02] =
    .ok (.popRm16 { legacy := [], rex := none } (.mem (.base16 .bp (.byte 2))), []) ∧
  decode { mode := .compat, codeD := true } [0x66, 0x17] =
    .ok (.popSs { legacy := [.opSize], rex := none }, []) ∧
  decode { mode := .long64, codeD := false } [0x66, 0x0F, 0xA1] =
    .ok (.popFs16 { legacy := [.opSize], rex := none }, []) ∧
  decode { mode := .long64, codeD := false } [0x48, 0x0F, 0xA9] =
    .ok (.popGs64 { legacy := [], rex := some { w := true, r := false, x := false, b := false } }, [])

/-- The row a byte sequence selects is the one of its operand size, and the rows that are "N.E." in a mode are not
selected there (30_encoding.md R93). -/
def Obligations.DecodedRowMatchesSize : Prop :=
  ∀ (c : Ctx) (bs : List Byte) (i : Instr) (rest : List Byte), decode c bs = .ok (i, rest) →
    i.width c = operandSize c i.prefixes ∧
      (c.mode = .long64 → i.width c ≠ .w32) ∧ (c.mode ≠ .long64 → i.width c ≠ .w64)

/-- `8F` with ModRM.reg from 1 to 7 is not POP (30_encoding.md R90). -/
def Obligations.ModRmRegMustBeZero : Prop :=
  ∀ (c : Ctx) (m : Byte) (rest : List Byte), m.extractLsb' 3 3 ≠ 0 →
    decode c (0x8F :: m :: rest) = .error (.notPop8F (m.extractLsb' 3 3))

/-- `OperandSize` (30_encoding.md R96). -/
def Obligations.OperandSizeRule : Prop :=
  ∀ (c : Ctx) (p : Prefixes),
    (c.mode ≠ .long64 → (operandSize c p).bits =
      if c.codeD = true then (if p.has .opSize = true then 16 else 32) else (if p.has .opSize = true then 32 else 16)) ∧
    (c.mode = .long64 → (operandSize c p).bits =
      if p.has .opSize = true ∧ p.rexW = false then 16 else 64)

/-- `AddrSize` (30_encoding.md R97). -/
def Obligations.AddrSizeRule : Prop :=
  ∀ (c : Ctx) (p : Prefixes),
    (c.mode ≠ .long64 → (addrSize c p).bits =
      if c.codeD = true then (if p.has .addrSize = true then 16 else 32)
      else (if p.has .addrSize = true then 32 else 16)) ∧
    (c.mode = .long64 → (addrSize c p).bits = if p.has .addrSize = true then 32 else 64)

/-! ### State and sizes -/

/-- `StackAddrSize` (30_encoding.md R98). -/
def Obligations.StackAddrSizeRule : Prop :=
  ∀ s : State,
    s.stackAddrSize.bits = if s.mode = .long64 then 64 else if s.segs.ss.hidden.attr.db = true then 32 else 16

/-- The mode as a function of the control bits (10_state.md R36, R34). -/
def Obligations.ModeRule : Prop :=
  ∀ s : State, s.mode =
    if s.cr0.getLsbD 0 = false then .real
    else if s.efer.getLsbD 10 = false ∧ s.rflags.getLsbD 17 = true then .v86
    else if s.efer.getLsbD 10 = false then .prot
    else if s.segs.cs.hidden.attr.l = true then .long64
    else .compat

/-- The state after reset, where 70_reset_and_hazards.md R200 gives a value; EAX and EDX apart, whose reset values are
the model's choice (log 2), as memory's are (log 3). -/
def Obligations.ResetValues : Prop :=
  State.reset.mode = .real ∧ State.reset.cpl = 0 ∧ State.reset.cr0 = 0x60000010 ∧ State.reset.efer = 0 ∧
    State.reset.rflags = 2 ∧ State.reset.rip = 0xFFF0 ∧
    State.reset.segs.cs.sel = 0xF000 ∧ State.reset.segs.cs.hidden.base = 0xFFFF0000 ∧
    State.reset.segs.cs.hidden.attr.kind = .code ∧ State.reset.segs.cs.hidden.attr.readable = true ∧
    (∀ n, (State.reset.seg n).hidden.limit = 0xFFFF ∧ (State.reset.seg n).hidden.attr.present = true ∧
      (State.reset.seg n).hidden.attr.accessed = true ∧ (State.reset.seg n).hidden.attr.db = false) ∧
    (∀ n, n ≠ .cs → (State.reset.seg n).sel = 0 ∧ (State.reset.seg n).hidden.base = 0 ∧
      State.reset.writable n = true) ∧
    (∀ r : Reg, r ≠ 0 → r ≠ 2 → State.reset.x r = 0) ∧
    (∀ r : Reg, (State.reset.x r).toNat / 2 ^ 32 = 0) ∧
    State.reset.gdtr = { base := 0, limit := 0xFFFF } ∧ State.reset.ldtr.sel = 0 ∧
    State.reset.ldtr.base = 0 ∧ State.reset.ldtr.limit = 0xFFFF ∧ State.reset.ssInhibit = false

/-- Register writes of less than the full width (10_state.md R22); what a 32-bit write leaves above it is free (log 8). -/
def Obligations.RegisterWriteWidths : Prop :=
  ∀ (s : State) (r : Reg) (v : Word64),
    (s.writeReg .w64 r v).x r = v ∧
    ((s.writeReg .w16 r v).x r).toNat = ((s.x r).toNat / 2 ^ 16) * 2 ^ 16 + v.toNat % 2 ^ 16 ∧
    ((s.writeReg .w32 r v).x r).toNat % 2 ^ 32 = v.toNat % 2 ^ 32 ∧
    ∀ (w : Width) (q : Reg), q ≠ r → (s.writeReg w r v).x q = s.x q

/-- With paging off, and always in `Real`, `Translate` is the identity (20_memory.md R62). -/
def Obligations.TranslateIdentity : Prop :=
  ∀ (s : State) (acc : Access) (pr : Privilege) (lin : Word64),
    s.cr0.getLsbD 31 = false ∨ s.mode = .real → s.translate acc pr lin = .ok lin.toNat

/-- The layout of a segment descriptor, the effective limit and the kind (10_state.md R32). -/
def Obligations.DescriptorLayout : Prop :=
  ∀ q : Word64,
    (descriptorOf q).base.toNat = q.toNat / 2 ^ 16 % 2 ^ 24 + q.toNat / 2 ^ 56 * 2 ^ 24 ∧
    (descriptorOf q).limit.toNat =
      (if q.toNat / 2 ^ 55 % 2 = 1 then (q.toNat % 2 ^ 16 + q.toNat / 2 ^ 48 % 16 * 2 ^ 16) * 2 ^ 12 + 0xFFF
        else q.toNat % 2 ^ 16 + q.toNat / 2 ^ 48 % 16 * 2 ^ 16) ∧
    (descriptorOf q).dpl.toNat = q.toNat / 2 ^ 45 % 4 ∧
    ((descriptorOf q).present = true ↔ q.toNat / 2 ^ 47 % 2 = 1) ∧
    ((descriptorOf q).accessed = true ↔ q.toNat / 2 ^ 40 % 2 = 1) ∧
    ((descriptorOf q).db = true ↔ q.toNat / 2 ^ 54 % 2 = 1) ∧
    ((descriptorOf q).l = true ↔ q.toNat / 2 ^ 53 % 2 = 1) ∧
    ((descriptorOf q).kind = .system ↔ q.toNat / 2 ^ 44 % 2 = 0) ∧
    ((descriptorOf q).kind = .code ↔ q.toNat / 2 ^ 43 % 4 = 3) ∧
    ((descriptorOf q).kind = .data ↔ q.toNat / 2 ^ 43 % 4 = 2) ∧
    ((descriptorOf q).kind = .data → ((descriptorOf q).writable = true ↔ q.toNat / 2 ^ 41 % 2 = 1) ∧
      ((descriptorOf q).expandDown = true ↔ q.toNat / 2 ^ 42 % 2 = 1)) ∧
    ((descriptorOf q).kind = .code → ((descriptorOf q).readable = true ↔ q.toNat / 2 ^ 41 % 2 = 1) ∧
      ((descriptorOf q).conforming = true ↔ q.toNat / 2 ^ 42 % 2 = 1))

/-- `Canonical`: bits 63 to `VA_BITS - 1` are all equal (20_memory.md R55). -/
def Obligations.CanonicalForm : Prop :=
  ∀ (vaBits : Nat) (a : Word64), 1 ≤ vaBits → vaBits ≤ 64 →
    (canonical vaBits a = true ↔ ∀ k, vaBits - 1 ≤ k → k ≤ 63 → a.getLsbD k = a.getLsbD 63)

/-- `Linear` (20_memory.md R52): base plus offset modulo 2^32; in `Long64` modulo 2^64 with the base of FS or GS, and the
offset itself through the others. That the further bytes of an access wrap the same way is the model's choice (log 26). -/
def Obligations.LinearRule : Prop :=
  ∀ (s : State) (n : SegName) (off : Word64) (k : Nat),
    (s.mode ≠ .long64 →
      (s.linear n off).toNat = ((s.seg n).hidden.base.toNat + off.toNat) % 2 ^ 32 ∧
      (s.linAt (s.linear n off) k).toNat = ((s.seg n).hidden.base.toNat + off.toNat + k) % 2 ^ 32) ∧
    (s.mode = .long64 → n = .fs ∨ n = .gs →
      (s.linear n off).toNat = ((s.seg n).hidden.base.toNat + off.toNat) % 2 ^ 64) ∧
    (s.mode = .long64 → n ≠ .fs → n ≠ .gs → (s.linear n off).toNat = off.toNat) ∧
    (s.mode = .long64 → (s.linAt (s.linear n off) k).toNat = ((s.linear n off).toNat + k) % 2 ^ 64)

/-- `InLimit` (20_memory.md R54), in untruncated arithmetic: every byte at or below the limit, and in an expand-down data
segment every byte above it and at or below the top its B flag gives. -/
def Obligations.LimitRule : Prop :=
  ∀ (h : Hidden) (off n : Nat),
    (¬ (h.attr.kind = .data ∧ h.attr.expandDown = true) →
      (inLimit h off n = true ↔ off + n - 1 ≤ h.limit.toNat) ∧
      (0 < n → (inLimit h off n = true ↔ ∀ k < n, off + k ≤ h.limit.toNat))) ∧
    (h.attr.kind = .data → h.attr.expandDown = true →
      (inLimit h off n = true ↔ h.limit.toNat < off ∧ off + n - 1 ≤ if h.attr.db = true then 2 ^ 32 - 1 else 2 ^ 16 - 1) ∧
      (0 < n → (inLimit h off n = true ↔
        ∀ k < n, h.limit.toNat < off + k ∧ off + k ≤ if h.attr.db = true then 2 ^ 32 - 1 else 2 ^ 16 - 1)))

/-- `Writable` (20_memory.md R56): never CS, and otherwise a writable data segment; in `Prot` and `Compat` a write to another
segment raises #GP(0), and in `Real`, `V86` and `Long64` a write is checked as a read is. -/
def Obligations.WritableRule : Prop :=
  ∀ (s : State) (n : SegName) (off : Word64) (len : Nat),
    (s.writable n = true ↔
      n ≠ .cs ∧ (s.seg n).hidden.attr.kind = .data ∧ (s.seg n).hidden.attr.writable = true) ∧
    (s.mode = .prot ∨ s.mode = .compat → s.writable n = false → s.checkFault n off len .write = some (.gp 0)) ∧
    (s.mode = .real ∨ s.mode = .v86 ∨ s.mode = .long64 →
      s.checkFault n off len .write = s.checkFault n off len .read)

/-- A value stored at distinct bytes is read back little-endian (20_memory.md R51, R61). -/
def Obligations.StoreThenLoad : Prop :=
  ∀ (m : Memory) (ps : List Nat) (v : Word64), m.wf = true → ps.Nodup → ps.length ≤ 8 →
    ((m.writeAll (ps.zip (leBytes ps.length v))).value ps).toNat = v.toNat % 2 ^ (8 * ps.length)

/-! ### One step -/

/-- The instruction whose bytes stand at `rip` is the one that runs (30_encoding.md R105, 70_reset_and_hazards.md R208).
The byte offset in the program is how far `rip` is past the program's base, modulo the width of `rip`. -/
def Obligations.StepRunsDecoded : Prop :=
  ∀ (s : State) (k : Nat) (i : Instr) (rest : List Byte),
    k < s.prog.bytes.length →
    (s.rip.toNat + 2 ^ 64 - s.prog.base.toNat) % 2 ^ (if s.mode = .long64 then 64 else 32) = k →
    decode s.ctx (s.prog.bytes.drop k) = .ok (i, rest) → step s = exec i s

/-- Just past the last byte of the program `step` is refused as the end of the run. 70_reset_and_hazards.md R208 calls that
state final and sets it apart from a refusal; that the step there answers a refusal, named `endOfProgram`, is the model's
choice (log 5). -/
def Obligations.StepEndsAfterProgram : Prop :=
  ∀ s : State,
    (s.rip.toNat + 2 ^ 64 - s.prog.base.toNat) % 2 ^ (if s.mode = .long64 then 64 else 32) = s.prog.bytes.length →
    step s = .refused .endOfProgram

/-! ### Completion and results -/

/-- POP r16, POP r32, POP r64, and POP r/m16, POP r/m32, POP r/m64 with a register (`popR16`, `popR32`, `popR64`,
`popRm16`, `popRm32`, `popRm64`) complete when the top of the stack can be read: the register holds the little-endian
value read there, the stack pointer is advanced, and nothing else changes but `rip` and `ss_inhibit`
(40_pop_general.md R120, R121, R122 to R127). The stack pointer as destination is `PopIntoStackPointer`. -/
def Obligations.PopRegisterCompletes : Prop :=
  ∀ (i : Instr) (r : Reg) (s : State) (ps : List Nat),
    i.regDest = some r → s.Runs i → s.StackReadable (i.width s.ctx) ps →
    ∃ t, exec i s = .next t ∧ PoppedIntoReg s t (i.width s.ctx) r (leNat (ps.map s.mem.read)) i.len

/-- POP r/m16, POP r/m32, POP r/m64 with a memory destination (`popRm16`, `popRm32`, `popRm64`) complete when the top of
the stack can be read and the destination can be written: the bytes read are stored at the destination, whose address is
computed by the model's `State.destAddr`, and nothing else changes but the stack pointer, `rip` and `ss_inhibit`
(40_pop_general.md R129, R122 to R124). Where two of the destination's bytes have one physical address, one of the bytes
stored there stands there; that it may be either is the model's choice (log 35). Where a 16-bit stack pointer wraps and
register 4 is the base, R130's default is to refuse, and that the POP completes, at a free location, is the model's choice
(log 7). -/
def Obligations.PopMemoryCompletes : Prop :=
  ∀ (i : Instr) (m : Mem) (s : State) (ps qs : List Nat),
    i.memDest = some m → s.Runs i → s.StackReadable (i.width s.ctx) ps →
    s.DestWritable i.prefixes m (i.width s.ctx) i.len qs →
    ∃ t, exec i s = .next t ∧ PoppedIntoMem s t (i.width s.ctx) ps qs i.len

/-- In `Real`, every segment-register row with bytes there (`popDs`, `popEs`, `popSs`, `popFs16`, `popFs32`, `popGs16`,
`popGs32`) completes when the top of the stack can be read, with no check on the selector: the base is the selector times
16, the limit and the attributes stay, and the register is usable (41_pop_segment.md R141, R148). That the accessed bit, which
41_pop_segment.md R147 leaves out of the attributes, stays with them is the model's choice (log 34). -/
def Obligations.RealModeSegmentLoad : Prop :=
  ∀ (i : Instr) (n : SegName) (s : State) (ps : List Nat),
    i.segDest = some n → s.mode = .real → s.Runs i → s.StackReadable (i.width s.ctx) ps →
    ∃ t, exec i s = .next t ∧ PoppedIntoSeg s t n (i.width s.ctx) (s.poppedSelector ps) i.len ∧ t.mem = s.mem ∧
      (t.seg n).hidden.base.toNat = (s.poppedSelector ps).toNat * 16 ∧
      (t.seg n).hidden.limit = (s.seg n).hidden.limit ∧
      (t.seg n).hidden.attr = { (s.seg n).hidden.attr with unusable := false }

/-- In `V86`, every segment-register row with bytes there completes when the top of the stack can be read, with no check
on the selector: the base is the selector times 16, the limit FFFFH, the segment writable data of DPL 3 with `db = 0`
(41_pop_segment.md R141, R148). -/
def Obligations.VirtualModeSegmentLoad : Prop :=
  ∀ (i : Instr) (n : SegName) (s : State) (ps : List Nat),
    i.segDest = some n → s.mode = .v86 → s.Runs i → s.StackReadable (i.width s.ctx) ps →
    ∃ t, exec i s = .next t ∧ PoppedIntoSeg s t n (i.width s.ctx) (s.poppedSelector ps) i.len ∧ t.mem = s.mem ∧
      (t.seg n).hidden.base.toNat = (s.poppedSelector ps).toNat * 16 ∧
      (t.seg n).hidden.limit = 0xFFFF ∧
      (t.seg n).hidden.attr.kind = .data ∧ (t.seg n).hidden.attr.writable = true ∧
      (t.seg n).hidden.attr.present = true ∧ (t.seg n).hidden.attr.expandDown = false ∧
      (t.seg n).hidden.attr.dpl = 3 ∧ (t.seg n).hidden.attr.db = false ∧ (t.seg n).hidden.attr.unusable = false

/-- A NULL selector is loaded into DS, ES, FS or GS with no check and no table read, in `Prot`, `Compat` and (FS, GS)
`Long64` (`popDs`, `popEs`, `popFs16`, `popFs32`, `popFs64`, `popGs16`, `popGs32`, `popGs64`): the selector is kept as
popped and the register is unusable; the rest of its hidden part is free (41_pop_segment.md R144, 10_state.md R41; log 9). -/
def Obligations.NullSelectorLoad : Prop :=
  ∀ (i : Instr) (n : SegName) (s : State) (ps : List Nat),
    i.segDest = some n → n ≠ .ss → s.mode ≠ .real → s.mode ≠ .v86 → s.Runs i →
    s.StackReadable (i.width s.ctx) ps → (s.poppedSelector ps).toNat ≤ 3 →
    ∃ t, exec i s = .next t ∧ PoppedIntoSeg s t n (i.width s.ctx) (s.poppedSelector ps) i.len ∧ t.mem = s.mem ∧
      (t.seg n).hidden.attr.unusable = true

/-- A selector that is not NULL is loaded into DS, ES, FS or GS, in `Prot`, `Compat` and (FS, GS) `Long64` (`popDs`,
`popEs`, `popFs16`, `popFs32`, `popFs64`, `popGs16`, `popGs32`, `popGs64`), when its descriptor is found and passes the
tests: the hidden part has every field of the descriptor, and memory is as before but for the descriptor's accessed bit
(41_pop_segment.md R143, R146, R147, R148; log 10, log 14). That the hidden part's accessed bit is set where the descriptor's
was, a clause of `HoldsDescriptor` that R147 does not give, is the model's choice (log 34); so is the value, false, of a
property that the descriptor's kind gives no meaning (log 36). -/
def Obligations.DataSegmentLoad : Prop :=
  ∀ (i : Instr) (n : SegName) (s : State) (ps : List Nat) (d : Descriptor) (byte5 : Nat),
    i.segDest = some n → n ≠ .ss → s.mode ≠ .real → s.mode ≠ .v86 → s.Runs i →
    s.StackReadable (i.width s.ctx) ps → 3 < (s.poppedSelector ps).toNat →
    s.FindsDescriptor (s.poppedSelector ps) d byte5 → s.AcceptsData (s.poppedSelector ps) d → d.present = true →
    (d.accessed = false → s.inText byte5 = false) →
    ∃ t, exec i s = .next t ∧ PoppedIntoSeg s t n (i.width s.ctx) (s.poppedSelector ps) i.len ∧
      HoldsDescriptor (t.seg n).hidden d ∧ AccessedBitOnly s t byte5

/-- POP SS (`popSs`) in `Prot` and `Compat` completes when the selector's descriptor is found and passes the tests: SS
holds the descriptor, the inhibition is set, the stack pointer was advanced at the old stack-address size, and the new
one is the new segment's (41_pop_segment.md R145, R147, R148, R149, R152; log 10). That the hidden part's accessed bit is
set where the descriptor's was, a clause of `HoldsDescriptor` that R147 does not give, is the model's choice (log 34); so is
the value, false, of a property that the descriptor's kind gives no meaning (log 36). -/
def Obligations.StackSegmentLoad : Prop :=
  ∀ (p : Prefixes) (s : State) (ps : List Nat) (d : Descriptor) (byte5 : Nat),
    s.protected = true → s.Runs (.popSs p) → s.StackReadable (operandSize s.ctx p) ps →
    3 < (s.poppedSelector ps).toNat → s.FindsDescriptor (s.poppedSelector ps) d byte5 →
    s.AcceptsStack (s.poppedSelector ps) d → d.present = true → (d.accessed = false → s.inText byte5 = false) →
    ∃ t, exec (.popSs p) s = .next t ∧
      PoppedIntoSeg s t .ss (operandSize s.ctx p) (s.poppedSelector ps) (Instr.popSs p).len ∧
      HoldsDescriptor (t.seg .ss).hidden d ∧ AccessedBitOnly s t byte5 ∧
      t.stackAddrSize = if d.db = true then .w32 else .w16

/-- POP into register 4 and into register 12 (40_pop_general.md R128), by every row with a register destination. The value
is read at the old top of the stack. Into register 4: with equal operand and stack-address sizes the pointer ends equal to
the value popped; with operand size 16 and a wider pointer its low 16 bits are the value and the bits above are those of the
incremented pointer; with operand size 16 on a 16-bit stack bits 63:16 are kept; with operand size 32 and a 16-bit
pointer ESP ends equal to the value. Register 12 is not the stack pointer: it takes the value and the pointer is advanced. -/
def Obligations.PopIntoStackPointer : Prop :=
  ∀ (i : Instr) (r : Reg) (s : State) (ps : List Nat),
    i.regDest = some r → s.Runs i → s.StackReadable (i.width s.ctx) ps →
    ∃ t, exec i s = .next t ∧
      (r = rsp → i.width s.ctx = s.stackAddrSize → t.stackPointer.toNat = leNat (ps.map s.mem.read)) ∧
      (r = rsp → i.width s.ctx = .w16 → s.stackAddrSize ≠ .w16 →
        (t.x rsp).toNat % 2 ^ 16 = leNat (ps.map s.mem.read) ∧
        (t.x rsp).toNat % 2 ^ s.stackAddrSize.bits / 2 ^ 16 =
          (s.stackPointer.toNat + 2) % 2 ^ s.stackAddrSize.bits / 2 ^ 16) ∧
      (r = rsp → i.width s.ctx = .w16 → s.stackAddrSize = .w16 →
        (t.x rsp).toNat / 2 ^ 16 = (s.x rsp).toNat / 2 ^ 16) ∧
      (r = rsp → i.width s.ctx = .w32 → s.stackAddrSize = .w16 →
        (t.x rsp).toNat % 2 ^ 32 = leNat (ps.map s.mem.read)) ∧
      (r = 12 → (t.readReg (i.width s.ctx) 12).toNat = leNat (ps.map s.mem.read) ∧ StackAdvanced s t (i.width s.ctx))

/-! ### Memory destinations -/

/-- A destination addressed through the stack pointer uses the incremented pointer (40_pop_general.md R129, R130): at
64 bits; at 32 bits, under a stack pointer of 32 or 64 bits; on a 16-bit stack under 32-bit addresses without a carry,
the upper half being kept; and with a carry, with an index or without, at the free location `WrapWriteLoc`, a function of
register 4 before the POP, the increment, and the address that the pointer with its upper half kept gives (log 7). -/
def Obligations.StackBasedDestination : Prop :=
  ∀ (s : State) (p : Prefixes) (sc : BitVec 2) (ix : Option Reg) (d : Disp32) (w : Width) (len : Nat),
    (s.mode = .long64 → addrSize s.ctx p = .w64 →
      s.destAddr p (.sib sc none rsp d) w len = s.x rsp + BitVec.ofNat 64 w.bytes + dispValue32 d) ∧
    (s.stackAddrSize ≠ .w16 → addrSize s.ctx p = .w32 →
      (s.destAddr p (.sib sc none rsp d) w len).toNat =
        ((s.x rsp).toNat + w.bytes + (dispValue32 d).toNat) % 2 ^ 32) ∧
    (s.stackAddrSize = .w16 → addrSize s.ctx p = .w32 → (s.x rsp).toNat % 2 ^ 16 + w.bytes < 2 ^ 16 →
      (s.destAddr p (.sib sc none rsp d) w len).toNat =
        ((s.x rsp).toNat + w.bytes + (dispValue32 d).toNat) % 2 ^ 32) ∧
    (s.stackAddrSize = .w16 → addrSize s.ctx p = .w32 → 2 ^ 16 ≤ (s.x rsp).toNat % 2 ^ 16 + w.bytes →
      s.destAddr p (.sib sc ix rsp d) w len =
        (Config.wrapWriteLoc (s.x rsp) w.bytes
          (BitVec.ofInt 64 ((s.addressReg w rsp + s.scaledIndex w sc ix + d.int) % 2 ^ 32))).setWidth 64)

/-- In `Long64` a destination given by a displacement alone is relative to the next instruction (30_encoding.md R102). -/
def Obligations.RipRelativeDestination : Prop :=
  ∀ (s : State) (p : Prefixes) (a : Word32) (w : Width) (len : Nat), s.mode = .long64 →
    (s.destAddr p (.disp32 a) w len).toNat =
      (s.rip.toNat + len + (a.signExtend 64).toNat) % 2 ^ (addrSize s.ctx p).bits

/-- The 16-bit address table (30_encoding.md R99): base and index registers plus displacement, modulo 2^16. BX is
register 3, BP 5, SI 6, DI 7. -/
def Obligations.AddressTable16 : Prop :=
  ∀ (s : State) (p : Prefixes) (d : Disp16) (a : Word16) (w : Width) (len : Nat),
    ((s.destAddr p (.base16 .bxSi d) w len).toNat : Int) = ((s.x 3).toNat + (s.x 6).toNat + d.int) % 2 ^ 16 ∧
    ((s.destAddr p (.base16 .bxDi d) w len).toNat : Int) = ((s.x 3).toNat + (s.x 7).toNat + d.int) % 2 ^ 16 ∧
    ((s.destAddr p (.base16 .bpSi d) w len).toNat : Int) = ((s.x 5).toNat + (s.x 6).toNat + d.int) % 2 ^ 16 ∧
    ((s.destAddr p (.base16 .bpDi d) w len).toNat : Int) = ((s.x 5).toNat + (s.x 7).toNat + d.int) % 2 ^ 16 ∧
    ((s.destAddr p (.base16 .si d) w len).toNat : Int) = ((s.x 6).toNat + d.int) % 2 ^ 16 ∧
    ((s.destAddr p (.base16 .di d) w len).toNat : Int) = ((s.x 7).toNat + d.int) % 2 ^ 16 ∧
    ((s.destAddr p (.base16 .bp d) w len).toNat : Int) = ((s.x 5).toNat + d.int) % 2 ^ 16 ∧
    ((s.destAddr p (.base16 .bx d) w len).toNat : Int) = ((s.x 3).toNat + d.int) % 2 ^ 16 ∧
    (s.destAddr p (.disp16 a) w len).toNat = a.toNat

/-- The 32-bit and 64-bit addresses (30_encoding.md R100 to R102; 40_pop_general.md R129): base register, index register
times scale, and displacement, modulo 2^32 or 2^64, register 4 read after the increment. Left out is the wrap of a 16-bit
stack pointer under register 4 as SIB base, whose location is free (R130; `StackBasedDestination`, log 7). -/
def Obligations.AddressTable32 : Prop :=
  ∀ (s : State) (p : Prefixes) (sc : BitVec 2) (ix : Option Reg) (r : Reg) (d : Disp32) (a : Word32) (w : Width) (len : Nat),
    addrSize s.ctx p ≠ .w16 →
    ((s.destAddr p (.base r d) w len).toNat : Int) = (s.addressReg w r + d.int) % 2 ^ (addrSize s.ctx p).bits ∧
    (s.mode = .long64 →
      ((s.destAddr p (.disp32 a) w len).toNat : Int) = (s.rip.toNat + len + a.toInt) % 2 ^ (addrSize s.ctx p).bits) ∧
    (s.mode ≠ .long64 → (s.destAddr p (.disp32 a) w len).toNat = a.toNat) ∧
    (¬ (r = rsp ∧ s.stackWraps w) →
      ((s.destAddr p (.sib sc ix r d) w len).toNat : Int) =
        (s.addressReg w r + s.scaledIndex w sc ix + d.int) % 2 ^ (addrSize s.ctx p).bits) ∧
    ((s.destAddr p (.sibNoBase sc ix a) w len).toNat : Int) =
      (s.scaledIndex w sc ix + a.toInt) % 2 ^ (addrSize s.ctx p).bits

/-- The segment of a memory destination (30_encoding.md R87, R99, R103): an override that acts replaces the default,
which is SS when BP, ESP, EBP, RSP or RBP is the base and DS otherwise; in `Long64` only FS and GS overrides act. -/
def Obligations.DestinationSegment : Prop :=
  ∀ (s : State) (p : Prefixes) (m : Mem) (n : SegName),
    (p.segs = [] → s.memSeg p m = defaultSeg m) ∧
    (p.segs = [n] → (s.mode ≠ .long64 ∨ n = .fs ∨ n = .gs) → s.memSeg p m = n) ∧
    (p.segs = [n] → s.mode = .long64 → n ≠ .fs → n ≠ .gs → s.memSeg p m = defaultSeg m) ∧
    (defaultSeg m = .ss ∨ defaultSeg m = .ds) ∧
    (defaultSeg m = .ss ↔
      (∃ d, m = .base16 .bpSi d ∨ m = .base16 .bpDi d ∨ m = .base16 .bp d) ∨
      (∃ r d, (r = 4 ∨ r = 5) ∧ (m = .base r d ∨ ∃ sc ix, m = .sib sc ix r d)))

/-! ### Exceptions -/

/-- A LOCK prefix (F0H) anywhere among the prefixes raises #UD, in every mode and for every form (30_encoding.md R86). -/
def Obligations.LockRaisesInvalidOpcode : Prop :=
  legacyOfByte 0xF0 = some .lock ∧
    ∀ (i : Instr) (s : State), WellFormed s.ctx i → .lock ∈ i.prefixes.legacy → exec i s = .fault (.invalidOpcode s)

/-- #UD (30_encoding.md R106): any POP with a LOCK prefix, in every mode and for every form; and 1FH, 07H and 17H in
`Long64`. -/
def Obligations.InvalidOpcodeCases : Prop :=
  ∀ (i : Instr) (s : State), WellFormed s.ctx i →
    (i.prefixes.has .lock = true ∨ (i.invalidIn64 = true ∧ s.mode = .long64)) →
    exec i s = .fault (.invalidOpcode s)

/-- The stack read of every POP (20_memory.md R58, R59, R60; 60_exceptions.md R176): outside the SS limit, or in `Long64`
at a non-canonical address, #SS with code 0, in `Real` without a code. Where other exceptions apply too, that this one is
reported is the spec's choice of an order (60_exceptions.md R178; log 13); that a segment destination checks the bytes above
the second is the spec's choice (D15, log 21), and so is #SS in `Real` and `V86` (D23, log 23). -/
def Obligations.StackOutsideSegment : Prop :=
  ∀ (i : Instr) (s : State), s.Runs i →
    (s.mode ≠ .long64 → inLimit (s.seg .ss).hidden s.stackPointer.toNat (i.width s.ctx).bytes = false →
      exec i s = .fault (.stackFault (if s.mode = .real then none else some 0) s)) ∧
    (s.mode = .long64 →
      (∃ k < (i.width s.ctx).bytes, canonical s.plat.vaBits (s.x rsp + BitVec.ofNat 64 k) = false) →
      exec i s = .fault (.stackFault (some 0) s))

/-- The stack read of every POP, when its segment checks pass, is refused where it runs past the top of the offset space
(20_memory.md R71). -/
def Obligations.StackStraddleRefused : Prop :=
  ∀ (i : Instr) (s : State), s.Runs i →
    (s.mode ≠ .long64 → inLimit (s.seg .ss).hidden s.stackPointer.toNat (i.width s.ctx).bytes = true) →
    (s.mode = .long64 →
      ∀ k < (i.width s.ctx).bytes, canonical s.plat.vaBits (s.x rsp + BitVec.ofNat 64 k) = true) →
    2 ^ s.stackAddrSize.bits < s.stackPointer.toNat + (i.width s.ctx).bytes →
    exec i s = .refused .straddlesOffsetSpace

/-- The stack read of every POP, when its segment checks pass, raises #AC(0) if alignment checking is enabled and both its
linear address and its offset are unaligned (20_memory.md R57; where they disagree the test is free, log 11). Where other
exceptions apply too, that this one is reported is the spec's choice of an order (60_exceptions.md R178; log 13); that a
segment destination reads the bytes above the second is the spec's choice (D15, log 21). -/
def Obligations.StackUnaligned : Prop :=
  ∀ (i : Instr) (s : State), s.Runs i →
    (s.mode ≠ .long64 → inLimit (s.seg .ss).hidden s.stackPointer.toNat (i.width s.ctx).bytes = true) →
    (s.mode = .long64 →
      ∀ k < (i.width s.ctx).bytes, canonical s.plat.vaBits (s.x rsp + BitVec.ofNat 64 k) = true) →
    s.stackPointer.toNat + (i.width s.ctx).bytes ≤ 2 ^ s.stackAddrSize.bits →
    s.cr0.getLsbD 18 = true → s.rflags.getLsbD 18 = true → s.cpl = 3 →
    (s.linear .ss s.stackPointer).toNat % (i.width s.ctx).bytes ≠ 0 →
    s.stackPointer.toNat % (i.width s.ctx).bytes ≠ 0 →
    exec i s = .fault (.alignmentCheck (some 0) s)

/-- The stack read of every POP, when its segment checks pass, raises #PF with the code of `Translate` and the linear
address of the first byte it refuses, which CR2 records (20_memory.md R61, R62; 60_exceptions.md R179; log 12). Where other
exceptions apply too, that this one is reported is the spec's choice of an order (R178; log 13); that a segment destination
reads the bytes above the second is the spec's choice (D15, log 21). -/
def Obligations.StackPageFault : Prop :=
  ∀ (i : Instr) (s : State) (k : Nat) (code : Word32), s.Runs i →
    (s.mode ≠ .long64 → inLimit (s.seg .ss).hidden s.stackPointer.toNat (i.width s.ctx).bytes = true) →
    (s.mode = .long64 →
      ∀ j < (i.width s.ctx).bytes, canonical s.plat.vaBits (s.x rsp + BitVec.ofNat 64 j) = true) →
    s.stackPointer.toNat + (i.width s.ctx).bytes ≤ 2 ^ s.stackAddrSize.bits →
    (s.alignCheckEnabled = true →
      unaligned (s.linear .ss s.stackPointer) s.stackPointer (i.width s.ctx).bytes = false) →
    k < (i.width s.ctx).bytes →
    (∀ j < k, ∃ phys, s.translate .read s.priv (s.linAt (s.linear .ss s.stackPointer) j) = .ok phys) →
    s.translate .read s.priv (s.linAt (s.linear .ss s.stackPointer) k) = .error code →
    exec i s = .fault (.pageFault (some code) (s.linAt (s.linear .ss s.stackPointer) k)
      { s with cr2 := s.linAt (s.linear .ss s.stackPointer) k })

/-- The memory destination of POP r/m16, r/m32, r/m64, the top of the stack being readable (20_memory.md R56, R59, R60):
in `Prot` and `Compat`, #GP(0) through DS, ES, FS or GS holding a NULL selector, and in a segment that is not writable;
outside the limit, #SS through SS and #GP through the others, without a code in `Real`. Where #AC or #PF of the same write
applies too, that this one is reported is the spec's choice of an order (60_exceptions.md R178; log 13); #SS in `Real` and
`V86` is the spec's choice (D23, log 23). -/
def Obligations.DestinationChecks : Prop :=
  ∀ (i : Instr) (m : Mem) (s : State) (ps : List Nat),
    i.memDest = some m → s.Runs i → s.StackReadable (i.width s.ctx) ps → s.mode ≠ .long64 →
    (s.protected = true → s.memSeg i.prefixes m ≠ .ss →
      (s.seg (s.memSeg i.prefixes m)).hidden.attr.unusable = true →
      exec i s = .fault (.generalProtection (some 0) s)) ∧
    (s.protected = true → s.writable (s.memSeg i.prefixes m) = false →
      exec i s = .fault (.generalProtection (some 0) s)) ∧
    ((s.protected = true → s.writable (s.memSeg i.prefixes m) = true) →
      (s.protected = true → s.memSeg i.prefixes m ≠ .ss →
        (s.seg (s.memSeg i.prefixes m)).hidden.attr.unusable = false) →
      inLimit (s.seg (s.memSeg i.prefixes m)).hidden
        (s.destAddr i.prefixes m (i.width s.ctx) i.len).toNat (i.width s.ctx).bytes = false →
      exec i s = .fault (if s.memSeg i.prefixes m = .ss
        then .stackFault (if s.mode = .real then none else some 0) s
        else .generalProtection (if s.mode = .real then none else some 0) s))

/-- The memory destination in `Long64`, the top of the stack being readable: a non-canonical address raises #SS(0) through
SS, which 60_exceptions.md R176 marks as supplied, and #GP(0) through the others (20_memory.md R55, R59; 60_exceptions.md
R175). Where #AC or #PF of the same write applies too, that this one is reported is the spec's choice of an order (R178; log 13). -/
def Obligations.DestinationNonCanonical : Prop :=
  ∀ (i : Instr) (m : Mem) (s : State) (ps : List Nat),
    i.memDest = some m → s.Runs i → s.StackReadable (i.width s.ctx) ps → s.mode = .long64 →
    (∃ k < (i.width s.ctx).bytes, canonical s.plat.vaBits
      (s.linear (s.memSeg i.prefixes m) (s.destAddr i.prefixes m (i.width s.ctx) i.len) + BitVec.ofNat 64 k) = false) →
    exec i s = .fault (if s.memSeg i.prefixes m = .ss then .stackFault (some 0) s else .generalProtection (some 0) s)

/-- A memory destination, the top of the stack being readable and the checks of the write passed, is refused where it runs
past the top of the offset space, whose width is the address size (20_memory.md R71). -/
def Obligations.DestinationStraddleRefused : Prop :=
  ∀ (i : Instr) (m : Mem) (s : State) (ps : List Nat),
    i.memDest = some m → s.Runs i → s.StackReadable (i.width s.ctx) ps →
    s.PassesCheck (s.memSeg i.prefixes m) (s.destAddr i.prefixes m (i.width s.ctx) i.len) (i.width s.ctx).bytes .write →
    2 ^ (addrSize s.ctx i.prefixes).bits <
      (s.destAddr i.prefixes m (i.width s.ctx) i.len).toNat + (i.width s.ctx).bytes →
    exec i s = .refused .straddlesOffsetSpace

/-- A memory destination, the top of the stack being readable and the checks of the write passed, raises #AC(0) if alignment
checking is enabled and both its linear address and its offset are unaligned (20_memory.md R57, R59; where they disagree the
test is free, log 11). Where #PF of the same write applies too, that this one is reported is the spec's choice of an order
(60_exceptions.md R178; log 13). -/
def Obligations.DestinationUnaligned : Prop :=
  ∀ (i : Instr) (m : Mem) (s : State) (ps : List Nat),
    i.memDest = some m → s.Runs i → s.StackReadable (i.width s.ctx) ps →
    s.PassesCheck (s.memSeg i.prefixes m) (s.destAddr i.prefixes m (i.width s.ctx) i.len) (i.width s.ctx).bytes .write →
    (s.destAddr i.prefixes m (i.width s.ctx) i.len).toNat + (i.width s.ctx).bytes ≤
      2 ^ (addrSize s.ctx i.prefixes).bits →
    s.cr0.getLsbD 18 = true → s.rflags.getLsbD 18 = true → s.cpl = 3 →
    (s.linear (s.memSeg i.prefixes m) (s.destAddr i.prefixes m (i.width s.ctx) i.len)).toNat % (i.width s.ctx).bytes ≠ 0 →
    (s.destAddr i.prefixes m (i.width s.ctx) i.len).toNat % (i.width s.ctx).bytes ≠ 0 →
    exec i s = .fault (.alignmentCheck (some 0) s)

/-- A memory destination, the top of the stack being readable and every earlier check of the write passed, raises #PF with the
code of `Translate` and the linear address of the first byte it refuses as a write; no byte is written (20_memory.md R61, R62).
That CR2 records the address is from 60_exceptions.md R179 (log 12). -/
def Obligations.DestinationPageFault : Prop :=
  ∀ (i : Instr) (m : Mem) (s : State) (ps : List Nat) (lin : Word64) (k : Nat) (code : Word32),
    i.memDest = some m → s.Runs i → s.StackReadable (i.width s.ctx) ps →
    s.PassesCheck (s.memSeg i.prefixes m) (s.destAddr i.prefixes m (i.width s.ctx) i.len) (i.width s.ctx).bytes .write →
    (s.destAddr i.prefixes m (i.width s.ctx) i.len).toNat + (i.width s.ctx).bytes ≤
      2 ^ (addrSize s.ctx i.prefixes).bits →
    lin = s.linear (s.memSeg i.prefixes m) (s.destAddr i.prefixes m (i.width s.ctx) i.len) →
    (s.alignCheckEnabled = true →
      unaligned lin (s.destAddr i.prefixes m (i.width s.ctx) i.len) (i.width s.ctx).bytes = false) →
    k < (i.width s.ctx).bytes →
    (∀ j < k, ∃ phys, s.translate .write s.priv (s.linAt lin j) = .ok phys) →
    s.translate .write s.priv (s.linAt lin k) = .error code →
    exec i s = .fault (.pageFault (some code) (s.linAt lin k) { s with cr2 := s.linAt lin k })

/-- A write that touches a byte of the program is refused (20_memory.md R68): of a memory destination that could be written;
and of the accessed bit, where it is clear in a descriptor that a segment load accepts and its byte is the program's. Which
physical bytes are the program's is the model's choice where `Translate` maps its linear addresses two ways (log 5); so is
the refusal where the bit need not be set (log 10). -/
def Obligations.ProgramWriteRefused : Prop :=
  (∀ (i : Instr) (m : Mem) (s : State) (ps qs : List Nat),
    i.memDest = some m → s.Runs i → s.StackReadable (i.width s.ctx) ps →
    s.Reaches (s.memSeg i.prefixes m) (s.destAddr i.prefixes m (i.width s.ctx) i.len) (i.width s.ctx).bytes
      (addrSize s.ctx i.prefixes) .write qs →
    (∃ q ∈ qs, s.inText q = true) →
    ∃ q ∈ qs, s.inText q = true ∧ exec i s = .refused (.writeIntoProgramText q)) ∧
  ∀ (i : Instr) (n : SegName) (s : State) (ps : List Nat) (d : Descriptor) (byte5 : Nat),
    i.segDest = some n → s.mode ≠ .real → s.mode ≠ .v86 → s.Runs i → s.StackReadable (i.width s.ctx) ps →
    3 < (s.poppedSelector ps).toNat → s.FindsDescriptor (s.poppedSelector ps) d byte5 →
    (n ≠ .ss → s.AcceptsData (s.poppedSelector ps) d) → (n = .ss → s.AcceptsStack (s.poppedSelector ps) d) →
    d.present = true → d.accessed = false → s.inText byte5 = true →
    exec i s = .refused (.writeIntoProgramText byte5)

/-- The descriptor read of a segment load, the top of the stack being readable, the selector not NULL and its index inside the
table: a supervisor read that raises #PF with the code of `Translate` and the linear address of the first byte it refuses
(10_state.md R31; 20_memory.md R61, R62). It comes before every test on the descriptor, as in 41_pop_segment.md R143 and R145.
Where another exception of the load applies too, as the #GP(selector) of POP SS for an RPL other than CPL, that this one is
reported is the spec's choice of an order (60_exceptions.md R178; log 13). That CR2 records the address is from 60_exceptions.md R179 (log 12). -/
def Obligations.DescriptorPageFault : Prop :=
  ∀ (i : Instr) (n : SegName) (s : State) (ps : List Nat) (base : Word64) (limit : Word32) (k : Nat) (code : Word32),
    i.segDest = some n → s.mode ≠ .real → s.mode ≠ .v86 → s.Runs i → s.StackReadable (i.width s.ctx) ps →
    3 < (s.poppedSelector ps).toNat → s.table (s.poppedSelector ps) = some (base, limit) →
    selIndex (s.poppedSelector ps) * 8 + 7 ≤ limit.toNat → k < 8 →
    (∀ j < k, ∃ phys, s.translate .read .supervisor (s.linAt (s.descLinear base (s.poppedSelector ps)) j) = .ok phys) →
    s.translate .read .supervisor (s.linAt (s.descLinear base (s.poppedSelector ps)) k) = .error code →
    exec i s = .fault (.pageFault (some code) (s.linAt (s.descLinear base (s.poppedSelector ps)) k)
      { s with cr2 := s.linAt (s.descLinear base (s.poppedSelector ps)) k })

/-- Loading DS, ES, FS or GS with a selector that is not NULL, in `Prot`, `Compat` and (FS, GS) `Long64`, the top of the
stack being readable (41_pop_segment.md R143): #GP(selector) when the index is outside the table, and when the descriptor
fails a test (the privilege test is reading B, log 14); #NP(selector) when it passes them and is not present. The code is the
selector with its two low bits cleared (60_exceptions.md R177). That a load that faults leaves the accessed bit, which R181
leaves outside its promise, is the model's choice (log 10). -/
def Obligations.DataSegmentFaults : Prop :=
  ∀ (i : Instr) (n : SegName) (s : State) (ps : List Nat),
    i.segDest = some n → n ≠ .ss → s.mode ≠ .real → s.mode ≠ .v86 → s.Runs i →
    s.StackReadable (i.width s.ctx) ps → 3 < (s.poppedSelector ps).toNat →
    (s.OutsideTable (s.poppedSelector ps) →
      exec i s = .fault (.generalProtection (some (BitVec.ofNat 32 ((s.poppedSelector ps).toNat / 4 * 4))) s)) ∧
    (∀ d byte5, s.FindsDescriptor (s.poppedSelector ps) d byte5 →
      (¬ s.AcceptsData (s.poppedSelector ps) d →
        exec i s = .fault (.generalProtection (some (BitVec.ofNat 32 ((s.poppedSelector ps).toNat / 4 * 4))) s)) ∧
      (s.AcceptsData (s.poppedSelector ps) d → d.present = false →
        exec i s = .fault (.segmentNotPresent (some (BitVec.ofNat 32 ((s.poppedSelector ps).toNat / 4 * 4))) s)))

/-- POP SS in `Prot` and `Compat`, the top of the stack being readable (41_pop_segment.md R145): #GP(0) for a NULL
selector; #GP(selector) when the index is outside the table, and when RPL or DPL differs from CPL or the segment is no
writable data segment; #SS(selector) when it passes them and is not present. That a load that faults leaves the accessed bit,
which 60_exceptions.md R181 leaves outside its promise, is the model's choice (log 10). -/
def Obligations.StackSegmentFaults : Prop :=
  ∀ (p : Prefixes) (s : State) (ps : List Nat),
    s.protected = true → s.Runs (.popSs p) → s.StackReadable (operandSize s.ctx p) ps →
    ((s.poppedSelector ps).toNat ≤ 3 → exec (.popSs p) s = .fault (.generalProtection (some 0) s)) ∧
    (3 < (s.poppedSelector ps).toNat → s.OutsideTable (s.poppedSelector ps) →
      exec (.popSs p) s =
        .fault (.generalProtection (some (BitVec.ofNat 32 ((s.poppedSelector ps).toNat / 4 * 4))) s)) ∧
    (∀ d byte5, 3 < (s.poppedSelector ps).toNat → s.FindsDescriptor (s.poppedSelector ps) d byte5 →
      (¬ s.AcceptsStack (s.poppedSelector ps) d →
        exec (.popSs p) s =
          .fault (.generalProtection (some (BitVec.ofNat 32 ((s.poppedSelector ps).toNat / 4 * 4))) s)) ∧
      (s.AcceptsStack (s.poppedSelector ps) d → d.present = false →
        exec (.popSs p) s =
          .fault (.stackFault (some (BitVec.ofNat 32 ((s.poppedSelector ps).toNat / 4 * 4))) s)))

/-- Exceptions leave no partial effect: general registers, segment registers, `rip`, flags, `ss_inhibit` and memory are
as they were (60_exceptions.md R181), and so is everything else but CR2, which only a page fault writes (R179, log 12). R181
leaves the accessed bit outside its promise; that a load that faults leaves it too is the model's choice (log 10). -/
def Obligations.FaultsArePrecise : Prop :=
  ∀ (i : Instr) (s : State) (f : Fault), exec i s = .fault f →
    f.state = s ∨ ∃ code lin, f = .pageFault code lin { s with cr2 := lin }

/-- In `Real` POP raises #UD, #SS and #GP and nothing else, and no exception has an error code (60_exceptions.md R172,
R176, R177). -/
def Obligations.FaultsOfRealMode : Prop :=
  ∀ (i : Instr) (s : State) (f : Fault), s.mode = .real → exec i s = .fault f →
    f = .invalidOpcode s ∨ f = .stackFault none s ∨ f = .generalProtection none s

/-- In `V86` POP raises #UD, #SS(0), #GP(0), #PF and #AC(0) and nothing else: no exception depends on a selector
(60_exceptions.md R173, R176; 41_pop_segment.md R141). -/
def Obligations.FaultsOfVirtualMode : Prop :=
  ∀ (i : Instr) (s : State) (f : Fault), s.mode = .v86 → exec i s = .fault f →
    f = .invalidOpcode s ∨ f = .stackFault (some 0) s ∨ f = .generalProtection (some 0) s ∨
      f = .alignmentCheck (some 0) s ∨ ∃ code lin, f = .pageFault (some code) lin { s with cr2 := lin }

/-! ### Frames and rules of the whole machine -/

/-- No POP writes a flag, a control register, CPL, a descriptor-table register, the program or a parameter, and none
changes the mode or the privilege level (10_state.md R25, R33, R34; 60_exceptions.md R186). -/
def Obligations.ControlUnchanged : Prop :=
  ∀ (i : Instr) (s t : State), exec i s = .next t → SameControl s t ∧ t.mode = s.mode ∧ t.cpl = s.cpl

/-- The register frame of every POP (10_state.md R38): a general register other than the stack pointer and the destination
is unchanged, and so is a segment register other than the destination; CS is never written (R26). -/
def Obligations.RegisterFrame : Prop :=
  ∀ (i : Instr) (s t : State), exec i s = .next t →
    (∀ q, q ≠ rsp → i.regDest ≠ some q → t.x q = s.x q) ∧
    (∀ n, i.segDest ≠ some n → t.seg n = s.seg n) ∧ t.segs.cs = s.segs.cs

/-- The memory frame of every POP (10_state.md R38). A register destination changes no byte. A memory destination changes
none but those its write reaches, at the address the model computes with `State.destAddr`. A segment destination changes
none but byte 5 of the descriptor its selector points to, and none in `Real`, in `V86`, or for a NULL selector
(41_pop_segment.md R141, R144, R147; log 10). -/
def Obligations.MemoryFrame : Prop :=
  ∀ (i : Instr) (s t : State), exec i s = .next t →
    (i.memDest = none → i.segDest = none → t.mem = s.mem) ∧
    (∀ m, i.memDest = some m → ∀ qs, s.BytesAt .write s.priv
        (s.linear (s.memSeg i.prefixes m) (s.destAddr i.prefixes m (i.width s.ctx) i.len)) (i.width s.ctx).bytes qs →
      ∀ a, a ∉ qs → t.mem.read a = s.mem.read a) ∧
    (∀ n, i.segDest = some n → s.mode = .real ∨ s.mode = .v86 → t.mem = s.mem) ∧
    (∀ n ps, i.segDest = some n → s.StackReadable (i.width s.ctx) ps → (s.poppedSelector ps).toNat ≤ 3 →
      t.mem = s.mem) ∧
    (∀ n ps d byte5, i.segDest = some n → s.StackReadable (i.width s.ctx) ps →
      s.FindsDescriptor (s.poppedSelector ps) d byte5 → ∀ a, a ≠ byte5 → t.mem.read a = s.mem.read a)

/-- `rip` moves past the instruction, modulo `2^64` in `Long64` and `2^32` elsewhere (10_state.md R24). -/
def Obligations.RipAdvances : Prop :=
  ∀ (i : Instr) (s t : State), exec i s = .next t →
    t.rip.toNat = (s.rip.toNat + (encode i).length) % 2 ^ (if s.mode = .long64 then 64 else 32)

/-- A completed POP SS sets `ss_inhibit` and every other completed POP clears it; while it is set no maskable interrupt
can be delivered at the boundary, and otherwise IF decides (10_state.md R37, 60_exceptions.md R184; log 28). -/
def Obligations.InhibitionAfterPopSs : Prop :=
  ∀ (i : Instr) (s t : State), exec i s = .next t →
    (i.segDest = some .ss → t.ssInhibit = true ∧ t.interruptible = false) ∧
    (i.segDest ≠ some .ss → t.ssInhibit = false ∧ t.interruptible = s.rflags.getLsbD 9)

/-- What a POP does depends on no bit of RFLAGS but AC and VM: with the others changed it goes on to the same state, is
refused the same way, or ends in the same fault, those bits apart (10_state.md R25, R34). IF, the third bit R25 lists, bears
only on what may be delivered at the boundary after a POP (`InhibitionAfterPopSs`); that nothing is delivered there is the
model's choice (log 28). -/
def Obligations.OtherFlagsAreNotRead : Prop :=
  ∀ (i : Instr) (s : State) (f : Word64),
    f.getLsbD 17 = s.rflags.getLsbD 17 → f.getLsbD 18 = s.rflags.getLsbD 18 →
    (∀ t, exec i s = .next t → exec i { s with rflags := f } = .next { t with rflags := f }) ∧
    (∀ r, exec i s = .refused r → exec i { s with rflags := f } = .refused r) ∧
    (∀ e, exec i s = .fault e → exec i { s with rflags := f } = .fault (e.withFlags f))

/-- Every step keeps the invariant of a run (10_state.md R24, R27; 70_reset_and_hazards.md R201). -/
def Obligations.StepKeepsInvariant : Prop :=
  ∀ s t : State, s.Inv → step s = .next t → t.Inv

/-- The state after reset is a launch state (70_reset_and_hazards.md R200, R201). -/
def Obligations.ResetIsLaunch : Prop := State.reset.Launch

end
end

