-- ==== Sys2Proof/Laws/Memory.lean ====
section
/-! SUPPORT. Memory: what a write does to every byte, the canonical form, and little-endian values. -/

namespace Sys2Proof.Machine

/-! ### The canonical form -/

/-- Every cell is above an address and differs from an unlisted byte. -/
def cellsAbove (a : Nat) (cs : List Host.Cell) : Prop := ∀ c ∈ cs, a < c.1

theorem cellsWf_nil : cellsWf [] = true := rfl

theorem cellsWf_cons (c : Host.Cell) (cs : List Host.Cell) :
    cellsWf (c :: cs) = true ↔ cellsAbove c.1 cs ∧ c.2 ≠ unlisted ∧ cellsWf cs = true := by
  simp only [cellsWf, List.pairwise_cons, List.all_cons, Bool.and_eq_true, decide_eq_true_eq, cellsAbove]
  tauto

theorem writeCells_above {b a : Nat} {v : Byte} {cs : List Host.Cell} (hb : b < a) (h : cellsAbove b cs) :
    cellsAbove b (writeCells cs a v) := by
  induction cs with
  | nil =>
    unfold writeCells
    split
    · intro c hc; cases hc
    · intro c hc; simp only [List.mem_singleton] at hc; subst hc; exact hb
  | cons c cs ih =>
    have h1 : b < c.1 := h c (List.mem_cons_self ..)
    have h2 : cellsAbove b cs := fun x hx => h x (List.mem_cons_of_mem _ hx)
    unfold writeCells
    intro x hx
    split at hx
    · split at hx
      · exact h x hx
      · rcases List.mem_cons.mp hx with rfl | hx
        · exact hb
        · exact h x hx
    · split at hx
      · split at hx
        · exact h2 x hx
        · rcases List.mem_cons.mp hx with rfl | hx
          · exact hb
          · exact h2 x hx
      · rcases List.mem_cons.mp hx with rfl | hx
        · exact h1
        · exact ih h2 x hx

/-- A write keeps the canonical form. -/
theorem writeCells_wf {cs : List Host.Cell} (a : Nat) (v : Byte) (h : cellsWf cs = true) :
    cellsWf (writeCells cs a v) = true := by
  induction cs with
  | nil =>
    unfold writeCells
    split
    · rfl
    · rename_i hv; exact (cellsWf_cons _ _).mpr ⟨(fun c hc => nomatch hc), hv, rfl⟩
  | cons c cs ih =>
    obtain ⟨h1, h2, h3⟩ := (cellsWf_cons c cs).mp h
    unfold writeCells
    split
    · rename_i hlt
      split
      · exact h
      · rename_i hv
        refine (cellsWf_cons _ _).mpr ⟨fun x hx => ?_, hv, h⟩
        rcases List.mem_cons.mp hx with rfl | hx
        · exact hlt
        · exact Nat.lt_trans hlt (h1 x hx)
    · rename_i hge
      split
      · rename_i heq
        split
        · exact h3
        · rename_i hv; exact (cellsWf_cons _ _).mpr ⟨fun x hx => heq ▸ h1 x hx, hv, h3⟩
      · rename_i hne
        exact (cellsWf_cons _ _).mpr ⟨writeCells_above (by omega) h1, h2, ih h3⟩

theorem Memory.write_wf {m : Memory} (a : Nat) (v : Byte) (h : m.wf = true) : (m.write a v).wf = true :=
  writeCells_wf a v h

theorem Memory.writeAll_wf {m : Memory} (cs : List (Nat × Byte)) (h : m.wf = true) : (m.writeAll cs).wf = true := by
  induction cs generalizing m with
  | nil => exact h
  | cons c cs ih => exact ih (Memory.write_wf c.1 c.2 h)

/-! ### Reading after writing -/

theorem readCells_above {a : Nat} {cs : List Host.Cell} (h : cellsAbove a cs) : readCells cs a = unlisted := by
  induction cs with
  | nil => rfl
  | cons c cs ih =>
    have h1 : a < c.1 := h c (List.mem_cons_self ..)
    have h2 : c.1 ≠ a := by omega
    simp only [readCells, h2, if_false]
    exact ih fun x hx => h x (List.mem_cons_of_mem _ hx)

theorem readCells_writeCells_self {cs : List Host.Cell} (a : Nat) (v : Byte) (h : cellsWf cs = true) :
    readCells (writeCells cs a v) a = v := by
  induction cs with
  | nil =>
    unfold writeCells
    split
    · rename_i hv; simp [readCells, hv]
    · simp [readCells]
  | cons c cs ih =>
    obtain ⟨h1, h2, h3⟩ := (cellsWf_cons c cs).mp h
    unfold writeCells
    split
    · rename_i hlt
      split
      · rename_i hv
        rw [hv]
        refine readCells_above fun x hx => ?_
        rcases List.mem_cons.mp hx with rfl | hx
        · exact hlt
        · exact Nat.lt_trans hlt (h1 x hx)
      · simp [readCells]
    · split
      · rename_i heq
        split
        · rename_i hv; rw [hv, heq]; exact readCells_above h1
        · simp [readCells]
      · rename_i hge hne
        have : c.1 ≠ a := fun e => hne e.symm
        simp only [readCells, this, if_false]
        exact ih h3

theorem readCells_writeCells_ne (cs : List Host.Cell) {a b : Nat} (v : Byte) (h : b ≠ a) :
    readCells (writeCells cs a v) b = readCells cs b := by
  have ha : a ≠ b := fun e => h e.symm
  induction cs with
  | nil =>
    unfold writeCells
    split
    · rfl
    · simp [readCells, ha]
  | cons c cs ih =>
    unfold writeCells
    split
    · split
      · rfl
      · simp [readCells, ha]
    · split
      · rename_i heq
        have hc : c.1 ≠ b := heq ▸ ha
        split
        · simp [readCells, hc]
        · simp [readCells, ha, hc]
      · simp only [readCells, ih]

@[simp] theorem Memory.read_write_self {m : Memory} (a : Nat) (v : Byte) (h : m.wf = true) :
    (m.write a v).read a = v := readCells_writeCells_self a v h

@[simp] theorem Memory.read_write_ne (m : Memory) {a b : Nat} (v : Byte) (h : b ≠ a) :
    (m.write a v).read b = m.read b := readCells_writeCells_ne m.cells v h

/-- Bytes that are not stored to are as before. -/
theorem Memory.read_writeAll_ne (m : Memory) (cs : List (Nat × Byte)) {b : Nat} (h : ∀ c ∈ cs, c.1 ≠ b) :
    (m.writeAll cs).read b = m.read b := by
  induction cs generalizing m with
  | nil => rfl
  | cons c cs ih =>
    have h1 : b ≠ c.1 := fun e => h c (List.mem_cons_self ..) e.symm
    exact (ih (m.write c.1 c.2) fun x hx => h x (List.mem_cons_of_mem _ hx)).trans (Memory.read_write_ne m c.2 h1)

/-- Bytes stored at distinct addresses are read back. -/
theorem Memory.read_writeAll_mem {m : Memory} (cs : List (Nat × Byte)) (hm : m.wf = true)
    (hd : (cs.map Prod.fst).Nodup) {c : Nat × Byte} (hc : c ∈ cs) : (m.writeAll cs).read c.1 = c.2 := by
  induction cs generalizing m with
  | nil => cases hc
  | cons d cs ih =>
    obtain ⟨hd1, hd2⟩ := List.nodup_cons.mp hd
    rcases List.mem_cons.mp hc with rfl | hc
    · refine (Memory.read_writeAll_ne _ cs fun x hx e => hd1 ?_).trans (Memory.read_write_self c.1 c.2 hm)
      exact e ▸ List.mem_map_of_mem hx
    · exact ih (Memory.write_wf d.1 d.2 hm) hd2 hc

/-- A byte at one of the addresses written is one of those stored there. -/
theorem Memory.read_writeAll_exists {m : Memory} (cs : List (Nat × Byte)) (hm : m.wf = true) {a : Nat}
    (ha : ∃ c ∈ cs, c.1 = a) : ∃ c ∈ cs, c.1 = a ∧ (m.writeAll cs).read a = c.2 := by
  induction cs generalizing m with
  | nil => simp at ha
  | cons d cs ih =>
    by_cases h : ∃ c ∈ cs, c.1 = a
    · obtain ⟨c, h1, h2, h3⟩ := ih (Memory.write_wf d.1 d.2 hm) h
      exact ⟨c, List.mem_cons_of_mem _ h1, h2, h3⟩
    · have hd : d.1 = a := by
        obtain ⟨c, hc, e⟩ := ha
        rcases List.mem_cons.mp hc with rfl | hc
        · exact e
        · exact absurd ⟨c, hc, e⟩ h
      refine ⟨d, List.mem_cons_self .., hd, ?_⟩
      subst hd
      exact (Memory.read_writeAll_ne _ cs fun x hx e => h ⟨x, hx, e⟩).trans (Memory.read_write_self d.1 d.2 hm)

/-- Another order has the same elements. -/
theorem mem_shuffle {α : Type} (place : Nat → Nat) (cs : List α) (c : α) : c ∈ shuffle place cs ↔ c ∈ cs := by
  induction cs with
  | nil => rfl
  | cons d cs ih =>
    rw [shuffle, List.mem_append, List.mem_cons, List.mem_cons, ← ih]
    conv_rhs => rw [← List.take_append_drop (place cs.length) (shuffle place cs), List.mem_append]
    tauto

/-! ### Little-endian values (20_memory.md R51) -/

theorem leNat_lt (bs : List Byte) : leNat bs < 2 ^ (8 * bs.length) := by
  induction bs with
  | nil => simp [leNat]
  | cons b bs ih =>
    have hb := b.isLt
    have : 2 ^ (8 * (b :: bs).length) = 256 * 2 ^ (8 * bs.length) := by
      rw [List.length_cons, Nat.mul_add, Nat.pow_add]; omega
    simp only [leNat]
    omega

/-- Byte `k` of a little-endian number. -/
theorem leNat_byte (bs : List Byte) (k : Nat) : leNat bs / 2 ^ (8 * k) % 256 = (bs.getD k 0).toNat := by
  induction bs generalizing k with
  | nil => simp [leNat]
  | cons b bs ih =>
    have hb := b.isLt
    cases k with
    | zero => simp only [leNat, List.getD_cons_zero]; omega
    | succ k =>
      have : 2 ^ (8 * (k + 1)) = 256 * 2 ^ (8 * k) := by rw [Nat.mul_add, Nat.pow_add]; omega
      rw [this, ← Nat.div_div_eq_div_mul, List.getD_cons_succ, ← ih k]
      congr 2
      simp only [leNat]
      omega

theorem leBytes_length (n : Nat) (v : Word64) : (leBytes n v).length = n := by simp [leBytes]

theorem leBytes_getD (n k : Nat) (v : Word64) (h : k < n) : (leBytes n v).getD k 0 = v.extractLsb' (8 * k) 8 := by
  simp [leBytes, List.getD_eq_getElem?_getD, h]

/-- The value of at most eight bytes, as a number. -/
theorem Memory.value_toNat (m : Memory) (ps : List Nat) (h : ps.length ≤ 8) :
    (m.value ps).toNat = leNat (ps.map m.read) := by
  have h1 := leNat_lt (ps.map m.read)
  rw [List.length_map] at h1
  have h2 : 2 ^ (8 * ps.length) ≤ 2 ^ 64 := Nat.pow_le_pow_right (by omega) (by omega)
  simp only [Memory.value, BitVec.toNat_ofNat]
  exact Nat.mod_eq_of_lt (by omega)

/-- Byte `k` of a value read from memory is the byte at the `k`-th address (20_memory.md R51). -/
theorem Memory.value_byte (m : Memory) (ps : List Nat) (h : ps.length ≤ 8) (k : Nat) (hk : k < ps.length) :
    (m.value ps).extractLsb' (8 * k) 8 = m.read (ps.getD k 0) := by
  apply BitVec.eq_of_toNat_eq
  rw [BitVec.extractLsb'_toNat, Memory.value_toNat m ps h, Nat.shiftRight_eq_div_pow]
  have := leNat_byte (ps.map m.read) k
  rw [this]
  simp [List.getD_eq_getElem?_getD, hk]

end Sys2Proof.Machine
end

