-- ==== Sys2Proof/Laws/State.lean ====
section
/-! SUPPORT. One lemma per field per update of the state, and the register and segment-register views of them. -/

namespace Sys2Proof.Machine


/-! ### `State.setX` -/

@[simp] theorem State.setX_rip (s : State) (r : Reg) (v : Word64) : (s.setX r v).rip = s.rip := rfl
@[simp] theorem State.setX_rflags (s : State) (r : Reg) (v : Word64) : (s.setX r v).rflags = s.rflags := rfl
@[simp] theorem State.setX_segs (s : State) (r : Reg) (v : Word64) : (s.setX r v).segs = s.segs := rfl
@[simp] theorem State.setX_cplField (s : State) (r : Reg) (v : Word64) : (s.setX r v).cplField = s.cplField := rfl
@[simp] theorem State.setX_cr0 (s : State) (r : Reg) (v : Word64) : (s.setX r v).cr0 = s.cr0 := rfl
@[simp] theorem State.setX_cr2 (s : State) (r : Reg) (v : Word64) : (s.setX r v).cr2 = s.cr2 := rfl
@[simp] theorem State.setX_efer (s : State) (r : Reg) (v : Word64) : (s.setX r v).efer = s.efer := rfl
@[simp] theorem State.setX_gdtr (s : State) (r : Reg) (v : Word64) : (s.setX r v).gdtr = s.gdtr := rfl
@[simp] theorem State.setX_ldtr (s : State) (r : Reg) (v : Word64) : (s.setX r v).ldtr = s.ldtr := rfl
@[simp] theorem State.setX_ssInhibit (s : State) (r : Reg) (v : Word64) : (s.setX r v).ssInhibit = s.ssInhibit := rfl
@[simp] theorem State.setX_mem (s : State) (r : Reg) (v : Word64) : (s.setX r v).mem = s.mem := rfl
@[simp] theorem State.setX_prog (s : State) (r : Reg) (v : Word64) : (s.setX r v).prog = s.prog := rfl
@[simp] theorem State.setX_plat (s : State) (r : Reg) (v : Word64) : (s.setX r v).plat = s.plat := rfl
@[simp] theorem State.setX_draws (s : State) (r : Reg) (v : Word64) : (s.setX r v).draws = s.draws := rfl
@[simp] theorem State.setX_regs (s : State) (r : Reg) (v : Word64) : (s.setX r v).regs = s.regs.set r.toNat v r.isLt := rfl

/-! ### `State.writeReg` -/

@[simp] theorem State.writeReg_rip (s : State) (w : Width) (r : Reg) (v : Word64) : (s.writeReg w r v).rip = s.rip := by cases w <;> rfl
@[simp] theorem State.writeReg_rflags (s : State) (w : Width) (r : Reg) (v : Word64) : (s.writeReg w r v).rflags = s.rflags := by cases w <;> rfl
@[simp] theorem State.writeReg_segs (s : State) (w : Width) (r : Reg) (v : Word64) : (s.writeReg w r v).segs = s.segs := by cases w <;> rfl
@[simp] theorem State.writeReg_cplField (s : State) (w : Width) (r : Reg) (v : Word64) : (s.writeReg w r v).cplField = s.cplField := by cases w <;> rfl
@[simp] theorem State.writeReg_cr0 (s : State) (w : Width) (r : Reg) (v : Word64) : (s.writeReg w r v).cr0 = s.cr0 := by cases w <;> rfl
@[simp] theorem State.writeReg_cr2 (s : State) (w : Width) (r : Reg) (v : Word64) : (s.writeReg w r v).cr2 = s.cr2 := by cases w <;> rfl
@[simp] theorem State.writeReg_efer (s : State) (w : Width) (r : Reg) (v : Word64) : (s.writeReg w r v).efer = s.efer := by cases w <;> rfl
@[simp] theorem State.writeReg_gdtr (s : State) (w : Width) (r : Reg) (v : Word64) : (s.writeReg w r v).gdtr = s.gdtr := by cases w <;> rfl
@[simp] theorem State.writeReg_ldtr (s : State) (w : Width) (r : Reg) (v : Word64) : (s.writeReg w r v).ldtr = s.ldtr := by cases w <;> rfl
@[simp] theorem State.writeReg_ssInhibit (s : State) (w : Width) (r : Reg) (v : Word64) : (s.writeReg w r v).ssInhibit = s.ssInhibit := by cases w <;> rfl
@[simp] theorem State.writeReg_mem (s : State) (w : Width) (r : Reg) (v : Word64) : (s.writeReg w r v).mem = s.mem := by cases w <;> rfl
@[simp] theorem State.writeReg_prog (s : State) (w : Width) (r : Reg) (v : Word64) : (s.writeReg w r v).prog = s.prog := by cases w <;> rfl
@[simp] theorem State.writeReg_plat (s : State) (w : Width) (r : Reg) (v : Word64) : (s.writeReg w r v).plat = s.plat := by cases w <;> rfl

/-! ### `State.writeSP` -/

@[simp] theorem State.writeSP_rip (s : State) (s0 : State) (w : Width) : (s.writeSP s0 w).rip = s.rip := by simp [State.writeSP]
@[simp] theorem State.writeSP_rflags (s : State) (s0 : State) (w : Width) : (s.writeSP s0 w).rflags = s.rflags := by simp [State.writeSP]
@[simp] theorem State.writeSP_segs (s : State) (s0 : State) (w : Width) : (s.writeSP s0 w).segs = s.segs := by simp [State.writeSP]
@[simp] theorem State.writeSP_cplField (s : State) (s0 : State) (w : Width) : (s.writeSP s0 w).cplField = s.cplField := by simp [State.writeSP]
@[simp] theorem State.writeSP_cr0 (s : State) (s0 : State) (w : Width) : (s.writeSP s0 w).cr0 = s.cr0 := by simp [State.writeSP]
@[simp] theorem State.writeSP_cr2 (s : State) (s0 : State) (w : Width) : (s.writeSP s0 w).cr2 = s.cr2 := by simp [State.writeSP]
@[simp] theorem State.writeSP_efer (s : State) (s0 : State) (w : Width) : (s.writeSP s0 w).efer = s.efer := by simp [State.writeSP]
@[simp] theorem State.writeSP_gdtr (s : State) (s0 : State) (w : Width) : (s.writeSP s0 w).gdtr = s.gdtr := by simp [State.writeSP]
@[simp] theorem State.writeSP_ldtr (s : State) (s0 : State) (w : Width) : (s.writeSP s0 w).ldtr = s.ldtr := by simp [State.writeSP]
@[simp] theorem State.writeSP_ssInhibit (s : State) (s0 : State) (w : Width) : (s.writeSP s0 w).ssInhibit = s.ssInhibit := by simp [State.writeSP]
@[simp] theorem State.writeSP_mem (s : State) (s0 : State) (w : Width) : (s.writeSP s0 w).mem = s.mem := by simp [State.writeSP]
@[simp] theorem State.writeSP_prog (s : State) (s0 : State) (w : Width) : (s.writeSP s0 w).prog = s.prog := by simp [State.writeSP]
@[simp] theorem State.writeSP_plat (s : State) (s0 : State) (w : Width) : (s.writeSP s0 w).plat = s.plat := by simp [State.writeSP]

/-! ### `State.retire` -/

@[simp] theorem State.retire_regs (s : State) (len : Nat) (b : Bool) : (s.retire len b).regs = s.regs := rfl
@[simp] theorem State.retire_rflags (s : State) (len : Nat) (b : Bool) : (s.retire len b).rflags = s.rflags := rfl
@[simp] theorem State.retire_segs (s : State) (len : Nat) (b : Bool) : (s.retire len b).segs = s.segs := rfl
@[simp] theorem State.retire_cplField (s : State) (len : Nat) (b : Bool) : (s.retire len b).cplField = s.cplField := rfl
@[simp] theorem State.retire_cr0 (s : State) (len : Nat) (b : Bool) : (s.retire len b).cr0 = s.cr0 := rfl
@[simp] theorem State.retire_cr2 (s : State) (len : Nat) (b : Bool) : (s.retire len b).cr2 = s.cr2 := rfl
@[simp] theorem State.retire_efer (s : State) (len : Nat) (b : Bool) : (s.retire len b).efer = s.efer := rfl
@[simp] theorem State.retire_gdtr (s : State) (len : Nat) (b : Bool) : (s.retire len b).gdtr = s.gdtr := rfl
@[simp] theorem State.retire_ldtr (s : State) (len : Nat) (b : Bool) : (s.retire len b).ldtr = s.ldtr := rfl
@[simp] theorem State.retire_mem (s : State) (len : Nat) (b : Bool) : (s.retire len b).mem = s.mem := rfl
@[simp] theorem State.retire_prog (s : State) (len : Nat) (b : Bool) : (s.retire len b).prog = s.prog := rfl
@[simp] theorem State.retire_plat (s : State) (len : Nat) (b : Bool) : (s.retire len b).plat = s.plat := rfl
@[simp] theorem State.retire_draws (s : State) (len : Nat) (b : Bool) : (s.retire len b).draws = s.draws := rfl
@[simp] theorem State.retire_rip (s : State) (len : Nat) (b : Bool) : (s.retire len b).rip = s.nextRip len := rfl
@[simp] theorem State.retire_ssInhibit (s : State) (len : Nat) (b : Bool) : (s.retire len b).ssInhibit = b := rfl

/-! ### `State.setSeg` -/

@[simp] theorem State.setSeg_regs (s : State) (n : SegName) (v : SegReg) : (s.setSeg n v).regs = s.regs := rfl
@[simp] theorem State.setSeg_rip (s : State) (n : SegName) (v : SegReg) : (s.setSeg n v).rip = s.rip := rfl
@[simp] theorem State.setSeg_rflags (s : State) (n : SegName) (v : SegReg) : (s.setSeg n v).rflags = s.rflags := rfl
@[simp] theorem State.setSeg_cplField (s : State) (n : SegName) (v : SegReg) : (s.setSeg n v).cplField = s.cplField := rfl
@[simp] theorem State.setSeg_cr0 (s : State) (n : SegName) (v : SegReg) : (s.setSeg n v).cr0 = s.cr0 := rfl
@[simp] theorem State.setSeg_cr2 (s : State) (n : SegName) (v : SegReg) : (s.setSeg n v).cr2 = s.cr2 := rfl
@[simp] theorem State.setSeg_efer (s : State) (n : SegName) (v : SegReg) : (s.setSeg n v).efer = s.efer := rfl
@[simp] theorem State.setSeg_gdtr (s : State) (n : SegName) (v : SegReg) : (s.setSeg n v).gdtr = s.gdtr := rfl
@[simp] theorem State.setSeg_ldtr (s : State) (n : SegName) (v : SegReg) : (s.setSeg n v).ldtr = s.ldtr := rfl
@[simp] theorem State.setSeg_ssInhibit (s : State) (n : SegName) (v : SegReg) : (s.setSeg n v).ssInhibit = s.ssInhibit := rfl
@[simp] theorem State.setSeg_mem (s : State) (n : SegName) (v : SegReg) : (s.setSeg n v).mem = s.mem := rfl
@[simp] theorem State.setSeg_prog (s : State) (n : SegName) (v : SegReg) : (s.setSeg n v).prog = s.prog := rfl
@[simp] theorem State.setSeg_plat (s : State) (n : SegName) (v : SegReg) : (s.setSeg n v).plat = s.plat := rfl
@[simp] theorem State.setSeg_draws (s : State) (n : SegName) (v : SegReg) : (s.setSeg n v).draws = s.draws := rfl
@[simp] theorem State.setSeg_segs (s : State) (n : SegName) (v : SegReg) : (s.setSeg n v).segs = s.segs.set n v := rfl

/-! ### `State.spAdvanced` -/

@[simp] theorem State.spAdvanced_rip (s : State) (w : Width) : (s.spAdvanced w).rip = s.rip := by simp [State.spAdvanced]
@[simp] theorem State.spAdvanced_rflags (s : State) (w : Width) : (s.spAdvanced w).rflags = s.rflags := by simp [State.spAdvanced]
@[simp] theorem State.spAdvanced_segs (s : State) (w : Width) : (s.spAdvanced w).segs = s.segs := by simp [State.spAdvanced]
@[simp] theorem State.spAdvanced_cplField (s : State) (w : Width) : (s.spAdvanced w).cplField = s.cplField := by simp [State.spAdvanced]
@[simp] theorem State.spAdvanced_cr0 (s : State) (w : Width) : (s.spAdvanced w).cr0 = s.cr0 := by simp [State.spAdvanced]
@[simp] theorem State.spAdvanced_cr2 (s : State) (w : Width) : (s.spAdvanced w).cr2 = s.cr2 := by simp [State.spAdvanced]
@[simp] theorem State.spAdvanced_efer (s : State) (w : Width) : (s.spAdvanced w).efer = s.efer := by simp [State.spAdvanced]
@[simp] theorem State.spAdvanced_gdtr (s : State) (w : Width) : (s.spAdvanced w).gdtr = s.gdtr := by simp [State.spAdvanced]
@[simp] theorem State.spAdvanced_ldtr (s : State) (w : Width) : (s.spAdvanced w).ldtr = s.ldtr := by simp [State.spAdvanced]
@[simp] theorem State.spAdvanced_ssInhibit (s : State) (w : Width) : (s.spAdvanced w).ssInhibit = s.ssInhibit := by simp [State.spAdvanced]
@[simp] theorem State.spAdvanced_mem (s : State) (w : Width) : (s.spAdvanced w).mem = s.mem := by simp [State.spAdvanced]
@[simp] theorem State.spAdvanced_prog (s : State) (w : Width) : (s.spAdvanced w).prog = s.prog := by simp [State.spAdvanced]
@[simp] theorem State.spAdvanced_plat (s : State) (w : Width) : (s.spAdvanced w).plat = s.plat := by simp [State.spAdvanced]
@[simp] theorem State.spAdvanced_draws (s : State) (w : Width) : (s.spAdvanced w).draws = s.draws := by simp [State.spAdvanced]

/-! ### `State.withProgram` -/

@[simp] theorem State.withProgram_regs (s : State) (bs : List Byte) : (s.withProgram bs).regs = s.regs := rfl
@[simp] theorem State.withProgram_rip (s : State) (bs : List Byte) : (s.withProgram bs).rip = s.rip := rfl
@[simp] theorem State.withProgram_rflags (s : State) (bs : List Byte) : (s.withProgram bs).rflags = s.rflags := rfl
@[simp] theorem State.withProgram_segs (s : State) (bs : List Byte) : (s.withProgram bs).segs = s.segs := rfl
@[simp] theorem State.withProgram_cplField (s : State) (bs : List Byte) : (s.withProgram bs).cplField = s.cplField := rfl
@[simp] theorem State.withProgram_cr0 (s : State) (bs : List Byte) : (s.withProgram bs).cr0 = s.cr0 := rfl
@[simp] theorem State.withProgram_cr2 (s : State) (bs : List Byte) : (s.withProgram bs).cr2 = s.cr2 := rfl
@[simp] theorem State.withProgram_efer (s : State) (bs : List Byte) : (s.withProgram bs).efer = s.efer := rfl
@[simp] theorem State.withProgram_gdtr (s : State) (bs : List Byte) : (s.withProgram bs).gdtr = s.gdtr := rfl
@[simp] theorem State.withProgram_ldtr (s : State) (bs : List Byte) : (s.withProgram bs).ldtr = s.ldtr := rfl
@[simp] theorem State.withProgram_ssInhibit (s : State) (bs : List Byte) : (s.withProgram bs).ssInhibit = s.ssInhibit := rfl
@[simp] theorem State.withProgram_mem (s : State) (bs : List Byte) : (s.withProgram bs).mem = s.mem := rfl
@[simp] theorem State.withProgram_plat (s : State) (bs : List Byte) : (s.withProgram bs).plat = s.plat := rfl
@[simp] theorem State.withProgram_draws (s : State) (bs : List Byte) : (s.withProgram bs).draws = s.draws := rfl
@[simp] theorem State.withProgram_prog (s : State) (bs : List Byte) : (s.withProgram bs).prog = { base := s.rip, bytes := bs } := rfl

/-! ### General registers -/

@[simp] theorem State.x_setX_self (s : State) (r : Reg) (v : Word64) : (s.setX r v).x r = v := by
  simp [State.x, State.setX]

@[simp] theorem State.x_setX_ne (s : State) {r q : Reg} (v : Word64) (h : q ≠ r) : (s.setX r v).x q = s.x q := by
  have hn : r.toNat ≠ q.toNat := fun e => h (BitVec.eq_of_toNat_eq e.symm)
  simp [State.x, State.setX, hn]

@[simp] theorem State.x_retire (s : State) (len : Nat) (b : Bool) (q : Reg) : (s.retire len b).x q = s.x q := rfl

@[simp] theorem State.x_setSeg (s : State) (n : SegName) (v : SegReg) (q : Reg) : (s.setSeg n v).x q = s.x q := rfl

@[simp] theorem State.x_writeReg_ne (s : State) (w : Width) {r q : Reg} (v : Word64) (h : q ≠ r) :
    (s.writeReg w r v).x q = s.x q := by
  cases w
  · exact State.x_setX_ne s _ h
  · exact State.x_setX_ne s _ h
  · exact State.x_setX_ne s _ h

@[simp] theorem State.x_writeSP_ne (s s0 : State) (w : Width) {q : Reg} (h : q ≠ rsp) :
    (s.writeSP s0 w).x q = s.x q := State.x_writeReg_ne s _ _ h

/-- A 16-bit register write keeps the bits above it (10_state.md R22). -/
@[simp] theorem State.x_writeReg16_self (s : State) (r : Reg) (v : Word64) :
    (s.writeReg .w16 r v).x r = replaceLow .w16 (s.x r) v := State.x_setX_self s r _

/-- A 32-bit register write leaves the bits above it free (10_state.md R22). -/
@[simp] theorem State.x_writeReg32_self (s : State) (r : Reg) (v : Word64) :
    (s.writeReg .w32 r v).x r = Config.upperHalf s.draws ++ v.setWidth 32 := State.x_setX_self s r _

/-- A 64-bit register write replaces the register (10_state.md R22). -/
@[simp] theorem State.x_writeReg64_self (s : State) (r : Reg) (v : Word64) :
    (s.writeReg .w64 r v).x r = v := State.x_setX_self s r v

/-! ### Segment registers -/

@[simp] theorem SegFile.get_set_self (f : SegFile) (n : SegName) (v : SegReg) : (f.set n v).get n = v := by
  cases n <;> rfl

@[simp] theorem SegFile.get_set_ne (f : SegFile) {n q : SegName} (v : SegReg) (h : q ≠ n) :
    (f.set n v).get q = f.get q := by
  cases n <;> cases q <;> first | rfl | exact absurd rfl h

@[simp] theorem State.seg_setSeg_self (s : State) (n : SegName) (v : SegReg) : (s.setSeg n v).seg n = v :=
  SegFile.get_set_self s.segs n v

@[simp] theorem State.seg_setSeg_ne (s : State) {n q : SegName} (v : SegReg) (h : q ≠ n) :
    (s.setSeg n v).seg q = s.seg q := SegFile.get_set_ne s.segs v h

/-! ### What the derived views read -/

/-- The mode reads CR0, IA32_EFER, RFLAGS and CS (10_state.md R36). -/
theorem State.mode_congr {s t : State} (h : SameControl s t) (hcs : t.segs.cs = s.segs.cs) : t.mode = s.mode := by
  simp [State.mode, State.crPE, State.eferLMA, State.flagVM, h.cr0, h.efer, h.rflags, hcs]

theorem State.cpl_congr {s t : State} (h : SameControl s t) (hcs : t.segs.cs = s.segs.cs) : t.cpl = s.cpl := by
  simp [State.cpl, State.mode_congr h hcs, h.cplField]

theorem State.ctx_congr {s t : State} (h : SameControl s t) (hcs : t.segs.cs = s.segs.cs) : t.ctx = s.ctx := by
  simp [State.ctx, State.mode_congr h hcs, hcs]

theorem SameControl.refl (s : State) : SameControl s s := ⟨rfl, rfl, rfl, rfl, rfl, rfl, rfl, rfl, rfl⟩

theorem SameControl.trans {s t u : State} (h : SameControl s t) (k : SameControl t u) : SameControl s u :=
  ⟨k.rflags.trans h.rflags, k.cplField.trans h.cplField, k.cr0.trans h.cr0, k.cr2.trans h.cr2, k.efer.trans h.efer,
    k.gdtr.trans h.gdtr, k.ldtr.trans h.ldtr, k.prog.trans h.prog, k.plat.trans h.plat⟩

/-! ### Register values at a width -/

theorem Width.trunc_toNat (w : Width) (v : Word64) : (w.trunc v).toNat = v.toNat % 2 ^ w.bits := by
  have := v.isLt
  cases w <;> simp [Width.trunc, Width.bits] <;> omega

theorem append_16_toNat (a : BitVec 48) (b : BitVec 16) :
    (a ++ b : Word64).toNat = a.toNat * 2 ^ 16 + b.toNat := by
  have h := BitVec.toNat_append a b
  have hb := b.isLt
  rw [Nat.shiftLeft_eq, Nat.mul_comm, ← Nat.two_pow_add_eq_or_of_lt hb] at h
  omega

theorem append_32_toNat (a b : BitVec 32) : (a ++ b : Word64).toNat = a.toNat * 2 ^ 32 + b.toNat := by
  have h := BitVec.toNat_append a b
  have hb := b.isLt
  rw [Nat.shiftLeft_eq, Nat.mul_comm, ← Nat.two_pow_add_eq_or_of_lt hb] at h
  omega

/-- The low bits are replaced. -/
theorem replaceLow_low (w : Width) (old v : Word64) :
    (replaceLow w old v).toNat % 2 ^ w.bits = v.toNat % 2 ^ w.bits := by
  cases w
  · simp only [replaceLow, Width.bits, append_16_toNat, BitVec.toNat_setWidth]; omega
  · simp only [replaceLow, Width.bits, append_32_toNat, BitVec.toNat_setWidth]; omega
  · rfl

/-- The bits above a 16-bit width are kept. -/
theorem replaceLow16_high (old v : Word64) : (replaceLow .w16 old v).toNat / 2 ^ 16 = old.toNat / 2 ^ 16 := by
  have := old.isLt
  simp only [replaceLow, append_16_toNat, BitVec.toNat_setWidth, BitVec.extractLsb'_toNat, Nat.shiftRight_eq_div_pow]
  omega

end Sys2Proof.Machine
end

