-- ==== Sys2Proof/Laws/Access.lean ====
section
/-! SUPPORT. One lemma per shared memory access that says once when it answers and what. -/

namespace Sys2Proof.Machine

/-! ### Translation (20_memory.md R61, R62) -/

theorem State.translateRun_ok_iff (s : State) (acc : Access) (pr : Privilege) (ls : List Word64) (ps : List Nat) :
    s.translateRun acc pr ls = .ok ps ↔
      ps.length = ls.length ∧ ∀ k < ls.length, s.translate acc pr (ls.getD k 0) = .ok (ps.getD k 0) := by
  induction ls generalizing ps with
  | nil => simp [State.translateRun, eq_comm]
  | cons l ls ih =>
    simp only [State.translateRun]
    cases hl : s.translate acc pr l with
    | error code =>
      simp only [reduceCtorEq, false_iff, not_and, not_forall]
      intro _
      exact ⟨0, by simp, by simp [hl]⟩
    | ok p =>
      cases hr : s.translateRun acc pr ls with
      | error e =>
        simp only [Except.map, reduceCtorEq, false_iff, not_and]
        intro hlen hall
        cases ps with
        | nil => simp at hlen
        | cons q qs =>
          have h := (ih qs).mpr ⟨by simpa using hlen, fun k hk => by
            have h' := hall (k + 1) (by simpa using hk)
            simpa only [List.getD_cons_succ] using h'⟩
          rw [hr] at h
          cases h
      | ok ps' =>
        have h0 := (ih ps').mp hr
        simp only [Except.map, Except.ok.injEq]
        constructor
        · rintro rfl
          refine ⟨by simp [h0.1], fun k hk => ?_⟩
          cases k with
          | zero => simpa using hl
          | succ k => simpa only [List.getD_cons_succ] using h0.2 k (by simpa using hk)
        · rintro ⟨hlen, hall⟩
          cases ps with
          | nil => simp at hlen
          | cons q qs =>
            have hq := hall 0 (by simp)
            simp only [List.getD_cons_zero, hl, Except.ok.injEq] at hq
            have h := (ih qs).mpr ⟨by simpa using hlen, fun k hk => by
              have h' := hall (k + 1) (by simpa using hk)
              simpa only [List.getD_cons_succ] using h'⟩
            rw [hr] at h
            cases h
            rw [hq]

theorem State.linRun_length (s : State) (lin : Word64) (n : Nat) : (s.linRun lin n).length = n := by
  simp [State.linRun]

theorem State.linRun_getD (s : State) (lin : Word64) (n k : Nat) (h : k < n) :
    (s.linRun lin n).getD k 0 = s.linAt lin k := by
  simp [State.linRun, List.getD_eq_getElem?_getD, h]

/-- The physical addresses of an access, once and for all. -/
theorem State.physRun_ok_iff (s : State) (acc : Access) (pr : Privilege) (lin : Word64) (n : Nat) (ps : List Nat) :
    s.physRun acc pr lin n = .ok ps ↔ s.BytesAt acc pr lin n ps := by
  have hrun := s.translateRun_ok_iff acc pr (s.linRun lin n)
  unfold State.physRun
  constructor
  · intro h
    split at h
    · cases h
    · rename_i ps' hps
      split at h
      · cases h
      · rename_i hfind
        cases h
        have h1 := (hrun ps).mp hps
        rw [s.linRun_length] at h1
        refine ⟨h1.1, fun k hk => ?_, fun p hp => ?_⟩
        · rw [← s.linRun_getD lin n k hk]; exact h1.2 k hk
        · simpa using List.find?_eq_none.mp hfind p hp
  · rintro ⟨h1, h2, h3⟩
    have h4 := (hrun ps).mpr ⟨by rw [s.linRun_length, h1], fun k hk => by
      rw [s.linRun_length] at hk
      rw [s.linRun_getD lin n k hk]
      exact h2 k hk⟩
    rw [h4]
    have h5 : (ps.find? fun p => !s.plat.plain p) = none :=
      List.find?_eq_none.mpr fun p hp => by simp [h3 p hp]
    simp only [h5]

theorem State.memRead_ok_iff (s : State) (pr : Privilege) (lin : Word64) (n : Nat) (v : Word64) :
    s.memRead pr lin n = .ok v ↔ ∃ ps, s.BytesAt .read pr lin n ps ∧ v = s.mem.value ps := by
  simp only [← s.physRun_ok_iff]
  unfold State.memRead
  cases s.physRun .read pr lin n <;> simp [Except.map, eq_comm]

/-- Everything a memory write can do when it answers. -/
theorem State.memWrite_ok_iff (s : State) (lin : Word64) (n : Nat) (v : Word64) (t : State) :
    s.memWrite lin n v = .ok t ↔
      ∃ qs, s.BytesAt .write s.priv lin n qs ∧ (∀ q ∈ qs, s.inText q = false) ∧
        t = { s with mem := s.mem.writeAll (s.storeOrder (qs.zip (leBytes n v))), draws := s.draws + 1 } := by
  simp only [← s.physRun_ok_iff]
  unfold State.memWrite
  cases hp : s.physRun .write s.priv lin n with
  | error e => simp
  | ok qs =>
    cases hf : qs.find? s.inText with
    | some q =>
      simp only [hf, Except.ok.injEq, reduceCtorEq, false_iff]
      rintro ⟨_, rfl, h, -⟩
      have := List.find?_some hf
      rw [h q (List.mem_of_find?_eq_some hf)] at this
      cases this
    | none =>
      have h := List.find?_eq_none.mp hf
      simp only [hf, Except.ok.injEq]
      constructor
      · rintro rfl; exact ⟨qs, rfl, fun q hq => by simpa using h q hq, rfl⟩
      · rintro ⟨_, rfl, -, rfl⟩; rfl

/-! ### The order of the stores of one write (20_memory.md R61, R63) -/

/-- Bytes at distinct addresses are stored as they are listed. -/
theorem State.storeOrder_of_nodup (s : State) {cs : List (Nat × Byte)} (h : (cs.map Prod.fst).Nodup) :
    s.storeOrder cs = cs := if_pos h

/-- Every byte is stored, and nothing else. -/
@[simp] theorem State.mem_storeOrder (s : State) (cs : List (Nat × Byte)) (c : Nat × Byte) :
    c ∈ s.storeOrder cs ↔ c ∈ cs := by
  unfold State.storeOrder
  split
  · rfl
  · exact mem_shuffle _ cs c

/-! ### The checks (20_memory.md R57, R59) -/

theorem State.checkFault_none_iff (s : State) (n : SegName) (off : Word64) (len : Nat) (acc : Access) :
    s.checkFault n off len acc = none ↔
      (s.mode = .long64 → ∀ k < len, canonical s.plat.vaBits (s.linAt (s.linear n off) k) = true) ∧
      (s.protected = true → n ≠ .ss → (s.seg n).hidden.attr.unusable = false) ∧
      (s.protected = true → acc = .write → s.writable n = true) ∧
      (s.mode ≠ .long64 → inLimit (s.seg n).hidden off.toNat len = true) := by
  unfold State.checkFault
  by_cases hm : s.mode = .long64
  · have hp : s.protected = false := by simp [State.protected, hm]
    simp [hm, hp, State.linRun]
  · simp only [hm, if_false, false_implies, ne_eq, not_false_eq_true, true_implies, true_and]
    by_cases h1 : s.protected = true ∧ n ≠ .ss ∧ (s.seg n).hidden.attr.unusable = true
    · simp [h1]
    · rw [if_neg h1]
      by_cases h2 : s.protected = true ∧ acc = .write ∧ s.writable n = false
      · simp [h2]
      · rw [if_neg h2]
        have e1 : s.protected = true → n ≠ .ss → (s.seg n).hidden.attr.unusable = false := fun a b => by
          by_contra c; exact h1 ⟨a, b, by simpa using c⟩
        have e2 : s.protected = true → acc = .write → s.writable n = true := fun a b => by
          by_contra c; exact h2 ⟨a, b, by simpa using c⟩
        by_cases h3 : inLimit (s.seg n).hidden off.toNat len = true
        · simp [h3]; exact ⟨e1, e2⟩
        · simp [h3]

theorem State.check_ok_iff (s : State) (n : SegName) (off : Word64) (len : Nat) (sz : Width) (acc : Access)
    (hlen : 0 < len) :
    s.check n off len sz acc = .ok () ↔ s.checkFault n off len acc = none ∧ off.toNat + len ≤ 2 ^ sz.bits := by
  unfold State.check
  cases s.checkFault n off len acc with
  | some e => simp
  | none =>
    by_cases h : 2 ^ sz.bits ≤ off.toNat + len - 1
    · simp only [h, if_true, reduceCtorEq, true_and, false_iff]; omega
    · simp only [h, if_false, true_and, true_iff]; omega

theorem State.alignCheck_ok_iff (s : State) (lin off : Word64) (n : Nat) :
    s.alignCheck lin off n = .ok () ↔ (s.alignCheckEnabled = true → unaligned lin off n = false) := by
  unfold State.alignCheck
  cases s.alignCheckEnabled <;> cases unaligned lin off n <;> simp

/-- When a checked read answers, and what (20_memory.md R58). -/
theorem State.segRead_ok_iff (s : State) (n : SegName) (off : Word64) (len : Nat) (sz : Width) (v : Word64)
    (hlen : 0 < len) :
    s.segRead n off len sz = .ok v ↔ ∃ ps, s.Reaches n off len sz .read ps ∧ v = s.mem.value ps := by
  have hc := s.check_ok_iff n off len sz .read hlen
  have hf := s.checkFault_none_iff n off len .read
  have ha := s.alignCheck_ok_iff (s.linear n off) off len
  have hr := s.memRead_ok_iff s.priv (s.linear n off) len v
  constructor
  · intro h
    unfold State.segRead at h
    split at h
    · cases h
    · rename_i h1
      split at h
      · cases h
      · rename_i h2
        obtain ⟨h3, h4⟩ := hc.mp h1
        obtain ⟨a, b, c, d⟩ := hf.mp h3
        obtain ⟨ps, h5, h6⟩ := hr.mp h
        exact ⟨ps, ⟨a, b, c, d, h4, ha.mp h2, h5⟩, h6⟩
  · rintro ⟨ps, ⟨a, b, c, d, e, f, g⟩, h6⟩
    unfold State.segRead
    rw [hc.mpr ⟨hf.mpr ⟨a, b, c, d⟩, e⟩]
    simp only
    rw [ha.mpr f]
    exact hr.mpr ⟨ps, g, h6⟩

/-- When a checked write answers, and what (20_memory.md R59). -/
theorem State.segWrite_ok_iff (s : State) (n : SegName) (off : Word64) (len : Nat) (sz : Width) (v : Word64)
    (t : State) (hlen : 0 < len) :
    s.segWrite n off len sz v = .ok t ↔
      ∃ qs, s.Reaches n off len sz .write qs ∧ (∀ q ∈ qs, s.inText q = false) ∧
        t = { s with mem := s.mem.writeAll (s.storeOrder (qs.zip (leBytes len v))), draws := s.draws + 1 } := by
  have hc := s.check_ok_iff n off len sz .write hlen
  have hf := s.checkFault_none_iff n off len .write
  have ha := s.alignCheck_ok_iff (s.linear n off) off len
  have hr := s.memWrite_ok_iff (s.linear n off) len v t
  constructor
  · intro h
    unfold State.segWrite at h
    split at h
    · cases h
    · rename_i h1
      split at h
      · cases h
      · rename_i h2
        obtain ⟨h3, h4⟩ := hc.mp h1
        obtain ⟨a, b, c, d⟩ := hf.mp h3
        obtain ⟨qs, h5, h6⟩ := hr.mp h
        exact ⟨qs, ⟨a, b, c, d, h4, ha.mp h2, h5⟩, h6⟩
  · rintro ⟨qs, ⟨a, b, c, d, e, f, g⟩, h6⟩
    unfold State.segWrite
    rw [hc.mpr ⟨hf.mpr ⟨a, b, c, d⟩, e⟩]
    simp only
    rw [ha.mpr f]
    exact hr.mpr ⟨qs, g, h6⟩

theorem Width.bytes_pos (w : Width) : 0 < w.bytes := by cases w <;> decide

/-- When the top of the stack can be read, and what is read (40_pop_general.md R120). -/
theorem State.popRead_ok_iff (s : State) (w : Width) (v : Word64) :
    s.popRead w = .ok v ↔ ∃ ps, s.StackReadable w ps ∧ v = s.mem.value ps :=
  s.segRead_ok_iff .ss s.stackPointer w.bytes s.stackAddrSize v (Width.bytes_pos w)

/-! ### The stack pointer (40_pop_general.md R120) -/

theorem State.readReg_writeReg_self (s : State) (w : Width) (r : Reg) (v : Word64) :
    ((s.writeReg w r v).readReg w r).toNat = v.toNat % 2 ^ w.bits := by
  unfold State.readReg
  rw [Width.trunc_toNat]
  cases w
  · rw [State.x_writeReg16_self, replaceLow_low]
  · simp only [State.x_writeReg32_self, Width.bits, append_32_toNat, BitVec.toNat_setWidth]; omega
  · rw [State.x_writeReg64_self]

theorem State.spAfter_toNat (s : State) (w : Width) :
    (s.spAfter w).toNat = (s.stackPointer.toNat + w.bytes) % 2 ^ s.stackAddrSize.bits := by
  unfold State.spAfter
  rw [Width.trunc_toNat]
  have hb : w.bytes < 2 ^ 64 := by cases w <;> decide
  simp only [BitVec.toNat_add, BitVec.toNat_ofNat, Nat.mod_eq_of_lt hb]
  cases s.stackAddrSize <;> simp only [Width.bits] <;> omega

/-- Writing the stack pointer advances it and leaves every other register (10_state.md R23). -/
theorem State.writeSP_stackAdvanced {s u t : State} (w : Width) (h : u.x rsp = s.x rsp)
    (ht : t.x rsp = (u.writeSP s w).x rsp) : StackAdvanced s t w := by
  constructor
  · have h1 := State.readReg_writeReg_self u s.stackAddrSize rsp (s.spAfter w)
    unfold State.readReg at h1 ⊢
    rw [ht]
    unfold State.writeSP
    rw [h1, State.spAfter_toNat, Nat.mod_mod]
  · intro h16
    rw [ht]
    unfold State.writeSP
    rw [h16, State.x_writeReg16_self, replaceLow16_high, h]

end Sys2Proof.Machine
end

