-- ==== Sys2Proof/Laws/Decode.lean ====
section
/-! SUPPORT. The small facts of decoding and encoding: each field written by the encoder is the field the decoder
reads, byte by byte (30_encoding.md R81, R84, R89, R99 to R102). -/

namespace Sys2Proof

/-! ### Prefix bytes -/

@[simp] theorem legacyOfByte_byte (q : LegacyPrefix) : legacyOfByte q.byte = some q := by
  cases q with
  | seg s => cases s <;> rfl
  | _ => rfl

theorem byte_of_legacyOfByte {b : Byte} {q : LegacyPrefix} (h : legacyOfByte b = some q) : b = q.byte := by
  unfold legacyOfByte at h
  repeat' split at h
  all_goals first | (cases h; assumption) | cases h

/-- No REX byte is a legacy prefix. -/
theorem legacyOfByte_rex (x : Rex) : legacyOfByte x.byte = none := by
  obtain ⟨w, r, y, b⟩ := x
  cases w <;> cases r <;> cases y <;> cases b <;> rfl

@[simp] theorem rexOfByte_byte (x : Rex) : rexOfByte x.byte = some x := by
  obtain ⟨w, r, y, b⟩ := x
  cases w <;> cases r <;> cases y <;> cases b <;> rfl

theorem byte_of_rexOfByte {b : Byte} {x : Rex} (h : rexOfByte b = some x) : b = x.byte := by
  have key : ∀ c : Byte, ∀ y ∈ rexOfByte c, c = y.byte := by decide
  exact key b x h

theorem takeLegacy_map (ps : List LegacyPrefix) (rest : List Byte) :
    takeLegacy (ps.map LegacyPrefix.byte ++ rest) = (ps ++ (takeLegacy rest).1, (takeLegacy rest).2) := by
  induction ps with
  | nil => rfl
  | cons q ps ih => simp only [List.map_cons, List.cons_append, takeLegacy, legacyOfByte_byte, ih]

theorem takeLegacy_stop {b : Byte} (bs : List Byte) (h : legacyOfByte b = none) : takeLegacy (b :: bs) = ([], b :: bs) := by
  simp only [takeLegacy, h]

/-- The bytes are the prefixes found and the rest. -/
theorem takeLegacy_bytes (bs : List Byte) : bs = (takeLegacy bs).1.map LegacyPrefix.byte ++ (takeLegacy bs).2 := by
  induction bs with
  | nil => rfl
  | cons b bs ih =>
    unfold takeLegacy
    split
    · rename_i q hq
      simp only [List.map_cons, List.cons_append, ← byte_of_legacyOfByte hq, ← ih]
    · rfl

theorem takeRex_bytes (m : Mode) (bs : List Byte) : bs = rexBytes (takeRex m bs).1 ++ (takeRex m bs).2 := by
  cases bs with
  | nil => rfl
  | cons b bs =>
    by_cases hm : m = .long64
    · cases hx : rexOfByte b with
      | none => simp [takeRex, hm, hx, rexBytes]
      | some x => simp [takeRex, hm, hx, rexBytes, ← byte_of_rexOfByte hx]
    · simp [takeRex, hm, rexBytes]

theorem takePrefixes_bytes (m : Mode) (bs : List Byte) :
    bs = (takePrefixes m bs).1.bytes ++ (takePrefixes m bs).2 := by
  have h := takeLegacy_bytes bs
  rw [takeRex_bytes m (takeLegacy bs).2, ← List.append_assoc] at h
  exact h

/-- An opcode byte ends the prefixes: the prefixes written are the prefixes read. -/
theorem takePrefixes_append {m : Mode} {p : Prefixes} {op : Byte} (bs : List Byte)
    (hrex : p.rex.isNone = true ∨ m = .long64) (h1 : legacyOfByte op = none) (h2 : rexOfByte op = none) :
    takePrefixes m (p.bytes ++ op :: bs) = (p, op :: bs) := by
  obtain ⟨leg, rex⟩ := p
  cases rex with
  | none =>
    have h3 : (Prefixes.bytes { legacy := leg, rex := none }) ++ op :: bs =
        leg.map LegacyPrefix.byte ++ op :: bs := by simp [Prefixes.bytes, rexBytes]
    rw [h3]
    simp only [takePrefixes, takeLegacy_map, takeLegacy_stop bs h1, List.append_nil, takeRex, h2]
    split <;> rfl
  | some x =>
    have hm : m = .long64 := by simpa using hrex
    have h3 : (Prefixes.bytes { legacy := leg, rex := some x }) ++ op :: bs =
        leg.map LegacyPrefix.byte ++ x.byte :: op :: bs := by simp [Prefixes.bytes, rexBytes]
    rw [h3]
    simp only [takePrefixes, takeLegacy_map, takeLegacy_stop _ (legacyOfByte_rex x), List.append_nil, takeRex, hm,
      if_true, rexOfByte_byte]

/-! ### Fields -/

@[simp] theorem modRm_reg (md : BitVec 2) (rm : BitVec 3) : (modRm md rm).extractLsb' 3 3 = 0 := by
  revert md rm; decide

@[simp] theorem modRm_md (md : BitVec 2) (rm : BitVec 3) : (modRm md rm).extractLsb' 6 2 = md := by
  revert md rm; decide

@[simp] theorem modRm_rm (md : BitVec 2) (rm : BitVec 3) : (modRm md rm).extractLsb' 0 3 = rm := by
  revert md rm; decide

/-- A ModRM byte with reg = 000 is its mod and rm. -/
theorem modRm_of_byte {m : Byte} (h : m.extractLsb' 3 3 = 0) : modRm (m.extractLsb' 6 2) (m.extractLsb' 0 3) = m := by
  revert m; decide

@[simp] theorem sibByte_scale (sc : BitVec 2) (ix b : BitVec 3) : (sibByte sc ix b).extractLsb' 6 2 = sc := by
  revert sc ix b; decide

@[simp] theorem sibByte_index (sc : BitVec 2) (ix b : BitVec 3) : (sibByte sc ix b).extractLsb' 3 3 = ix := by
  revert sc ix b; decide

@[simp] theorem sibByte_base (sc : BitVec 2) (ix b : BitVec 3) : (sibByte sc ix b).extractLsb' 0 3 = b := by
  revert sc ix b; decide

theorem sibByte_of_byte (b : Byte) : sibByte (b.extractLsb' 6 2) (b.extractLsb' 3 3) (b.extractLsb' 0 3) = b := by
  revert b; decide

theorem extend_high_field (r : Reg) : extend (Reg.high r) (Reg.field r) = r := by revert r; decide

@[simp] theorem high_extend (b : Bool) (f : BitVec 3) : Reg.high (extend b f) = b := by revert b f; decide

@[simp] theorem field_extend (b : Bool) (f : BitVec 3) : Reg.field (extend b f) = f := by revert b f; decide

@[simp] theorem opcodeO_opcode (r : Reg) : (opcodeO r).extractLsb' 3 5 = 0x0B := by revert r; decide

@[simp] theorem opcodeO_field (r : Reg) : (opcodeO r).extractLsb' 0 3 = Reg.field r := by revert r; decide

theorem opcodeO_of_byte {op : Byte} (b : Bool) (h : op.extractLsb' 3 5 = 0x0B) :
    opcodeO (extend b (op.extractLsb' 0 3)) = op := by revert op b; decide

theorem opcodeO_not_prefix (r : Reg) : legacyOfByte (opcodeO r) = none ∧ rexOfByte (opcodeO r) = none := by
  revert r; decide

@[simp] theorem base16OfField_field (b : Base16) : base16OfField b.field = b := by cases b <;> rfl

theorem field_base16OfField (f : BitVec 3) : (base16OfField f).field = f := by revert f; decide

/-! ### Displacements -/

/-- The bits of one value written after another. -/
theorem getLsbD_bytes {n : Nat} (x : BitVec n) (b : Byte) (i : Nat) :
    (x ++ b).getLsbD i = if i < 8 then b.getLsbD i else x.getLsbD (i - 8) := BitVec.getLsbD_append

theorem extract_last {n : Nat} (x : BitVec n) (b : Byte) : (x ++ b).extractLsb' 0 8 = b :=
  BitVec.eq_of_getLsbD_eq fun i hi => by
    rw [BitVec.getLsbD_extractLsb', Nat.zero_add, getLsbD_bytes, if_pos hi, decide_eq_true hi, Bool.true_and]

theorem extract_before {n k : Nat} (x : BitVec n) (b : Byte) :
    (x ++ b).extractLsb' (8 + k) 8 = x.extractLsb' k 8 :=
  BitVec.eq_of_getLsbD_eq fun i hi => by
    rw [BitVec.getLsbD_extractLsb', BitVec.getLsbD_extractLsb', getLsbD_bytes, if_neg (by omega),
      show 8 + k + i - 8 = k + i by omega]

theorem word_of_bytes (b0 b1 : Byte) : wordBytes (b1 ++ b0) = [b0, b1] := by
  have h1 : (b1 ++ b0).extractLsb' 8 8 = b1 := by
    rw [extract_before (k := 0) b1 b0]; exact BitVec.extractLsb'_eq_self
  exact congrArg₂ (fun x y : Byte => [x, y]) (extract_last b1 b0) h1

theorem bytes_of_word (d : Word16) : d.extractLsb' 8 8 ++ d.extractLsb' 0 8 = d := by
  refine BitVec.eq_of_getLsbD_eq fun i hi => ?_
  simp only [BitVec.getLsbD_append, BitVec.getLsbD_extractLsb']
  split
  · rename_i h; simp [h]
  · rw [show 8 + (i - 8) = i by omega]; simp; omega

theorem dword_of_bytes (b0 b1 b2 b3 : Byte) : dwordBytes (b3 ++ b2 ++ b1 ++ b0) = [b0, b1, b2, b3] := by
  have h1 : (b3 ++ b2 ++ b1 ++ b0).extractLsb' 8 8 = b1 := by
    rw [extract_before (k := 0) (b3 ++ b2 ++ b1) b0]; exact extract_last _ b1
  have h2 : (b3 ++ b2 ++ b1 ++ b0).extractLsb' 16 8 = b2 := by
    rw [extract_before (k := 8) (b3 ++ b2 ++ b1) b0, extract_before (k := 0) (b3 ++ b2) b1]; exact extract_last _ b2
  have h3 : (b3 ++ b2 ++ b1 ++ b0).extractLsb' 24 8 = b3 := by
    rw [extract_before (k := 16) (b3 ++ b2 ++ b1) b0, extract_before (k := 8) (b3 ++ b2) b1,
      extract_before (k := 0) b3 b2]
    exact BitVec.extractLsb'_eq_self
  show [(b3 ++ b2 ++ b1 ++ b0).extractLsb' 0 8, (b3 ++ b2 ++ b1 ++ b0).extractLsb' 8 8,
    (b3 ++ b2 ++ b1 ++ b0).extractLsb' 16 8, (b3 ++ b2 ++ b1 ++ b0).extractLsb' 24 8] = _
  rw [h1, h2, h3, extract_last]

theorem bytes_of_dword (d : Word32) :
    d.extractLsb' 24 8 ++ d.extractLsb' 16 8 ++ d.extractLsb' 8 8 ++ d.extractLsb' 0 8 = d := by
  refine BitVec.eq_of_getLsbD_eq fun i hi => ?_
  simp only [BitVec.getLsbD_append, BitVec.getLsbD_extractLsb']
  split
  · rename_i h; simp [h]
  · split
    · rename_i h; simp [h, show 8 + (i - 8) = i by omega]
    · split
      · rename_i h; simp [h, show 16 + (i - 8 - 8) = i by omega]
      · rw [show 24 + (i - 8 - 8 - 8) = i by omega]; simp; omega

@[simp] theorem takeWord_wordBytes (d : Word16) (rest : List Byte) : takeWord (wordBytes d ++ rest) = .ok (d, rest) := by
  simp only [wordBytes, List.cons_append, List.nil_append, takeWord, bytes_of_word]

@[simp] theorem takeDword_dwordBytes (d : Word32) (rest : List Byte) :
    takeDword (dwordBytes d ++ rest) = .ok (d, rest) := by
  simp only [dwordBytes, List.cons_append, List.nil_append, takeDword, bytes_of_dword]

@[simp] theorem takeDisp16_bytes (d : Disp16) (rest : List Byte) :
    takeDisp16 d.md (d.bytes ++ rest) = .ok (d, rest) := by
  cases d <;> simp [takeDisp16, Disp16.md, Disp16.bytes, takeByte, Except.map]

@[simp] theorem takeDisp32_bytes (d : Disp32) (rest : List Byte) :
    takeDisp32 d.md (d.bytes ++ rest) = .ok (d, rest) := by
  cases d <;> simp [takeDisp32, Disp32.md, Disp32.bytes, takeByte, Except.map]

theorem takeWord_ok {bs rest : List Byte} {d : Word16} (h : takeWord bs = .ok (d, rest)) : bs = wordBytes d ++ rest := by
  unfold takeWord at h
  split at h
  · cases h; rw [word_of_bytes]; rfl
  · cases h

theorem takeDword_ok {bs rest : List Byte} {d : Word32} (h : takeDword bs = .ok (d, rest)) :
    bs = dwordBytes d ++ rest := by
  unfold takeDword at h
  split at h
  · cases h; rw [dword_of_bytes]; rfl
  · cases h

theorem map_ok {ε α β : Type} {x : Except ε α} {f : α → β} {b : β} (h : x.map f = .ok b) : ∃ a, x = .ok a ∧ f a = b := by
  cases x with
  | error e => cases h
  | ok a => exact ⟨a, rfl, Except.ok.inj h⟩

theorem takeDisp16_ok {md : BitVec 2} {bs rest : List Byte} {d : Disp16} (hm : md ≠ 3)
    (h : takeDisp16 md bs = .ok (d, rest)) : d.md = md ∧ bs = d.bytes ++ rest := by
  unfold takeDisp16 at h
  split at h
  · rename_i hmd
    obtain ⟨⟨x, y⟩, h1, h2⟩ := map_ok h
    cases h2
    cases bs with
    | nil => cases h1
    | cons b bs => cases h1; exact ⟨hmd.symm, rfl⟩
  · split at h
    · rename_i hmd
      obtain ⟨⟨x, y⟩, h1, h2⟩ := map_ok h
      cases h2
      exact ⟨hmd.symm, takeWord_ok h1⟩
    · cases h
      refine ⟨?_, rfl⟩
      rename_i h1 h2
      simp only [Disp16.md]
      clear * - hm h1 h2
      revert md; decide

theorem takeDisp32_ok {md : BitVec 2} {bs rest : List Byte} {d : Disp32} (hm : md ≠ 3)
    (h : takeDisp32 md bs = .ok (d, rest)) : d.md = md ∧ bs = d.bytes ++ rest := by
  unfold takeDisp32 at h
  split at h
  · rename_i hmd
    obtain ⟨⟨x, y⟩, h1, h2⟩ := map_ok h
    cases h2
    cases bs with
    | nil => cases h1
    | cons b bs => cases h1; exact ⟨hmd.symm, rfl⟩
  · split at h
    · rename_i hmd
      obtain ⟨⟨x, y⟩, h1, h2⟩ := map_ok h
      cases h2
      exact ⟨hmd.symm, takeDword_ok h1⟩
    · cases h
      refine ⟨?_, rfl⟩
      rename_i h1 h2
      simp only [Disp32.md]
      clear * - hm h1 h2
      revert md; decide

end Sys2Proof
end

