-- ==== Sys2Proof/Laws/Meaning.lean ====
section
/-! SUPPORT. One lemma per shared meaning that says once when an instruction completes and with what. -/

namespace Sys2Proof

/-- The pseudocode of an instruction, by its destination (40_pop_general.md R121, R129; 41_pop_segment.md R148). -/
def Instr.body (i : Instr) (s : Machine.State) : Machine.Res Machine.State :=
  match i with
  | .popRm16 p d => Machine.popToRm p d .w16 i.len s
  | .popRm32 p d => Machine.popToRm p d .w32 i.len s
  | .popRm64 p d => Machine.popToRm p d .w64 i.len s
  | .popR16 _ r => Machine.popToReg r .w16 i.len s
  | .popR32 _ r => Machine.popToReg r .w32 i.len s
  | .popR64 _ r => Machine.popToReg r .w64 i.len s
  | .popDs p => Machine.popToLegacySeg .ds p i.len s
  | .popEs p => Machine.popToLegacySeg .es p i.len s
  | .popSs p => Machine.popToLegacySeg .ss p i.len s
  | .popFs16 _ => Machine.popToSeg .fs .w16 i.len s
  | .popFs32 _ => Machine.popToSeg .fs .w32 i.len s
  | .popFs64 _ => Machine.popToSeg .fs .w64 i.len s
  | .popGs16 _ => Machine.popToSeg .gs .w16 i.len s
  | .popGs32 _ => Machine.popToSeg .gs .w32 i.len s
  | .popGs64 _ => Machine.popToSeg .gs .w64 i.len s

namespace Machine

/-- Every arm of `exec` is the shared frame around its pseudocode. -/
theorem exec_eq (i : Instr) (s : State) : exec i s = perform i s (i.body s) := by cases i <;> rfl

/-! ### The frame -/

theorem finish_next_iff (s t : State) (b : Res State) : finish s b = .next t ↔ b = .ok t := by
  cases b with
  | ok u => simp [finish]
  | error e =>
    cases e with
    | raise e => cases e <;> simp [finish, takeException]
    | refuse r => simp [finish]

/-- When an instruction completes. -/
theorem perform_next_iff (i : Instr) (s t : State) (b : Res State) :
    perform i s b = .next t ↔ WellFormed s.ctx i ∧ i.prefixes.has .lock = false ∧ b = .ok t := by
  unfold perform
  by_cases hw : i.encodable s.ctx = true
  · rw [if_pos hw]
    cases hl : i.prefixes.has .lock
    · exact ⟨fun h => ⟨hw, rfl, (finish_next_iff s t b).mp h⟩, fun h => (finish_next_iff s t b).mpr h.2.2⟩
    · simp [takeException]
  · rw [if_neg hw]
    simp [hw]

theorem exec_next_iff (i : Instr) (s t : State) :
    exec i s = .next t ↔ WellFormed s.ctx i ∧ i.prefixes.has .lock = false ∧ i.body s = .ok t := by
  rw [exec_eq, perform_next_iff]

/-- An instruction of this context without LOCK runs its pseudocode. -/
theorem exec_of_wf {i : Instr} {s : State} (hw : WellFormed s.ctx i) (hl : i.prefixes.has .lock = false) :
    exec i s = finish s (i.body s) := by
  rw [exec_eq]
  unfold perform
  rw [if_pos hw, hl]
  rfl

/-! ### The pseudocode by destination -/

theorem body_of_regDest {i : Instr} {s : State} {r : Reg} (h : i.regDest = some r) :
    i.body s = popToReg r (i.width s.ctx) i.len s := by
  cases i <;> simp only [Instr.regDest, reduceCtorEq, Option.some.injEq] at h
  case popRm16 p d => cases d <;> simp_all [Instr.body, popToRm, Instr.width]
  case popRm32 p d => cases d <;> simp_all [Instr.body, popToRm, Instr.width]
  case popRm64 p d => cases d <;> simp_all [Instr.body, popToRm, Instr.width]
  all_goals subst h; rfl

theorem body_of_memDest {i : Instr} {s : State} {m : Mem} (h : i.memDest = some m) :
    i.body s = popToMem i.prefixes m (i.width s.ctx) i.len s := by
  cases i <;> simp only [Instr.memDest, reduceCtorEq] at h
  case popRm16 p d => cases d <;> simp_all [Instr.body, popToRm, Instr.width, Instr.prefixes]
  case popRm32 p d => cases d <;> simp_all [Instr.body, popToRm, Instr.width, Instr.prefixes]
  case popRm64 p d => cases d <;> simp_all [Instr.body, popToRm, Instr.width, Instr.prefixes]

theorem body_of_segDest {i : Instr} {s : State} {n : SegName} (h : i.segDest = some n) :
    i.body s = if i.invalidIn64 = true ∧ s.mode = .long64 then .error (.raise .ud)
      else popToSeg n (i.width s.ctx) i.len s := by
  cases i <;> simp only [Instr.segDest, reduceCtorEq, Option.some.injEq] at h
  all_goals subst h
  all_goals simp [Instr.body, popToLegacySeg, Instr.width, Instr.invalidIn64]

/-- Every instruction has a destination of one of the three kinds. -/
theorem dest_cases (i : Instr) :
    (∃ r, i.regDest = some r ∧ i.memDest = none ∧ i.segDest = none) ∨
    (∃ m, i.regDest = none ∧ i.memDest = some m ∧ i.segDest = none) ∨
    (∃ n, i.regDest = none ∧ i.memDest = none ∧ i.segDest = some n) := by
  cases i
  case popRm16 p d => cases d <;> simp [Instr.regDest, Instr.memDest, Instr.segDest]
  case popRm32 p d => cases d <;> simp [Instr.regDest, Instr.memDest, Instr.segDest]
  case popRm64 p d => cases d <;> simp [Instr.regDest, Instr.memDest, Instr.segDest]
  all_goals simp [Instr.regDest, Instr.memDest, Instr.segDest]

/-! ### When each completes -/

/-- The value at the top of the stack does not depend on how its bytes are listed. -/
theorem stackReadable_value {s : State} {w : Width} {ps qs : List Nat} (h : s.StackReadable w ps)
    (k : s.StackReadable w qs) : s.mem.value qs = s.mem.value ps :=
  Except.ok.inj (((s.popRead_ok_iff w _).mpr ⟨qs, k, rfl⟩).symm.trans ((s.popRead_ok_iff w _).mpr ⟨ps, h, rfl⟩))

theorem popToReg_ok_iff (r : Reg) (w : Width) (len : Nat) (s t : State) :
    popToReg r w len s = .ok t ↔
      ∃ ps, s.StackReadable w ps ∧ t = ((s.writeSP s w).writeReg w r (s.mem.value ps)).retire len false := by
  have h := s.popRead_ok_iff w
  unfold popToReg
  cases hp : s.popRead w with
  | error e =>
    simp only [reduceCtorEq, false_iff, not_exists, not_and]
    intro ps hps
    have := (h _).mpr ⟨ps, hps, rfl⟩
    rw [hp] at this; cases this
  | ok v =>
    obtain ⟨ps, h1, rfl⟩ := (h v).mp hp
    simp only [Except.ok.injEq]
    constructor
    · rintro rfl; exact ⟨ps, h1, rfl⟩
    · rintro ⟨qs, h2, rfl⟩
      rw [stackReadable_value h1 h2]

theorem popToMem_ok_iff (p : Prefixes) (m : Mem) (w : Width) (len : Nat) (s t : State) :
    popToMem p m w len s = .ok t ↔
      ∃ ps qs, s.StackReadable w ps ∧ s.DestWritable p m w len qs ∧
        t = (({ s with
            mem := s.mem.writeAll (s.storeOrder (qs.zip (leBytes w.bytes (s.mem.value ps))))
            draws := s.draws + 1 } : State).writeSP s w).retire len false := by
  have h := s.popRead_ok_iff w
  unfold popToMem
  cases hp : s.popRead w with
  | error e =>
    simp only [reduceCtorEq, false_iff, not_exists, not_and]
    intro ps _ hps
    have := (h _).mpr ⟨ps, hps, rfl⟩
    rw [hp] at this; cases this
  | ok v =>
    have hw := fun u => s.segWrite_ok_iff (s.memSeg p m) (s.destAddr p m w len) w.bytes (addrSize s.ctx p) v u
      (Width.bytes_pos w)
    obtain ⟨ps, h1, rfl⟩ := (h v).mp hp
    simp only
    have hv : ∀ ps', s.StackReadable w ps' → s.mem.value ps' = s.mem.value ps := fun _ h' => stackReadable_value h1 h'
    cases hsw : s.segWrite (s.memSeg p m) (s.destAddr p m w len) w.bytes (addrSize s.ctx p) (s.mem.value ps) with
    | error e =>
      simp only [reduceCtorEq, false_iff, not_exists, not_and]
      rintro ps' qs - ⟨h2, h3⟩
      have := (hw _).mpr ⟨qs, h2, h3, rfl⟩
      rw [hsw] at this; cases this
    | ok u =>
      obtain ⟨qs, h2, h3, rfl⟩ := (hw u).mp hsw
      simp only [Except.ok.injEq]
      constructor
      · rintro rfl; exact ⟨ps, qs, h1, ⟨h2, h3⟩, rfl⟩
      · rintro ⟨ps', qs', h4, ⟨h5, h6⟩, rfl⟩
        have h7 := (hw _).mpr ⟨qs', h5, h6, rfl⟩
        rw [hsw] at h7
        rw [hv ps' h4, Except.ok.inj h7]

theorem popToSeg_ok_iff (n : SegName) (w : Width) (len : Nat) (s t : State) :
    popToSeg n w len s = .ok t ↔
      ∃ ps h u, s.StackReadable w ps ∧ s.segHidden n (popSelector (s.mem.value ps)) = .ok (h, u) ∧
        t = ((u.writeSP s w).setSeg n { sel := popSelector (s.mem.value ps), hidden := h }).retire len
          (decide (n = .ss)) := by
  have h := s.popRead_ok_iff w
  unfold popToSeg
  cases hp : s.popRead w with
  | error e =>
    simp only [reduceCtorEq, false_iff, not_exists, not_and]
    intro ps _ _ hps
    have := (h _).mpr ⟨ps, hps, rfl⟩
    rw [hp] at this; cases this
  | ok v =>
    obtain ⟨ps, h1, rfl⟩ := (h v).mp hp
    have hv : ∀ ps', s.StackReadable w ps' → s.mem.value ps' = s.mem.value ps := fun _ h' => stackReadable_value h1 h'
    simp only
    cases hs : s.segHidden n (popSelector (s.mem.value ps)) with
    | error e =>
      simp only [reduceCtorEq, false_iff, not_exists, not_and]
      intro ps' h' u h2 h3
      rw [hv ps' h2, hs] at h3; cases h3
    | ok hu =>
      obtain ⟨hh, u⟩ := hu
      simp only [Except.ok.injEq]
      constructor
      · rintro rfl; exact ⟨ps, hh, u, h1, hs, rfl⟩
      · rintro ⟨ps', h', u', h2, h3, rfl⟩
        rw [hv ps' h2, hs] at h3
        obtain ⟨rfl, rfl⟩ := Prod.mk.inj (Except.ok.inj h3)
        rw [hv ps' h2]

/-! ### Loading a segment register -/

theorem State.lookup_some_iff (s : State) (sel : Word16) (d : Descriptor) (byte5 : Nat) :
    s.lookup sel = .ok (some (d, byte5)) ↔
      ∃ base limit ps, s.table sel = some (base, limit) ∧ selIndex sel * 8 + 7 ≤ limit.toNat ∧
        s.BytesAt .read .supervisor (s.descLinear base sel) 8 ps ∧
        d = descriptorOf (s.mem.value ps) ∧ byte5 = ps.getD 5 0 := by
  unfold State.lookup
  cases ht : s.table sel with
  | none => simp
  | some bl =>
    obtain ⟨base, limit⟩ := bl
    have hb := s.physRun_ok_iff .read .supervisor (s.descLinear base sel) 8
    simp only [Option.some.injEq, Prod.mk.injEq]
    by_cases hl : limit.toNat < selIndex sel * 8 + 7
    · simp only [hl, if_true, Except.ok.injEq, reduceCtorEq, false_iff]
      rintro ⟨_, _, _, ⟨rfl, rfl⟩, h, -⟩
      omega
    · simp only [hl, if_false]
      cases hp : s.physRun .read .supervisor (s.descLinear base sel) 8 with
      | error e =>
        simp only [reduceCtorEq, false_iff]
        rintro ⟨_, _, ps, ⟨rfl, rfl⟩, -, h, -⟩
        rw [(hb ps).mpr h] at hp; cases hp
      | ok ps =>
        simp only [Except.ok.injEq, Option.some.injEq, Prod.mk.injEq]
        constructor
        · rintro ⟨rfl, rfl⟩; exact ⟨base, limit, ps, ⟨rfl, rfl⟩, by omega, (hb ps).mp hp, rfl, rfl⟩
        · rintro ⟨_, _, qs, ⟨rfl, rfl⟩, -, h, rfl, rfl⟩
          rw [(hb qs).mpr h] at hp
          cases hp
          exact ⟨rfl, rfl⟩

/-- Everything marking the accessed bit can do (41_pop_segment.md R147). -/
theorem State.markAccessed_ok {s t : State} {d : Descriptor} {byte5 : Nat} (h : s.markAccessed d byte5 = .ok t) :
    (d.accessed = false → s.inText byte5 = false) ∧ AccessedBitOnly s t byte5 ∧ t.regs = s.regs ∧ t.rip = s.rip ∧
      t.segs = s.segs ∧ SameControl s t ∧ (s.mem.wf = true → t.mem.wf = true) := by
  unfold State.markAccessed at h
  cases hd : d.accessed
  · rw [hd] at h
    cases ht : s.inText byte5
    · simp only [ht, Bool.false_eq_true, if_false, Except.ok.injEq] at h
      subst h
      refine ⟨fun _ => rfl, ⟨fun a ha => Memory.read_write_ne _ _ ha, fun hm => ?_⟩, rfl, rfl, rfl,
        ⟨rfl, rfl, rfl, rfl, rfl, rfl, rfl, rfl, rfl⟩, fun hm => Memory.write_wf _ _ hm⟩
      simp only [Memory.read_write_self _ _ hm]
      cases s.accessedBit d <;> simp
    · simp [ht] at h
  · rw [hd] at h
    simp only [if_true, Except.ok.injEq] at h
    subst h
    exact ⟨(fun h => nomatch h), ⟨fun _ _ => rfl, fun _ => .inl rfl⟩, rfl, rfl, rfl, SameControl.refl s, id⟩

theorem State.markAccessed_total {s : State} {d : Descriptor} {byte5 : Nat}
    (h : d.accessed = false → s.inText byte5 = false) : ∃ t, s.markAccessed d byte5 = .ok t := by
  unfold State.markAccessed
  cases hd : d.accessed
  · simp [h hd]
  · exact ⟨s, rfl⟩

/-- When DS, ES, FS or GS is loaded from a descriptor (41_pop_segment.md R143). -/
theorem State.loadDataSeg_ok_iff (s : State) (sel : Word16) (h : Hidden) (t : State) :
    s.loadDataSeg sel = .ok (h, t) ↔
      ∃ d byte5, s.lookup sel = .ok (some (d, byte5)) ∧ d.isDataOrReadableCode = true ∧
        (d.isDataOrNonconforming = true → privFail (selRPL sel) s.cpl d.dpl = false) ∧ d.present = true ∧
        h = hiddenOf d (s.accessedBit d) ∧ s.markAccessed d byte5 = .ok t := by
  unfold State.loadDataSeg
  cases hl : s.lookup sel with
  | error e => simp
  | ok o =>
    cases o with
    | none => simp
    | some db =>
      obtain ⟨d, byte5⟩ := db
      simp only [Except.ok.injEq, Option.some.injEq, Prod.mk.injEq]
      cases h1 : d.isDataOrReadableCode
      · simp only [if_true, reduceCtorEq, false_iff]
        rintro ⟨_, _, ⟨rfl, rfl⟩, h', -⟩
        simp [h1] at h'
      · simp only [Bool.true_eq_false, if_false]
        by_cases h2 : d.isDataOrNonconforming = true ∧ privFail (selRPL sel) s.cpl d.dpl = true
        · rw [if_pos h2]
          simp only [reduceCtorEq, false_iff]
          rintro ⟨_, _, ⟨rfl, rfl⟩, -, h', -⟩
          rw [h' h2.1] at h2; exact nomatch h2.2
        · rw [if_neg h2]
          cases h3 : d.present
          · simp only [if_true, reduceCtorEq, false_iff]
            rintro ⟨_, _, ⟨rfl, rfl⟩, -, -, h', -⟩
            simp [h3] at h'
          · simp only [Bool.true_eq_false, if_false]
            have h4 : d.isDataOrNonconforming = true → privFail (selRPL sel) s.cpl d.dpl = false := fun h =>
              Bool.eq_false_iff.mpr fun h' => h2 ⟨h, h'⟩
            cases hm : s.markAccessed d byte5 with
            | error e =>
              simp only [Except.map, reduceCtorEq, false_iff]
              rintro ⟨_, _, ⟨rfl, rfl⟩, -, -, -, -, h'⟩
              rw [hm] at h'; cases h'
            | ok u =>
              simp only [Except.map, Except.ok.injEq, Prod.mk.injEq]
              constructor
              · rintro ⟨rfl, rfl⟩; exact ⟨d, byte5, ⟨rfl, rfl⟩, h1, h4, h3, rfl, hm⟩
              · rintro ⟨_, _, ⟨rfl, rfl⟩, -, -, -, rfl, h'⟩
                rw [hm] at h'
                exact ⟨rfl, Except.ok.inj h'⟩

/-- When SS is loaded in `Prot` and `Compat` (41_pop_segment.md R145). -/
theorem State.loadSS_ok_iff (s : State) (sel : Word16) (h : Hidden) (t : State) :
    s.loadSS sel = .ok (h, t) ↔
      selNull sel = false ∧ ∃ d byte5, s.lookup sel = .ok (some (d, byte5)) ∧ selRPL sel = s.cpl ∧
        d.isWritableData = true ∧ d.dpl = s.cpl ∧ d.present = true ∧
        h = hiddenOf d (s.accessedBit d) ∧ s.markAccessed d byte5 = .ok t := by
  unfold State.loadSS
  cases hn : selNull sel
  · simp only [Bool.false_eq_true, if_false, true_and]
    cases hl : s.lookup sel with
    | error e => simp
    | ok o =>
      cases o with
      | none => simp
      | some db =>
        obtain ⟨d, byte5⟩ := db
        simp only [Except.ok.injEq, Option.some.injEq, Prod.mk.injEq]
        by_cases h1 : selRPL sel = s.cpl
        · rw [if_neg (not_not.mpr h1)]
          cases h2 : d.isWritableData
          · simp only [if_true, reduceCtorEq, false_iff]
            rintro ⟨_, _, ⟨rfl, rfl⟩, -, h', -⟩
            simp [h2] at h'
          · simp only [Bool.true_eq_false, if_false]
            by_cases h3 : d.dpl = s.cpl
            · rw [if_neg (not_not.mpr h3)]
              cases h4 : d.present
              · simp only [if_true, reduceCtorEq, false_iff]
                rintro ⟨_, _, ⟨rfl, rfl⟩, -, -, -, h', -⟩
                simp [h4] at h'
              · simp only [Bool.true_eq_false, if_false]
                cases hm : s.markAccessed d byte5 with
                | error e =>
                  simp only [Except.map, reduceCtorEq, false_iff]
                  rintro ⟨_, _, ⟨rfl, rfl⟩, -, -, -, -, -, h'⟩
                  rw [hm] at h'; cases h'
                | ok u =>
                  simp only [Except.map, Except.ok.injEq, Prod.mk.injEq]
                  constructor
                  · rintro ⟨rfl, rfl⟩; exact ⟨d, byte5, ⟨rfl, rfl⟩, h1, h2, h3, h4, rfl, hm⟩
                  · rintro ⟨_, _, ⟨rfl, rfl⟩, -, -, -, -, rfl, h'⟩
                    rw [hm] at h'
                    exact ⟨rfl, Except.ok.inj h'⟩
            · rw [if_pos h3]
              simp only [reduceCtorEq, false_iff]
              rintro ⟨_, _, ⟨rfl, rfl⟩, -, -, h', -⟩
              exact h3 h'
        · rw [if_pos h1]
          simp only [reduceCtorEq, false_iff]
          rintro ⟨_, _, ⟨rfl, rfl⟩, h', -⟩
          exact h1 h'
  · simp

/-- Everything loading a segment register does besides the register itself. -/
theorem State.segHidden_ok {s t : State} {n : SegName} {sel : Word16} {h : Hidden}
    (hs : s.segHidden n sel = .ok (h, t)) :
    t.regs = s.regs ∧ t.rip = s.rip ∧ t.segs = s.segs ∧ SameControl s t ∧ (s.mem.wf = true → t.mem.wf = true) ∧
      (t.mem = s.mem ∨ ∃ d byte5, s.lookup sel = .ok (some (d, byte5)) ∧ AccessedBitOnly s t byte5) := by
  unfold State.segHidden at hs
  split at hs
  · obtain ⟨-, rfl⟩ := Prod.mk.inj (Except.ok.inj hs)
    exact ⟨rfl, rfl, rfl, SameControl.refl s, id, .inl rfl⟩
  split at hs
  · obtain ⟨-, rfl⟩ := Prod.mk.inj (Except.ok.inj hs)
    exact ⟨rfl, rfl, rfl, ⟨rfl, rfl, rfl, rfl, rfl, rfl, rfl, rfl, rfl⟩, id, .inl rfl⟩
  · split at hs
    · obtain ⟨-, d, byte5, hl, -, -, -, -, -, hm⟩ := (s.loadSS_ok_iff sel h t).mp hs
      obtain ⟨-, h1, h2, h3, h4, h5, h6⟩ := State.markAccessed_ok hm
      exact ⟨h2, h3, h4, h5, h6, .inr ⟨d, byte5, hl, h1⟩⟩
    · split at hs
      · obtain ⟨-, rfl⟩ := Prod.mk.inj (Except.ok.inj hs)
        exact ⟨rfl, rfl, rfl, ⟨rfl, rfl, rfl, rfl, rfl, rfl, rfl, rfl, rfl⟩, id, .inl rfl⟩
      · obtain ⟨d, byte5, hl, -, -, -, -, hm⟩ := (s.loadDataSeg_ok_iff sel h t).mp hs
        obtain ⟨-, h1, h2, h3, h4, h5, h6⟩ := State.markAccessed_ok hm
        exact ⟨h2, h3, h4, h5, h6, .inr ⟨d, byte5, hl, h1⟩⟩

end Machine

end Sys2Proof
end

