-- ==== Sys2Proof/Laws/Faults.lean ====
section
/-! SUPPORT. How a meaning runs and how it stops: the values and selectors popped, an early stop of the stack read, and
every exception a shared operation can raise. -/

namespace Sys2Proof.Machine

/-! ### Running -/

/-- The pseudocode of a segment destination, for an instruction that gets past decoding. -/
theorem body_of_runs {i : Instr} {s : State} {n : SegName} (hi : i.segDest = some n) (hr : s.Runs i) :
    i.body s = popToSeg n (i.width s.ctx) i.len s := by
  rw [body_of_segDest hi, if_neg fun h => hr.valid h.1 h.2]

theorem exec_of_body {i : Instr} {s t : State} (hr : s.Runs i) (h : i.body s = .ok t) : exec i s = .next t :=
  (exec_next_iff i s t).mpr ⟨hr.wf, hr.noLock, h⟩

/-- A completed instruction got past decoding. -/
theorem runs_of_next {i : Instr} {s t : State} (h : exec i s = .next t) : s.Runs i ∧ i.body s = .ok t := by
  obtain ⟨h1, h2, h3⟩ := (exec_next_iff _ _ _).mp h
  refine ⟨⟨h1, h2, fun hv hm => ?_⟩, h3⟩
  have hud : i.body s = .error (.raise .ud) := by
    cases i <;> simp_all [Instr.invalidIn64, Instr.body, popToLegacySeg]
  rw [hud] at h3
  cases h3

/-! ### The value and the selector popped -/

theorem Width.bytes_le (w : Width) : w.bytes ≤ 8 := by cases w <;> decide

theorem stackReadable_toNat {s : State} {w : Width} {ps : List Nat} (h : s.StackReadable w ps) :
    (s.mem.value ps).toNat = leNat (ps.map s.mem.read) :=
  Memory.value_toNat _ _ (by rw [h.bytes.length]; exact Width.bytes_le w)

theorem stackReadable_lt {s : State} {w : Width} {ps : List Nat} (h : s.StackReadable w ps) :
    leNat (ps.map s.mem.read) < 2 ^ w.bits := by
  have hlt := leNat_lt (ps.map s.mem.read)
  rw [List.length_map, h.bytes.length] at hlt
  cases w <;> simpa [Width.bytes, Width.bits] using hlt

theorem popSelector_eq {s : State} {w : Width} {ps : List Nat} (h : s.StackReadable w ps) :
    popSelector (s.mem.value ps) = s.poppedSelector ps := by
  apply BitVec.eq_of_toNat_eq
  unfold popSelector State.poppedSelector
  simp [stackReadable_toNat h]

/-- NULL selectors are 0000H to 0003H (10_state.md R28). -/
theorem selNull_iff (sel : Word16) : selNull sel = true ↔ sel.toNat ≤ 3 := by
  unfold selNull
  rw [decide_eq_true_iff]
  constructor
  · intro h
    have h0 := congrArg BitVec.toNat h
    simp [BitVec.extractLsb'_toNat, Nat.shiftRight_eq_div_pow] at h0
    have := sel.isLt
    omega
  · intro h
    apply BitVec.eq_of_toNat_eq
    simp [BitVec.extractLsb'_toNat, Nat.shiftRight_eq_div_pow]
    omega

/-- The error code clears the two low bits (60_exceptions.md R177). -/
theorem selCode_eq (sel : Word16) : selCode sel = BitVec.ofNat 32 (sel.toNat / 4 * 4) := by
  unfold selCode
  have key : sel &&& (0xFFFC : BitVec 16) = (sel >>> 2) <<< 2 := by
    ext i hi
    simp
    interval_cases i <;> simp
  rw [key]
  apply BitVec.eq_of_toNat_eq
  have := sel.isLt
  simp [Nat.shiftRight_eq_div_pow, Nat.shiftLeft_eq]
  omega

theorem acceptsData_iff (s : State) (sel : Word16) (d : Descriptor) :
    s.AcceptsData sel d ↔ d.isDataOrReadableCode = true ∧
      (d.isDataOrNonconforming = true → privFail (selRPL sel) s.cpl d.dpl = false) := by
  have key : ∀ a b c : BitVec 2, privFail a b c = false ↔ a ≤ c ∧ b ≤ c := by decide
  unfold State.AcceptsData Descriptor.isDataOrReadableCode Descriptor.isDataOrNonconforming
  rw [key]
  cases d.kind <;> cases d.readable <;> cases d.conforming <;> simp

theorem acceptsStack_iff (s : State) (sel : Word16) (d : Descriptor) :
    s.AcceptsStack sel d ↔ selRPL sel = s.cpl ∧ d.isWritableData = true ∧ d.dpl = s.cpl := by
  unfold State.AcceptsStack Descriptor.isWritableData
  simp
  tauto

/-! ### A stack read that stops -/

/-- Every instruction reads the stack first (60_exceptions.md R178). -/
theorem exec_of_popRead_error {i : Instr} {s : State} {e : Stop} (hr : s.Runs i)
    (h : s.popRead (i.width s.ctx) = .error e) : exec i s = finish s (.error e) := by
  rw [exec_of_wf hr.wf hr.noLock]
  congr 1
  rcases dest_cases i with ⟨r, h1, -⟩ | ⟨m, -, h1, -⟩ | ⟨n, -, -, h1⟩
  · rw [body_of_regDest h1]; unfold popToReg; rw [h]
  · rw [body_of_memDest h1]; unfold popToMem; rw [h]
  · rw [body_of_runs h1 hr]; unfold popToSeg; rw [h]

theorem popRead_of_checkFault {s : State} {w : Width} {e : Exc}
    (h : s.checkFault .ss s.stackPointer w.bytes .read = some e) : s.popRead w = .error (.raise e) := by
  unfold State.popRead State.segRead State.check
  rw [h]

/-- The first byte that `Translate` refuses decides (20_memory.md R61). -/
theorem translateRun_first {s : State} {acc : Access} {pr : Privilege} (ls : List Word64) (k : Nat) (code : Word32)
    (hk : k < ls.length) (h : ∀ j < k, ∃ phys, s.translate acc pr (ls.getD j 0) = .ok phys)
    (he : s.translate acc pr (ls.getD k 0) = .error code) :
    s.translateRun acc pr ls = .error (.raise (.pf code (ls.getD k 0))) := by
  induction ls generalizing k with
  | nil => simp at hk
  | cons l ls ih =>
    unfold State.translateRun
    cases k with
    | zero => simp only [List.getD_cons_zero] at he ⊢; rw [he]
    | succ k =>
      obtain ⟨phys, h0⟩ := h 0 (by omega)
      simp only [List.getD_cons_zero] at h0
      rw [h0]
      simp only [List.getD_cons_succ] at he ⊢
      rw [ih k (by simpa using hk) (fun j hj => by simpa only [List.getD_cons_succ] using h (j + 1) (by omega)) he]
      rfl

/-! ### What can be raised -/

theorem finish_fault {s : State} {b : Res State} {f : Fault} (h : finish s b = .fault f) :
    ∃ e, b = .error (.raise e) ∧ takeException e s = .fault f := by
  unfold finish at h
  split at h
  · cases h
  · rename_i e; exact ⟨e, rfl, h⟩
  · cases h

theorem exec_fault {i : Instr} {s : State} {f : Fault} (h : exec i s = .fault f) :
    f = .invalidOpcode s ∨ ∃ e, i.body s = .error (.raise e) ∧ takeException e s = .fault f := by
  rw [exec_eq] at h
  unfold perform at h
  split at h
  · split at h
    · left; cases h; rfl
    · exact .inr (finish_fault h)
  · cases h

/-- The exceptions of an access (60_exceptions.md R176). -/
def State.AccessExc (s : State) (e : Exc) : Prop :=
  e = .ss 0 ∨ e = .gp 0 ∨ (e = .ac 0 ∧ s.cpl = 3) ∨ ∃ c l, e = .pf c l ∧ s.pagingOn = true

theorem State.checkFault_raise {s : State} {n : SegName} {off : Word64} {len : Nat} {acc : Access} {e : Exc}
    (h : s.checkFault n off len acc = some e) : e = .ss 0 ∨ e = .gp 0 := by
  have hl : limitFault n = .ss 0 ∨ limitFault n = .gp 0 := by unfold limitFault; split <;> simp
  unfold State.checkFault at h
  split at h
  · split at h
    · cases h
    · have := Option.some.inj h
      subst this
      split <;> simp
  · split at h
    · exact .inr (Option.some.inj h).symm
    · split at h
      · exact .inr (Option.some.inj h).symm
      · split at h
        · cases h
        · exact Option.some.inj h ▸ hl

theorem State.check_raise {s : State} {n : SegName} {off : Word64} {len : Nat} {sz : Width} {acc : Access} {e : Exc}
    (h : s.check n off len sz acc = .error (.raise e)) : e = .ss 0 ∨ e = .gp 0 := by
  unfold State.check at h
  split at h
  · rename_i e' he
    cases h
    exact State.checkFault_raise he
  · split at h <;> cases h

theorem State.translateRun_raise {s : State} {acc : Access} {pr : Privilege} {ls : List Word64} {e : Exc}
    (h : s.translateRun acc pr ls = .error (.raise e)) : ∃ c l, e = .pf c l ∧ s.pagingOn = true := by
  induction ls with
  | nil => cases h
  | cons l ls ih =>
    unfold State.translateRun at h
    split at h
    · rename_i c hc
      cases h
      refine ⟨_, _, rfl, ?_⟩
      unfold State.translate at hc
      split at hc
      · assumption
      · cases hc
    · cases hr : s.translateRun acc pr ls with
      | error e' => rw [hr] at h; simp only [Except.map, Except.error.injEq] at h; subst h; exact ih hr
      | ok _ => rw [hr] at h; cases h

theorem State.physRun_raise {s : State} {acc : Access} {pr : Privilege} {lin : Word64} {n : Nat} {e : Exc}
    (h : s.physRun acc pr lin n = .error (.raise e)) : ∃ c l, e = .pf c l ∧ s.pagingOn = true := by
  unfold State.physRun at h
  split at h
  · cases h; rename_i h; exact State.translateRun_raise h
  · split at h <;> cases h

theorem State.alignCheck_raise {s : State} {lin off : Word64} {n : Nat} {e : Exc}
    (h : s.alignCheck lin off n = .error (.raise e)) : e = .ac 0 ∧ s.cpl = 3 := by
  unfold State.alignCheck at h
  split at h
  · cases h; rename_i h; simp [State.alignCheckEnabled] at h; exact ⟨rfl, h.1.2⟩
  · cases h

theorem State.segRead_raise {s : State} {n : SegName} {off : Word64} {len : Nat} {sz : Width} {e : Exc}
    (h : s.segRead n off len sz = .error (.raise e)) : s.AccessExc e := by
  unfold State.segRead at h
  split at h
  · cases h; rename_i h; rcases State.check_raise h with h | h <;> simp [State.AccessExc, h]
  · split at h
    · cases h; rename_i h; simp [State.AccessExc, State.alignCheck_raise h]
    · unfold State.memRead at h
      cases hp : s.physRun .read s.priv (s.linear n off) len with
      | error e' =>
        rw [hp] at h
        simp only [Except.map, Except.error.injEq] at h
        subst h
        exact .inr (.inr (.inr (State.physRun_raise hp)))
      | ok _ => rw [hp] at h; cases h

theorem State.segWrite_raise {s : State} {n : SegName} {off : Word64} {len : Nat} {sz : Width} {v : Word64} {e : Exc}
    (h : s.segWrite n off len sz v = .error (.raise e)) : s.AccessExc e := by
  unfold State.segWrite at h
  split at h
  · cases h; rename_i h; rcases State.check_raise h with h | h <;> simp [State.AccessExc, h]
  · split at h
    · cases h; rename_i h; simp [State.AccessExc, State.alignCheck_raise h]
    · unfold State.memWrite at h
      split at h
      · cases h; rename_i h; exact .inr (.inr (.inr (State.physRun_raise h)))
      · split at h <;> cases h

end Sys2Proof.Machine
end

