-- ==== Sys2Proof/Laws/ModRm.lean ====
section
/-! SUPPORT. Memory operands: what the encoder writes is what the decoder reads, and what the decoder reads is what stood
there (30_encoding.md R88, R95, R99 to R102). -/

namespace Sys2Proof

/-- A POP's prefixes are those that R88 does not refuse, with REX in `Long64` only. -/
theorem prefixes_encodable_iff {c : Ctx} {p : Prefixes} : p.encodable c = true ↔ prefixError p = none ∧ (p.rex.isNone = true ∨ c.mode = .long64) := by
  simp only [Prefixes.encodable, prefixError, Bool.and_eq_true, Bool.or_eq_true, decide_eq_true_eq, Bool.not_eq_true']
  constructor
  · rintro ⟨⟨⟨⟨h1,h2⟩,h3⟩,h4⟩,h5⟩
    refine ⟨?_,h5⟩
    rw [if_neg (by simp [h1,h2]), if_neg (by simpa using h3), if_neg (by omega)]
  · rintro ⟨h,h5⟩
    split at h
    · cases h
    · split at h
      · cases h
      · split at h
        · cases h
        · rename_i h1 h2 h3
          refine ⟨⟨⟨⟨?_,?_⟩,by simpa using h2⟩,by omega⟩,h5⟩
          · simp at h1; exact h1.1
          · simp at h1; exact h1.2

theorem indexOf_field {p : Prefixes} {ix : Option Reg} (h : indexEncodable p ix = true) : indexOf p.rexX (indexField ix) = ix := by
  unfold indexOf
  cases ix with
  | none =>
    have : p.rexX = false := by simpa [indexEncodable] using h
    simp [indexField, this]; decide
  | some r =>
    have ⟨h1, h2⟩ : r.high = p.rexX ∧ r ≠ 4 := by simpa [indexEncodable] using h
    simp only [indexField, ← h1, extend_high_field, if_neg h2]

theorem disp32_md_ne (d : Disp32) : d.md ≠ 3#2 := by cases d <;> (simp [Disp32.md])
theorem disp16_md_ne (d : Disp16) : d.md ≠ 3#2 := by cases d <;> (simp [Disp16.md])
theorem disp32_md_zero (d : Disp32) : d.md = 0 ↔ d = .absent := by cases d <;> (simp [Disp32.md])
theorem disp16_md_zero (d : Disp16) : d.md = 0 ↔ d = .absent := by cases d <;> (simp [Disp16.md])

theorem base16_field_six (b : Base16) : b.field = 6 ↔ b = .bp := by cases b <;> decide

/-- The operand written is the operand read (R95). -/
theorem decodeModRm_bytes {c : Ctx} {p : Prefixes} {d : RmDest} (rest : List Byte) (h : d.encodable c p = true) :
    decodeModRm c p (d.bytes ++ rest) = .ok (d, rest) := by
  cases d with
  | reg r =>
    have h : r.high = p.rexB := by simpa [RmDest.encodable] using h
    simp [RmDest.bytes, decodeModRm, ← h, extend_high_field]
  | mem m =>
    cases m with
    | base16 b d =>
      have ⟨h1, h2⟩ : addrSize c p = .w16 ∧ (¬ b = .bp ∨ ¬ d = .absent) := by simpa [RmDest.encodable, Mem.encodable] using h
      have : ¬ (d.md = 0#2 ∧ b.field = 6#3) := by erw [disp16_md_zero, base16_field_six]; tauto
      simp [RmDest.bytes, Mem.bytes, decodeModRm, disp16_md_ne, h1, decodeMem16, this, Except.map]
    | disp16 a =>
      have h1 : addrSize c p = .w16 := by simpa [RmDest.encodable, Mem.encodable] using h
      simp [RmDest.bytes, Mem.bytes, decodeModRm, h1, decodeMem16, Except.map]
    | base r d =>
      have ⟨⟨h1, h2⟩, h3, h4⟩ : (addrSize c p ≠ .w16 ∧ Reg.field r ≠ 4#3) ∧ r.high = p.rexB ∧ (¬ Reg.field r = 5#3 ∨ ¬ d = .absent) := by
        simpa [RmDest.encodable, Mem.encodable, baseEncodable] using h
      have : ¬ (Reg.field r = 5#3 ∧ d.md = 0#2) := by erw [disp32_md_zero]; tauto
      simp [RmDest.bytes, Mem.bytes, decodeModRm, disp32_md_ne, h1, decodeMem32, h2, this, Except.map, ← h3, extend_high_field]
    | disp32 a =>
      have h1 : addrSize c p ≠ .w16 := by simpa [RmDest.encodable, Mem.encodable] using h
      simp [RmDest.bytes, Mem.bytes, decodeModRm, h1, decodeMem32, Except.map]
    | sib sc ix r d =>
      have ⟨⟨h1, h2⟩, h3, h4⟩ : (addrSize c p ≠ .w16 ∧ indexEncodable p ix = true) ∧ r.high = p.rexB ∧ (¬ Reg.field r = 5#3 ∨ ¬ d = .absent) := by
        simpa [RmDest.encodable, Mem.encodable, baseEncodable] using h
      have : ¬ (Reg.field r = 5#3 ∧ d.md = 0#2) := by erw [disp32_md_zero]; tauto
      simp [RmDest.bytes, Mem.bytes, decodeModRm, disp32_md_ne, h1, decodeMem32, decodeSib, this, Except.map, ← h3, extend_high_field, indexOf_field h2]
    | sibNoBase sc ix a =>
      have ⟨h1, h2⟩ : addrSize c p ≠ .w16 ∧ indexEncodable p ix = true := by
        simpa [RmDest.encodable, Mem.encodable] using h
      simp [RmDest.bytes, Mem.bytes, decodeModRm, h1, decodeMem32, decodeSib, Except.map, indexOf_field h2]

/-- A REX byte is taken in `Long64` only (R84). -/
theorem takeRex_long {m : Mode} {bs : List Byte} : (takeRex m bs).1.isNone = true ∨ m = .long64 := by
  cases bs with
  | nil => exact .inl rfl
  | cons b bs =>
    by_cases h : m = .long64
    · exact .inr h
    · left; simp [takeRex, h]

theorem decodeMem16_ok {c : Ctx} {p : Prefixes} {md rm bs m rest} (hm : md ≠ 3) (ha : addrSize c p = .w16) (h : decodeMem16 md rm bs = .ok (m, rest)) :
    m.encodable c p = true ∧ modRm md rm :: bs = m.bytes ++ rest := by
  unfold decodeMem16 at h
  split at h
  · rename_i h1
    obtain ⟨⟨x, y⟩, h2, h3⟩ := map_ok h
    cases h3
    rw [takeWord_ok h2, h1.1, h1.2]
    simp [Mem.encodable, ha, Mem.bytes]
  · rename_i h1
    obtain ⟨⟨x, y⟩, h2, h3⟩ := map_ok h
    cases h3
    obtain ⟨h4, h5⟩ := takeDisp16_ok hm h2
    rw [h5]
    subst h4
    refine ⟨?_, by simp [Mem.bytes, field_base16OfField]⟩
    simp only [Mem.encodable, ha, decide_true, Bool.true_and, Bool.not_eq_true', Bool.and_eq_false_iff, decide_eq_false_iff_not]
    by_contra hc
    simp only [not_or, not_not] at hc
    apply h1
    rw [disp16_md_zero]
    refine ⟨hc.2, ?_⟩
    have := congrArg Base16.field hc.1
    rw [field_base16OfField] at this
    exact this

theorem indexOf_ok (p : Prefixes) (f : BitVec 3) : indexEncodable p (indexOf p.rexX f) = true ∧ indexField (indexOf p.rexX f) = f := by
  have : ∀ (b : Bool) (f : BitVec 3), (indexOf b f = none → b = false ∧ f = 4) ∧ (∀ r, indexOf b f = some r → r.high = b ∧ r ≠ 4 ∧ Reg.field r = f) := by decide
  have h := this p.rexX f
  cases hx : indexOf p.rexX f with
  | none => have := h.1 hx; simp [indexEncodable, indexField, this]
  | some r =>
    obtain ⟨a, b, e⟩ := h.2 r hx
    exact ⟨by simp only [indexEncodable, a, decide_true, Bool.true_and, decide_eq_true_eq]; exact b, e⟩

theorem baseEncodable_extend {p : Prefixes} {f : BitVec 3} {d : Disp32} (h : ¬ (f = 5 ∧ d.md = 0)) : baseEncodable p (extend p.rexB f) d = true := by
  rw [disp32_md_zero] at h
  simp only [baseEncodable, high_extend, field_extend, decide_true, Bool.true_and, Bool.not_eq_true', Bool.and_eq_false_iff, decide_eq_false_iff_not]
  tauto

theorem decodeMem32_ok {c : Ctx} {p : Prefixes} {md rm bs m rest} (hm : md ≠ 3) (ha : addrSize c p ≠ .w16) (h : decodeMem32 p md rm bs = .ok (m, rest)) :
    m.encodable c p = true ∧ modRm md rm :: bs = m.bytes ++ rest := by
  unfold decodeMem32 at h
  split at h
  · rename_i h1
    subst h1
    unfold decodeSib at h
    split at h
    · cases h
    · rename_i sib bs
      have ⟨hi1, hi2⟩ := indexOf_ok p (sib.extractLsb' 3 3)
      split at h
      · rename_i h1
        obtain ⟨⟨x, y⟩, h2, h3⟩ := map_ok h
        cases h3
        rw [takeDword_ok h2, h1.2]
        refine ⟨by simp [Mem.encodable, ha, hi1], ?_⟩
        simp only [Mem.bytes, hi2, List.cons_append]
        rw [← h1.1, sibByte_of_byte]
      · rename_i h1
        obtain ⟨⟨x, y⟩, h2, h3⟩ := map_ok h
        cases h3
        obtain ⟨h4, h5⟩ := takeDisp32_ok hm h2
        rw [h5]
        subst h4
        refine ⟨by simp [Mem.encodable, ha, hi1, baseEncodable_extend h1], ?_⟩
        simp only [Mem.bytes, hi2, List.cons_append, field_extend, sibByte_of_byte]
  · rename_i h0
    split at h
    · rename_i h1
      obtain ⟨⟨x, y⟩, h2, h3⟩ := map_ok h
      cases h3
      rw [takeDword_ok h2, h1.1, h1.2]
      simp [Mem.encodable, ha, Mem.bytes]
    · rename_i h1
      obtain ⟨⟨x, y⟩, h2, h3⟩ := map_ok h
      cases h3
      obtain ⟨h4, h5⟩ := takeDisp32_ok hm h2
      rw [h5]
      subst h4
      refine ⟨?_, by simp [Mem.bytes]⟩
      simp only [Mem.encodable, baseEncodable_extend h1, field_extend, Bool.and_eq_true, decide_eq_true_eq]
      exact ⟨⟨ha, h0⟩, trivial⟩

/-- The operand read is spelled by the bytes consumed (R95). -/
theorem decodeModRm_ok {c : Ctx} {p : Prefixes} {bs d rest} (h : decodeModRm c p bs = .ok (d, rest)) :
    d.encodable c p = true ∧ bs = d.bytes ++ rest := by
  unfold decodeModRm at h
  split at h
  · cases h
  · rename_i m bs
    split at h
    · cases h
    · rename_i h0
      have hb := modRm_of_byte (not_not.1 h0)
      split at h
      · rename_i h1
        cases h
        refine ⟨by simp [RmDest.encodable], ?_⟩
        simp only [RmDest.bytes, field_extend, List.cons_append, List.nil_append]
        rw [← h1, hb]
      · rename_i h1
        split at h
        · rename_i h2
          obtain ⟨⟨x, y⟩, h3, h4⟩ := map_ok h
          cases h4
          have := decodeMem16_ok h1 h2 h3
          rw [hb] at this; exact this
        · rename_i h2
          obtain ⟨⟨x, y⟩, h3, h4⟩ := map_ok h
          cases h4
          have := decodeMem32_ok h1 h2 h3
          rw [hb] at this; exact this

end Sys2Proof
end

