-- ==== Sys2Proof/Laws/PerInstr.lean ====
section
/-! SUPPORT. Statements about every instruction as a term, one lemma per constructor. -/

namespace Sys2Proof.Laws.EncodedLength

open Sys2Proof

theorem prefixes_length (p : Prefixes) : p.bytes.length = p.size := by
  obtain ⟨leg, rex⟩ := p
  cases rex <;> simp [Prefixes.bytes, Prefixes.size, rexBytes]

theorem disp16_length (d : Disp16) : d.bytes.length = d.size := by cases d <;> rfl

theorem disp32_length (d : Disp32) : d.bytes.length = d.size := by cases d <;> rfl

/-- A format M operand takes its ModRM byte and what follows it. -/
theorem rmDest_length (d : RmDest) : d.bytes.length = 1 + d.size := by
  cases d with
  | reg r => rfl
  | mem m =>
    cases m <;> simp only [RmDest.bytes, Mem.bytes, RmDest.size, Mem.size, List.length_cons, disp16_length,
      disp32_length, wordBytes, dwordBytes, List.length_nil] <;> omega

/-- The bytes of an instruction are as many as its length says (30_encoding.md R104). -/
def Statement (i : Instr) : Prop := (encode i).length = i.len

theorem popRm16 (p : Prefixes) (d : RmDest) : Statement (.popRm16 p d) := by
  simp [Statement, encode, Instr.len, Instr.prefixes, Instr.bodyBytes, Instr.bodySize, prefixes_length, rmDest_length]
  omega

theorem popRm32 (p : Prefixes) (d : RmDest) : Statement (.popRm32 p d) := by
  simp [Statement, encode, Instr.len, Instr.prefixes, Instr.bodyBytes, Instr.bodySize, prefixes_length, rmDest_length]
  omega

theorem popRm64 (p : Prefixes) (d : RmDest) : Statement (.popRm64 p d) := by
  simp [Statement, encode, Instr.len, Instr.prefixes, Instr.bodyBytes, Instr.bodySize, prefixes_length, rmDest_length]
  omega

theorem popR16 (p : Prefixes) (r : Reg) : Statement (.popR16 p r) := by
  simp [Statement, encode, Instr.len, Instr.prefixes, Instr.bodyBytes, Instr.bodySize, prefixes_length]

theorem popR32 (p : Prefixes) (r : Reg) : Statement (.popR32 p r) := by
  simp [Statement, encode, Instr.len, Instr.prefixes, Instr.bodyBytes, Instr.bodySize, prefixes_length]

theorem popR64 (p : Prefixes) (r : Reg) : Statement (.popR64 p r) := by
  simp [Statement, encode, Instr.len, Instr.prefixes, Instr.bodyBytes, Instr.bodySize, prefixes_length]

theorem popDs (p : Prefixes) : Statement (.popDs p) := by
  simp [Statement, encode, Instr.len, Instr.prefixes, Instr.bodyBytes, Instr.bodySize, prefixes_length]

theorem popEs (p : Prefixes) : Statement (.popEs p) := by
  simp [Statement, encode, Instr.len, Instr.prefixes, Instr.bodyBytes, Instr.bodySize, prefixes_length]

theorem popSs (p : Prefixes) : Statement (.popSs p) := by
  simp [Statement, encode, Instr.len, Instr.prefixes, Instr.bodyBytes, Instr.bodySize, prefixes_length]

theorem popFs16 (p : Prefixes) : Statement (.popFs16 p) := by
  simp [Statement, encode, Instr.len, Instr.prefixes, Instr.bodyBytes, Instr.bodySize, prefixes_length]

theorem popFs32 (p : Prefixes) : Statement (.popFs32 p) := by
  simp [Statement, encode, Instr.len, Instr.prefixes, Instr.bodyBytes, Instr.bodySize, prefixes_length]

theorem popFs64 (p : Prefixes) : Statement (.popFs64 p) := by
  simp [Statement, encode, Instr.len, Instr.prefixes, Instr.bodyBytes, Instr.bodySize, prefixes_length]

theorem popGs16 (p : Prefixes) : Statement (.popGs16 p) := by
  simp [Statement, encode, Instr.len, Instr.prefixes, Instr.bodyBytes, Instr.bodySize, prefixes_length]

theorem popGs32 (p : Prefixes) : Statement (.popGs32 p) := by
  simp [Statement, encode, Instr.len, Instr.prefixes, Instr.bodyBytes, Instr.bodySize, prefixes_length]

theorem popGs64 (p : Prefixes) : Statement (.popGs64 p) := by
  simp [Statement, encode, Instr.len, Instr.prefixes, Instr.bodyBytes, Instr.bodySize, prefixes_length]

end Sys2Proof.Laws.EncodedLength
end

