-- ==== Sys2Proof/Tests/Slice0.lean ====
section
/-! SUPPORT. Our own tests: ill-formed terms that WellFormed refuses, words written out from the spec's encodings,
single steps of the derived vectors of 95_test_vectors.md, and for each obligation with hypotheses a state that meets
them. -/

namespace Sys2Proof.Tests

open Sys2Proof Sys2Proof.Machine

/-! ### Prefixes and contexts -/

def bare : Prefixes := { legacy := [], rex := none }

def legacy (ps : List LegacyPrefix) : Prefixes := { legacy := ps, rex := none }

def rex (w r x b : Bool) : Prefixes := { legacy := [], rex := some { w := w, r := r, x := x, b := b } }

def c64 : Ctx := { mode := .long64, codeD := false }

def c32 : Ctx := { mode := .prot, codeD := true }

def c16 : Ctx := { mode := .real, codeD := false }

/-! ### Ill-formed terms, one for each check -/

theorem test_wf_rep : ¬ WellFormed c64 (.popR64 (legacy [.rep]) 0) := by decide

theorem test_wf_repne : ¬ WellFormed c64 (.popR64 (legacy [.repne]) 0) := by decide

theorem test_wf_twice : ¬ WellFormed c64 (.popR16 (legacy [.opSize, .opSize]) 0) := by decide

theorem test_wf_two_overrides : ¬ WellFormed c64 (.popRm64 (legacy [.seg .es, .seg .ds]) (.mem (.base 0 .absent))) := by
  decide

theorem test_wf_rex_outside_long64 : ¬ WellFormed c32 (.popR32 (rex false false false false) 0) := by decide

theorem test_wf_row_rm : ¬ WellFormed c64 (.popRm32 bare (.reg 0)) ∧ ¬ WellFormed c32 (.popRm16 bare (.reg 0)) ∧
    ¬ WellFormed c16 (.popRm64 bare (.reg 0)) := by decide

theorem test_wf_row_r : ¬ WellFormed c32 (.popR16 bare 0) ∧ ¬ WellFormed c64 (.popR32 bare 0) ∧
    ¬ WellFormed c32 (.popR64 bare 0) := by decide

theorem test_wf_row_fs : ¬ WellFormed c64 (.popFs16 bare) ∧ ¬ WellFormed c64 (.popFs32 bare) ∧
    ¬ WellFormed c32 (.popFs64 bare) := by decide

theorem test_wf_row_gs : ¬ WellFormed c64 (.popGs16 bare) ∧ ¬ WellFormed c64 (.popGs32 bare) ∧
    ¬ WellFormed c32 (.popGs64 bare) := by decide

/-- R8 to R15 need REX.B, and REX.B needs one of them. -/
theorem test_wf_register : ¬ WellFormed c64 (.popR64 bare 8) ∧ ¬ WellFormed c64 (.popR64 (rex false false false true) 7) ∧
    ¬ WellFormed c64 (.popRm64 bare (.reg 8)) := by decide

/-- Register 4 cannot be an index, an index register needs its REX.X, and no index has REX.X = 0. -/
theorem test_wf_index : ¬ WellFormed c64 (.popRm64 bare (.mem (.sib 0 (some 4) 0 .absent))) ∧
    ¬ WellFormed c64 (.popRm64 bare (.mem (.sib 0 (some 12) 0 .absent))) ∧
    ¬ WellFormed c64 (.popRm64 (rex false false true false) (.mem (.sib 0 none 0 .absent))) := by decide

/-- A base with field 101 needs a displacement, one with field 100 a SIB byte, and R8 to R15 need REX.B. -/
theorem test_wf_base : ¬ WellFormed c32 (.popRm32 bare (.mem (.base 5 .absent))) ∧
    ¬ WellFormed c32 (.popRm32 bare (.mem (.base 4 .absent))) ∧
    ¬ WellFormed c64 (.popRm64 bare (.mem (.base 8 .absent))) ∧
    ¬ WellFormed c64 (.popRm64 bare (.mem (.sib 0 none 13 .absent))) := by decide

/-- Each operand form has its address sizes. -/
theorem test_wf_address_size : ¬ WellFormed c32 (.popRm32 bare (.mem (.base16 .si .absent))) ∧
    ¬ WellFormed c32 (.popRm32 bare (.mem (.disp16 0))) ∧
    ¬ WellFormed c16 (.popRm16 bare (.mem (.base 0 .absent))) ∧
    ¬ WellFormed c16 (.popRm16 bare (.mem (.disp32 0))) ∧
    ¬ WellFormed c16 (.popRm16 bare (.mem (.sib 0 none 0 .absent))) ∧
    ¬ WellFormed c16 (.popRm16 bare (.mem (.sibNoBase 0 none 0))) := by decide

/-- BP alone needs a displacement. -/
theorem test_wf_bp : ¬ WellFormed c16 (.popRm16 bare (.mem (.base16 .bp .absent))) := by decide

theorem test_wf_length : ¬ WellFormed c64 (.popR64 (legacy (List.replicate 15 .addrSize)) 0) ∧
    (Instr.popR64 (legacy (List.replicate 15 .addrSize)) 0).len = 16 := by decide

/-! ### Decoding: words written out from 30_encoding.md R81 to R105; the E numbers are those of 95_test_vectors.md -/

/-- Row 1: E27, E62 and, as bits, 1000 1111, 01 000 110, 0000 0010 (E63). -/
theorem test_decode_popRm16 :
    decode c64 [0x66, 0x8F, 0x00] = .ok (.popRm16 (legacy [.opSize]) (.mem (.base 0 .absent)), []) ∧
    decode c16 [0x8F, 0x06, 0x00, 0x20] = .ok (.popRm16 bare (.mem (.disp16 0x2000)), []) ∧
    decode c16 [0b10001111, 0b01000110, 0b00000010] = .ok (.popRm16 bare (.mem (.base16 .bp (.byte 2))), []) := by
  decide

/-- Row 2: E43, E45, E46. -/
theorem test_decode_popRm32 :
    decode c32 [0x67, 0x8F, 0x00] = .ok (.popRm32 (legacy [.addrSize]) (.mem (.base16 .bxSi .absent)), []) ∧
    decode c32 [0x8F, 0x45, 0xFC] = .ok (.popRm32 bare (.mem (.base 5 (.byte 0xFC))), []) ∧
    decode c32 [0x8F, 0x05, 0x00, 0x20, 0x00, 0x00] = .ok (.popRm32 bare (.mem (.disp32 0x2000)), []) := by decide

/-- Row 3: E11, E18, E22. -/
theorem test_decode_popRm64 :
    decode c64 [0x41, 0x8F, 0xC0] = .ok (.popRm64 (rex false false false true) (.reg 8), []) ∧
    decode c64 [0x4A, 0x8F, 0x04, 0xC8] = .ok (.popRm64 (rex true false true false) (.mem (.sib 3 (some 9) 0 .absent)), []) ∧
    decode c64 [0x8F, 0x04, 0x25, 0x00, 0x30, 0x00, 0x00] = .ok (.popRm64 bare (.mem (.sibNoBase 0 none 0x3000)), []) := by
  decide

/-- Row 4: E6, E60. -/
theorem test_decode_popR16 :
    decode c64 [0x66, 0x41, 0x58] =
      .ok (.popR16 { legacy := [.opSize], rex := some { w := false, r := false, x := false, b := true } } 8, []) ∧
    decode c16 [0x58] = .ok (.popR16 bare 0, []) := by decide

/-- Row 5: E40, E61. -/
theorem test_decode_popR32 :
    decode c32 [0x58] = .ok (.popR32 bare 0, []) ∧ decode c16 [0x66, 0x58] = .ok (.popR32 (legacy [.opSize]) 0, []) := by
  decide

/-- Row 6: E2, E4, E8, E9. -/
theorem test_decode_popR64 :
    decode c64 [0x5F] = .ok (.popR64 bare 7, []) ∧
    decode c64 [0x41, 0x5C] = .ok (.popR64 (rex false false false true) 12, []) ∧
    decode c64 [0x66, 0x48, 0x58] =
      .ok (.popR64 { legacy := [.opSize], rex := some { w := true, r := false, x := false, b := false } } 0, []) ∧
    decode c64 [0x44, 0x58] = .ok (.popR64 (rex false true false false) 0, []) := by decide

/-- Rows 7 and 8: E47 and its neighbour. -/
theorem test_decode_popDs_popEs :
    decode c32 [0b00011111] = .ok (.popDs bare, []) ∧ decode c32 [0b00000111] = .ok (.popEs bare, []) := by decide

/-- Row 9: E48, and E31: the byte decodes in `Long64` too. -/
theorem test_decode_popSs :
    decode c32 [0x66, 0x17] = .ok (.popSs (legacy [.opSize]), []) ∧ decode c64 [0x17] = .ok (.popSs bare, []) := by decide

/-- Rows 10, 11, 12: E29, E49, E66, E28. -/
theorem test_decode_popFs :
    decode c64 [0x66, 0x0F, 0xA1] = .ok (.popFs16 (legacy [.opSize]), []) ∧
    decode c32 [0x0F, 0xA1] = .ok (.popFs32 bare, []) ∧
    decode c16 [0x66, 0x0F, 0xA1] = .ok (.popFs32 (legacy [.opSize]), []) ∧
    decode c64 [0x0F, 0xA1] = .ok (.popFs64 bare, []) := by decide

/-- Rows 13, 14, 15: E50, E30. -/
theorem test_decode_popGs :
    decode c32 [0x66, 0x0F, 0xA9] = .ok (.popGs16 (legacy [.opSize]), []) ∧
    decode c32 [0x0F, 0xA9] = .ok (.popGs32 bare, []) ∧
    decode c64 [0x48, 0x0F, 0xA9] = .ok (.popGs64 (rex true false false false), []) := by decide

/-- E33 to E36 and E51: what is no POP of this spec. -/
theorem test_decode_refusals :
    decode c64 [0xF3, 0x58] = .error .repeatPrefix ∧ decode c64 [0x66, 0x66, 0x58] = .error .duplicatePrefix ∧
    decode c64 [0x26, 0x3E, 0x8F, 0x00] = .error .twoSegmentOverrides ∧
    decode c64 [0x48, 0x66, 0x58] = .error (.notPop 0x66) ∧ decode c64 [0x8F, 0xC8] = .error (.notPop8F 1) ∧
    decode c32 [0x41, 0x58] = .error (.notPop 0x41) ∧ decode c64 [0x0F, 0xA0] = .error (.notPop0F 0xA0) ∧
    decode c64 [] = .error .truncated := by decide

/-! ### States -/

/-- A flat writable data segment of a privilege. -/
def flat (dpl : BitVec 2) (sel : Word16) : SegReg where
  sel := sel
  hidden :=
    { base := 0, limit := 0xFFFFFFFF
      attr :=
        { kind := .data, writable := true, readable := false, conforming := false, expandDown := false
          dpl := dpl, present := true, db := true, l := false, unusable := false, accessed := true } }

/-- A flat code segment. -/
def flatCode (dpl : BitVec 2) (l db : Bool) : SegReg where
  sel := 0x1B
  hidden :=
    { base := 0, limit := 0xFFFFFFFF
      attr :=
        { kind := .code, writable := false, readable := true, conforming := false, expandDown := false
          dpl := dpl, present := true, db := db, l := l, unusable := false, accessed := true } }

/-- Little-endian values in memory. -/
def memOf : List (Nat × Nat × Word64) → Memory
  | [] => { cells := [] }
  | (a, n, v) :: vs => (memOf vs).writeAll (((List.range n).map (a + ·)).zip (leBytes n v))

/-- General registers from a list of numbers and values. -/
def regsOf : List (Reg × Word64) → Vector Word64 16
  | [] => Vector.replicate 16 0
  | (r, v) :: vs => (regsOf vs).set r.toNat v r.isLt

/-- Launch `L64` of 95_test_vectors.md, the table of `P32` in memory. -/
def long64 (code : List Byte) (rs : List (Reg × Word64)) (vs : List (Nat × Nat × Word64)) : State :=
  { State.reset with
    cr0 := 0x80000001, efer := 0x500, cplField := 3
    segs := { es := flat 3 0x23, cs := flatCode 3 true false, ss := flat 3 0x23, ds := flat 3 0x23, fs := flat 3 0x23, gs := flat 3 0x23 }
    gdtr := { base := 0x80000, limit := 0x57 }
    regs := regsOf rs, mem := memOf vs
    rip := 0x400000, prog := { base := 0x400000, bytes := code } }

/-- Launch `P32` of 95_test_vectors.md. -/
def prot32 (cpl : BitVec 2) (code : List Byte) (rs : List (Reg × Word64)) (vs : List (Nat × Nat × Word64)) : State :=
  { State.reset with
    cr0 := 1, cplField := cpl
    segs := { es := flat 3 0x23, cs := flatCode cpl false true, ss := flat cpl 0x23, ds := flat 3 0x23, fs := flat 3 0x23, gs := flat 3 0x23 }
    gdtr := { base := 0x80000, limit := 0x57 }
    regs := regsOf rs, mem := memOf vs
    rip := 0x10000, prog := { base := 0x10000, bytes := code } }

/-- A real-address segment register. -/
def real (sel : Word16) : SegReg := { resetData with sel := sel, hidden := { resetData.hidden with base := sel.setWidth 64 <<< 4 } }

/-- Launch `RM16` of 95_test_vectors.md, SS.sel = 2000H and DS.sel = 3000H. -/
def rm16 (code : List Byte) (rs : List (Reg × Word64)) (vs : List (Nat × Nat × Word64)) : State :=
  { State.reset with
    segs :=
      { es := real 0, cs := { resetCode with sel := 0x1000, hidden := { resetCode.hidden with base := 0x10000 } }
        ss := real 0x2000, ds := real 0x3000, fs := real 0, gs := real 0 }
    regs := regsOf rs, mem := memOf vs
    rip := 0x100, prog := { base := 0x100, bytes := code } }

/-- The same in `V86`. -/
def v86 (code : List Byte) (rs : List (Reg × Word64)) (vs : List (Nat × Nat × Word64)) : State :=
  { rm16 code rs vs with cr0 := 1, rflags := 0x20002, cplField := 3 }

def T : Word64 := 0x1122334455667788

/-- Entries of the table of `P32`: a descriptor's address and quadword. -/
def entry (k : Nat) (q : Word64) : Nat × Nat × Word64 := (0x80000 + 8 * k, 8, q)

/-- A step goes on to a state with a property. -/
def goesTo (s : State) (p : State → Bool) : Bool :=
  match step s with
  | .next t => p t
  | _ => false

/-- A step ends in a fault. -/
def faults (s : State) (f : Fault) : Bool :=
  match step s with
  | .fault g => decide (g = f)
  | _ => false

/-- A step is refused. -/
def refuses (s : State) (r : Refusal) : Bool :=
  match step s with
  | .refused q => decide (q = r)
  | _ => false

/-! ### Execution vectors -/

/-- A1. -/
theorem test_popR64 : goesTo (long64 [0x58] [(4, 0x7FFFFFFFE000)] [(0x7FFFFFFFE000, 8, T)]) (fun t =>
    decide (t.x 0 = T ∧ t.x 4 = 0x7FFFFFFFE008 ∧ t.rip = 0x400001)) = true := by decide

/-- A4, and A10: eight bytes at FFFFFFFFFFFFFFFCH straddle the top. -/
theorem test_popR64_stack : goesTo (long64 [0x5C] [(4, 0x7000)] [(0x7000, 8, T)]) (fun t => decide (t.x 4 = T)) = true ∧
    refuses (long64 [0x58] [(4, 0xFFFFFFFFFFFFFFFC)] []) .straddlesOffsetSpace = true := by decide

/-- A3, and A5 with the carry of ...FFFEH + 2 kept out of bits 15:0. -/
theorem test_popR16 : goesTo (long64 [0x66, 0x58] [(4, 0x7FFFFFFFE000), (0, 0xAAAAAAAAAAAAAAAA)] [(0x7FFFFFFFE000, 8, T)])
      (fun t => decide (t.x 0 = 0xAAAAAAAAAAAA7788 ∧ t.x 4 = 0x7FFFFFFFE002 ∧ t.rip = 0x400002)) = true ∧
    goesTo (long64 [0x66, 0x5C] [(4, 0x7FFFFFFFE000)] [(0x7FFFFFFFE000, 8, T)])
      (fun t => decide (t.x 4 = 0x7FFFFFFF7788)) = true := by decide

/-- Q1: SP wraps nothing above it. -/
theorem test_popR16_real : goesTo (rm16 [0x58] [(4, 0xFFFC)] [(0x2FFFC, 2, 0x1234)])
    (fun t => decide (t.x 0 = 0x1234 ∧ t.x 4 = 0xFFFE ∧ t.rip = 0x101)) = true := by decide

/-- Q2: SP = FFFCH wraps to 0000H. The low half of the destination is `test_popR32_value`. -/
theorem test_popR32 : goesTo (rm16 [0x66, 0x58] [(4, 0xFFFC)] [(0x2FFFC, 4, 0x12345678)])
    (fun t => decide (t.x 4 = 0 ∧ t.rip = 0x102)) = true := by decide

/-- B1: EAX is the value read; what is above it is free. -/
theorem test_popR32_value : ∃ t, exec (.popR32 bare 0) (prot32 3 [0x58] [(4, 0x100000)] [(0x100000, 4, 0x12345678)]) =
    .next t ∧ t.readReg .w32 0 = 0x12345678 := by
  have h : (prot32 3 [0x58] [(4, 0x100000)] [(0x100000, 4, 0x12345678)]).popRead .w32 = .ok 0x12345678 := by decide
  generalize hs : prot32 3 [0x58] [(4, 0x100000)] [(0x100000, 4, 0x12345678)] = s at h
  refine ⟨((s.writeSP s .w32).writeReg .w32 0 0x12345678).retire 1 false, ?_, ?_⟩
  · rw [exec_of_wf (by subst hs; decide) (by decide), Instr.body, popToReg, h]; rfl
  · exact BitVec.eq_of_toNat_eq (State.readReg_writeReg_self (s.writeSP s .w32) .w32 0 0x12345678)

/-- M2, M3: the address is formed from the incremented RSP. -/
theorem test_popRm64_stack :
    goesTo (long64 [0x8F, 0x04, 0x24] [(4, 0x7000)] [(0x7000, 8, T), (0x7008, 8, 0xAAAAAAAAAAAAAAAA)])
      (fun t => decide (t.mem.value ((List.range 8).map (0x7008 + ·)) = T ∧ t.x 4 = 0x7008 ∧ t.rip = 0x400003)) = true ∧
    goesTo (long64 [0x8F, 0x44, 0x24, 0x08] [(4, 0x7000)] [(0x7000, 8, T)])
      (fun t => decide (t.mem.value ((List.range 8).map (0x7010 + ·)) = T)) = true := by decide

/-- M5, M7. -/
theorem test_popRm64_address :
    goesTo (long64 [0x8F, 0x05, 0x10, 0x00, 0x00, 0x00] [(4, 0x7000)] [(0x7000, 8, T)])
      (fun t => decide (t.mem.value ((List.range 8).map (0x400016 + ·)) = T)) = true ∧
    goesTo (long64 [0x4A, 0x8F, 0x04, 0xC8] [(4, 0x7000), (0, 0x3000), (9, 3), (1, 7)] [(0x7000, 8, T)])
      (fun t => decide (t.mem.value ((List.range 8).map (0x3018 + ·)) = T)) = true := by decide

/-- Q4, Q5: 16-bit addresses, through DS and through SS. -/
theorem test_popRm16 :
    goesTo (rm16 [0x8F, 0x00] [(4, 0x100), (3, 0xF000), (6, 0x2000)] [(0x20100, 2, 0xBEEF)])
      (fun t => decide (t.mem.value [0x31000, 0x31001] = 0xBEEF ∧ t.x 4 = 0x102)) = true ∧
    goesTo (rm16 [0x8F, 0x46, 0x02] [(4, 0x100), (5, 0x200)] [(0x20100, 2, 0xBEEF)])
      (fun t => decide (t.mem.value [0x20202, 0x20203] = 0xBEEF)) = true := by decide

/-- B7, B8. -/
theorem test_popRm32 :
    goesTo (prot32 3 [0x67, 0x8F, 0x07] [(4, 0x100000), (3, 0x12000)] [(0x100000, 4, 0x12345678)])
      (fun t => decide (t.mem.value [0x2000, 0x2001, 0x2002, 0x2003] = 0x12345678 ∧ t.rip = 0x10003)) = true ∧
    goesTo (prot32 3 [0x8F, 0x45, 0xFC] [(4, 0x100000), (5, 0x200000)] [(0x100000, 4, 0x12345678)])
      (fun t => decide (t.mem.value [0x1FFFFC, 0x1FFFFD, 0x1FFFFE, 0x1FFFFF] = 0x12345678)) = true := by decide

/-- S2: entry 4 is loaded into DS, bits 31:16 discarded; S13: an index outside the table. -/
theorem test_popDs :
    goesTo (prot32 3 [0x1F] [(4, 0x1000)] [(0x1000, 4, 0xDEAD0023), entry 4 0x00CFF2000000FFFF])
      (fun t => decide ((t.seg .ds).sel = 0x23 ∧ (t.seg .ds).hidden.limit = 0xFFFFFFFF ∧ t.rip = 0x10001)) = true ∧
    faults (prot32 3 [0x1F] [(4, 0x1000)] [(0x1000, 4, 0x5B)])
      (.generalProtection (some 0x58) (prot32 3 [0x1F] [(4, 0x1000)] [(0x1000, 4, 0x5B)])) = true := by decide

/-- G7: ES in `Real`; G6: 07H in `Long64`. -/
theorem test_popEs :
    goesTo (rm16 [0x07] [(4, 0xFFFC)] [(0x2FFFC, 2, 0xB800)])
      (fun t => decide ((t.seg .es).sel = 0xB800 ∧ (t.seg .es).hidden.base = 0xB8000 ∧ t.x 4 = 0xFFFE)) = true ∧
    faults (long64 [0x07] [] []) (.invalidOpcode (long64 [0x07] [] [])) = true := by decide

/-- P3, step 1: the stack moves to entry 10 with the inhibition set; S24: not present is #SS. -/
theorem test_popSs :
    goesTo (prot32 0 [0x17] [(4, 0x1000)] [(0x1000, 4, 0x50), entry 10 0x000092200000FFFF])
      (fun t => decide ((t.seg .ss).hidden.base = 0x200000 ∧ t.ssInhibit = true ∧ t.stackAddrSize = .w16)) = true ∧
    faults (prot32 3 [0x17] [(4, 0x1000)] [(0x1000, 4, 0x33), entry 6 0x00CF72000000FFFF])
      (.stackFault (some 0x30)
        (prot32 3 [0x17] [(4, 0x1000)] [(0x1000, 4, 0x33), entry 6 0x00CF72000000FFFF])) = true := by decide

/-- G3: POP FS at 16 bits, not present; S26: at 32 bits; G1: at 64 bits. -/
theorem test_popFs :
    faults (long64 [0x66, 0x0F, 0xA1] [(4, 0x7000)] [(0x7000, 2, 0x33), entry 6 0x00CF72000000FFFF])
      (.segmentNotPresent (some 0x30)
        (long64 [0x66, 0x0F, 0xA1] [(4, 0x7000)] [(0x7000, 2, 0x33), entry 6 0x00CF72000000FFFF])) = true ∧
    goesTo (prot32 3 [0x0F, 0xA1] [(4, 0x1000)] [(0x1000, 4, 0x23), entry 4 0x00CFF2000000FFFF])
      (fun t => decide ((t.seg .fs).sel = 0x23 ∧ t.rip = 0x10002)) = true ∧
    goesTo (long64 [0x0F, 0xA1] [(4, 0x7000)] [(0x7000, 8, 0x23), entry 4 0x00CFF2000000FFFF])
      (fun t => decide ((t.seg .fs).sel = 0x23 ∧ (t.seg .fs).hidden.base = 0 ∧ t.x 4 = 0x7008)) = true := by decide

/-- S27: POP GS at 16 bits; at 32 bits a NULL selector; G2: at 64 bits, NULL. -/
theorem test_popGs :
    goesTo (prot32 3 [0x66, 0x0F, 0xA9] [(4, 0x1000)] [(0x1000, 2, 0x23), entry 4 0x00CFF2000000FFFF])
      (fun t => decide ((t.seg .gs).sel = 0x23 ∧ t.rip = 0x10003)) = true ∧
    goesTo (prot32 3 [0x0F, 0xA9] [(4, 0x1000)] [(0x1000, 4, 3)])
      (fun t => decide ((t.seg .gs).sel = 3 ∧ (t.seg .gs).hidden.attr.unusable = true)) = true ∧
    goesTo (long64 [0x0F, 0xA9] [(4, 0x7000)] [(0x7000, 8, 0xFFFFFFFFFFFF0000)])
      (fun t => decide ((t.seg .gs).sel = 0 ∧ (t.seg .gs).hidden.attr.unusable = true ∧ t.x 4 = 0x7008)) = true := by decide

/-- M11: a write into the program's own bytes. -/
theorem test_program_text : refuses (long64 [0x8F, 0x05, 0xFA, 0xFF, 0xFF, 0xFF] [(4, 0x7000)] [(0x7000, 8, T)])
    (.writeIntoProgramText 0x400000) = true := by decide

/-- Reset memory is in canonical form, and the interface's own word runs. -/
theorem test_reset : State.reset.mem.wf = true ∧ decodeTableWord 8 0x58 = some (.popR16 bare 0) ∧
    goesTo (State.reset.withFetchWord 8 0x58) (fun t => decide (t.rip = 0xFFF1)) = true := by decide

/-! ### Witnesses: states and operands that meet the hypotheses of the obligations -/

theorem witness_DecodeOfEncode : WellFormed c64 (.popRm64 (rex true false true false) (.mem (.sib 3 (some 9) 0 .absent))) := by
  decide

/-- Also for `DecodedRowMatchesSize`: `Long64`, and another mode. -/
theorem witness_EncodeOfDecode : decode c64 [0x66, 0x58, 0x90] = .ok (.popR16 (legacy [.opSize]) 0, [0x90]) ∧
    c64.mode = .long64 ∧ decode c32 [0x66, 0x58] = .ok (.popR16 (legacy [.opSize]) 0, []) ∧ c32.mode ≠ .long64 := by decide

theorem witness_ModRmRegMustBeZero : (0x8F : Byte).extractLsb' 3 3 ≠ 0 ∧ (0x38 : Byte).extractLsb' 3 3 = 7 := by decide

theorem witness_TranslateIdentity : State.reset.cr0.getLsbD 31 = false ∧ (long64 [] [] []).cr0.getLsbD 31 = true ∧
    ({ State.reset with cr0 := 0x80000000 } : State).mode = .real := by decide

/-- The longest run of bytes, eight. -/
theorem witness_StoreThenLoad : (memOf [(0x10, 2, 0xBEEF)]).wf = true ∧ (List.range 8).Nodup ∧ (List.range 8).length ≤ 8 := by
  decide

/-- POP RAX twice, the second step: one byte past the program's base. -/
def second : State := { long64 [0x58, 0x58] [(4, 0x7000)] [(0x7000, 8, T)] with rip := 0x400001 }

theorem witness_StepRunsDecoded : 1 < second.prog.bytes.length ∧
    (second.rip.toNat + 2 ^ 64 - second.prog.base.toNat) % 2 ^ (if second.mode = .long64 then 64 else 32) = 1 ∧
    decode second.ctx (second.prog.bytes.drop 1) = .ok (.popR64 bare 0, []) := by decide

theorem witness_StepEndsAfterProgram :
    ({ second with rip := 0x400002 }.rip.toNat + 2 ^ 64 - second.prog.base.toNat) %
      2 ^ (if second.mode = .long64 then 64 else 32) = second.prog.bytes.length := by decide

/-! #### Register and memory destinations -/

/-- L64 with a readable stack and a destination at RAX, the last quadword below 2^47. -/
def sA : State := long64 [] [(4, 0x7000), (0, 0x7FFFFFFFFFF8)] [(0x7000, 8, T)]

def bytesOf (a n : Nat) : List Nat := (List.range n).map (a + ·)

theorem readable_sA : sA.StackReadable .w64 (bytesOf 0x7000 8) :=
  ⟨by decide, by decide, by decide, by decide, by decide, by decide, by decide, by decide, by decide⟩

theorem witness_PopRegisterCompletes : (Instr.popR64 bare 3).regDest = some 3 ∧ sA.Runs (.popR64 bare 3) ∧
    sA.StackReadable ((Instr.popR64 bare 3).width sA.ctx) (bytesOf 0x7000 8) :=
  ⟨rfl, ⟨by decide, by decide, by decide⟩, readable_sA⟩

/-- The other five rows, each where it has bytes: operand size 16 in `Long64`, 16 and 32 in `Real`. -/
theorem witness_PopRegisterCompletes_rows :
    sA.Runs (.popRm64 bare (.reg 3)) ∧ sA.Runs (.popR16 (legacy [.opSize]) 3) ∧ sA.Runs (.popRm16 (legacy [.opSize]) (.reg 3)) ∧
      (rm16 [] [] []).Runs (.popR32 (legacy [.opSize]) 3) ∧ (rm16 [] [] []).Runs (.popRm32 (legacy [.opSize]) (.reg 3)) :=
  ⟨⟨by decide, by decide, by decide⟩, ⟨by decide, by decide, by decide⟩, ⟨by decide, by decide, by decide⟩,
    ⟨by decide, by decide, by decide⟩, ⟨by decide, by decide, by decide⟩⟩

/-- A stack read that ends at the last byte of a 16-bit offset space. -/
theorem witness_PopRegisterCompletes_boundary :
    (rm16 [] [(4, 0xFFFE)] [(0x2FFFE, 2, 0xBEEF)]).StackReadable .w16 [0x2FFFE, 0x2FFFF] :=
  ⟨by decide, by decide, by decide, by decide, by decide, by decide, by decide, by decide, by decide⟩

theorem writable_sA : sA.DestWritable bare (.base 0 .absent) .w64 2 (bytesOf 0x7FFFFFFFFFF8 8) :=
  ⟨⟨by decide, by decide, by decide, by decide, by decide, by decide, by decide, by decide, by decide⟩, by decide⟩

theorem witness_PopMemoryCompletes : (Instr.popRm64 bare (.mem (.base 0 .absent))).memDest = some (.base 0 .absent) ∧
    sA.Runs (.popRm64 bare (.mem (.base 0 .absent))) ∧ sA.StackReadable .w64 (bytesOf 0x7000 8) ∧
    sA.DestWritable bare (.base 0 .absent) .w64 (Instr.popRm64 bare (.mem (.base 0 .absent))).len (bytesOf 0x7FFFFFFFFFF8 8) ∧
    sA.mem.wf = true ∧ (bytesOf 0x7FFFFFFFFFF8 8).Nodup :=
  ⟨rfl, ⟨by decide, by decide, by decide⟩, readable_sA, writable_sA, by decide, by decide⟩

theorem witness_CanonicalForm : canonical 48 0x7FFFFFFFFFFF = true ∧ canonical 48 0x800000000000 = false ∧
    canonical 48 0xFFFF800000000000 = true ∧ canonical 57 0x800000000000 = true ∧ canonical 64 0x8000000000000000 = true := by
  decide

/-- The entries 10 and 4 of `P32`'s table. -/
theorem test_descriptorOf : (descriptorOf 0x000092200000FFFF).base = 0x200000 ∧ (descriptorOf 0x000092200000FFFF).limit = 0xFFFF ∧
    (descriptorOf 0x00CFF2000000FFFF).limit = 0xFFFFFFFF ∧ (descriptorOf 0x00CFF2000000FFFF).dpl = 3 := by decide

/-- POP RSP; the two cases of unequal sizes; POP R12; POP SP on a 16-bit stack. -/
theorem witness_PopIntoStackPointer :
    (sA.Runs (.popR64 bare rsp) ∧ sA.StackReadable .w64 (bytesOf 0x7000 8) ∧
      (Instr.popR64 bare rsp).width sA.ctx = sA.stackAddrSize) ∧
    (sA.Runs (.popR16 (legacy [.opSize]) rsp) ∧ sA.StackReadable .w16 (bytesOf 0x7000 2) ∧ sA.stackAddrSize ≠ .w16) ∧
    ((rm16 [] [] []).Runs (.popR32 (legacy [.opSize]) rsp) ∧ (rm16 [] [] []).StackReadable .w32 (bytesOf 0x20000 4) ∧
      (rm16 [] [] []).stackAddrSize = .w16) ∧
    sA.Runs (.popR64 (rex false false false true) 12) ∧
    ((rm16 [] [(4, 0xABCD0100)] []).Runs (.popR16 bare rsp) ∧
      (rm16 [] [(4, 0xABCD0100)] []).StackReadable .w16 (bytesOf 0x20100 2) ∧
      (rm16 [] [(4, 0xABCD0100)] []).stackAddrSize = .w16) :=
  ⟨⟨⟨by decide, by decide, by decide⟩, readable_sA, by decide⟩,
    ⟨⟨by decide, by decide, by decide⟩, ⟨by decide, by decide, by decide, by decide, by decide, by decide, by decide, by decide, by decide⟩, by decide⟩,
    ⟨⟨by decide, by decide, by decide⟩, ⟨by decide, by decide, by decide, by decide, by decide, by decide, by decide, by decide, by decide⟩, by decide⟩, ⟨by decide, by decide, by decide⟩,
    ⟨⟨by decide, by decide, by decide⟩, ⟨by decide, by decide, by decide, by decide, by decide, by decide, by decide, by decide, by decide⟩, by decide⟩⟩

/-- A flat DS moved to FFFFF000H: R52 wraps at 2^32; in `Long64` only FS and GS have a base. -/
def based (s : State) : State :=
  { s with segs := { s.segs with
      ds := { s.segs.ds with hidden := { s.segs.ds.hidden with base := 0xFFFFF000 } }
      fs := { s.segs.fs with hidden := { s.segs.fs.hidden with base := 0xFFFFFFFFFFFFF000 } } } }

/-- The last linear address below the wrap and the first above it. -/
theorem witness_LinearRule :
    ((based (prot32 3 [] [] [])).mode ≠ .long64 ∧ (based (prot32 3 [] [] [])).linear .ds 0xFFF = 0xFFFFFFFF ∧
      (based (prot32 3 [] [] [])).linear .ds 0x1000 = 0 ∧ (based (prot32 3 [] [] [])).linAt 0xFFFFFFFF 1 = 0) ∧
    ((based sA).mode = .long64 ∧ (based sA).linear .fs 0x1000 = 0 ∧ (based sA).linear .ds 0x1000 = 0x1000 ∧
      (based sA).linAt 0xFFFFFFFF 1 = 0x100000000) := by decide

/-- An expand-down data segment of limit FFFH. -/
def downHidden (db : Bool) : Hidden :=
  { (flat 3 0).hidden with limit := 0xFFF, attr := { (flat 3 0).hidden.attr with expandDown := true, db := db } }

/-- Both ends of each range: FFFH is the last byte of an ordinary segment and no byte of an expand-down one, whose last is
the top its B flag gives. -/
theorem witness_LimitRule :
    ((downHidden true).attr.kind = .data ∧ (downHidden true).attr.expandDown = true ∧
      inLimit (downHidden true) 0xFFF 1 = false ∧ inLimit (downHidden true) 0x1000 1 = true ∧
      inLimit (downHidden true) 0xFFFFFFFC 4 = true ∧ inLimit (downHidden true) 0xFFFFFFFD 4 = false ∧
      inLimit (downHidden false) 0xFFFC 4 = true ∧ inLimit (downHidden false) 0xFFFD 4 = false) ∧
    (¬ (resetData.hidden.attr.kind = .data ∧ resetData.hidden.attr.expandDown = true) ∧
      inLimit resetData.hidden 0xFFFC 4 = true ∧ inLimit resetData.hidden 0xFFFD 4 = false) := by decide

/-- A 16-bit stack in 32-bit code. -/
def small (sp : Word64) : State :=
  { prot32 3 [] [(4, sp)] [] with
    segs := { (prot32 3 [] [] []).segs with
      ss := { flat 3 0x23 with hidden := { (flat 3 0x23).hidden with limit := 0xFFFF, attr := { (flat 3 0x23).hidden.attr with db := false } } } } }

/-- One state for each clause; the last two meet at 2^16: SP = FFFBH does not wrap on four bytes, SP = FFFCH does. -/
theorem witness_StackBasedDestination :
    (sA.mode = .long64 ∧ addrSize sA.ctx bare = .w64) ∧
    (sA.stackAddrSize ≠ .w16 ∧ addrSize sA.ctx (legacy [.addrSize]) = .w32) ∧
    ((small 0xFFFB).stackAddrSize = .w16 ∧ addrSize (small 0xFFFB).ctx bare = .w32 ∧
      ((small 0xFFFB).x rsp).toNat % 2 ^ 16 + Width.w32.bytes < 2 ^ 16) ∧
    ((small 0xFFFC).stackAddrSize = .w16 ∧ addrSize (small 0xFFFC).ctx bare = .w32 ∧
      2 ^ 16 ≤ ((small 0xFFFC).x rsp).toNat % 2 ^ 16 + Width.w32.bytes) := by decide

theorem witness_RipRelativeDestination : sA.mode = .long64 ∧
    sA.destAddr bare (.disp32 0xFFFFFFFA) .w64 6 = 0x400000 := by decide

/-- The 16-bit table: no hypotheses. The largest sum: FFFFH + FFFFH + 1 is FFFFH (R99). -/
theorem test_address16 : (long64 [] [(3, 0xFFFF), (6, 0xFFFF)] []).destAddr bare (.base16 .bxSi (.byte 1)) .w16 2 = 0xFFFF ∧
    (long64 [] [(5, 0x10)] []).destAddr bare (.base16 .bp (.byte 0x80)) .w16 2 = 0xFF90 := by decide

/-- Each clause: `Long64` and another mode, and register 4 as SIB base where the pointer does not wrap. -/
theorem witness_AddressTable32 : addrSize sA.ctx bare ≠ .w16 ∧ sA.mode = .long64 ∧
    addrSize (small 0xFFFB).ctx bare ≠ .w16 ∧ (small 0xFFFB).mode ≠ .long64 ∧
    ¬ ((4 : Reg) = rsp ∧ (small 0xFFFB).stackWraps .w32) ∧ ¬ ((5 : Reg) = rsp ∧ (small 0xFFFC).stackWraps .w32) :=
  ⟨by decide, by decide, by decide, by decide, fun h => absurd h.2.2 (by decide), fun h => absurd h.1 (by decide)⟩

theorem witness_DestinationSegment : bare.segs = [] ∧ (legacy [.seg .ds]).segs = [.ds] ∧ (rm16 [] [] []).mode ≠ .long64 ∧
    (legacy [.seg .fs]).segs = [.fs] ∧ sA.mode = .long64 ∧ (SegName.ds ≠ .fs ∧ SegName.ds ≠ .gs) := by decide

/-! #### Segment destinations -/

def sR : State := rm16 [] [(4, 0x100)] [(0x20100, 2, 0x1234)]

def sV : State := v86 [] [(4, 0x100)] [(0x20100, 2, 0x1234)]

theorem witness_RealModeSegmentLoad : (Instr.popDs bare).segDest = some .ds ∧ sR.mode = .real ∧ sR.Runs (.popDs bare) ∧
    sR.Runs (.popEs bare) ∧ sR.Runs (.popSs bare) ∧ sR.Runs (.popFs16 bare) ∧ sR.Runs (.popGs16 bare) ∧
    sR.Runs (.popFs32 (legacy [.opSize])) ∧ sR.Runs (.popGs32 (legacy [.opSize])) ∧
    sR.StackReadable .w16 (bytesOf 0x20100 2) ∧ sR.StackReadable .w32 (bytesOf 0x20100 4) :=
  ⟨rfl, by decide, ⟨by decide, by decide, by decide⟩, ⟨by decide, by decide, by decide⟩, ⟨by decide, by decide, by decide⟩,
    ⟨by decide, by decide, by decide⟩, ⟨by decide, by decide, by decide⟩, ⟨by decide, by decide, by decide⟩,
    ⟨by decide, by decide, by decide⟩,
    ⟨by decide, by decide, by decide, by decide, by decide, by decide, by decide, by decide, by decide⟩,
    ⟨by decide, by decide, by decide, by decide, by decide, by decide, by decide, by decide, by decide⟩⟩

theorem witness_VirtualModeSegmentLoad : (Instr.popSs bare).segDest = some .ss ∧ sV.mode = .v86 ∧ sV.Runs (.popSs bare) ∧
    sV.StackReadable ((Instr.popSs bare).width sV.ctx) (bytesOf 0x20100 2) :=
  ⟨rfl, by decide, ⟨by decide, by decide, by decide⟩,
    ⟨by decide, by decide, by decide, by decide, by decide, by decide, by decide, by decide, by decide⟩⟩

/-- `P32` at CPL 3 with a value on the stack and entries 4, 5 and 6 of the table. -/
def sP (v : Word64) : State :=
  prot32 3 [] [(4, 0x1000)]
    [(0x1000, 4, v), entry 4 0x00CFF2000000FFFF, entry 5 0x00CFF0000000FFFF, entry 6 0x00CF72000000FFFF]

theorem readable_null : (sP 3).StackReadable .w32 (bytesOf 0x1000 4) :=
  ⟨by decide, by decide, by decide, by decide, by decide, by decide, by decide, by decide, by decide⟩

theorem readable_23 : (sP 0x23).StackReadable .w32 (bytesOf 0x1000 4) :=
  ⟨by decide, by decide, by decide, by decide, by decide, by decide, by decide, by decide, by decide⟩

/-- The largest NULL selector, 0003H. -/
theorem witness_NullSelectorLoad : (Instr.popDs bare).segDest = some .ds ∧ (sP 3).mode = .prot ∧ (sP 3).Runs (.popDs bare) ∧
    (sP 3).StackReadable ((Instr.popDs bare).width (sP 3).ctx) (bytesOf 0x1000 4) ∧
    ((sP 3).poppedSelector (bytesOf 0x1000 4)).toNat = 3 :=
  ⟨rfl, by decide, ⟨by decide, by decide, by decide⟩, readable_null, by decide⟩

def entry4 : Descriptor := descriptorOf 0x00CFF2000000FFFF

def entry5 : Descriptor := descriptorOf 0x00CFF0000000FFFF

def entry6 : Descriptor := descriptorOf 0x00CF72000000FFFF

/-- Entry 4 of the table is found. -/
theorem finds_entry4 : (sP 0x23).FindsDescriptor ((sP 0x23).poppedSelector (bytesOf 0x1000 4)) entry4 0x80025 :=
  ⟨0x80000, 0x57, bytesOf 0x80020 8, by decide, by decide, ⟨by decide, by decide, by decide⟩, by decide, by decide⟩

/-- The accessed bit of entry 4 is clear, and its byte is not the program's. -/
theorem witness_DataSegmentLoad : (Instr.popDs bare).segDest = some .ds ∧ (sP 0x23).mode = .prot ∧
    (sP 0x23).Runs (.popDs bare) ∧ (sP 0x23).StackReadable .w32 (bytesOf 0x1000 4) ∧
    3 < ((sP 0x23).poppedSelector (bytesOf 0x1000 4)).toNat ∧
    (sP 0x23).FindsDescriptor ((sP 0x23).poppedSelector (bytesOf 0x1000 4)) entry4 0x80025 ∧
    (sP 0x23).AcceptsData ((sP 0x23).poppedSelector (bytesOf 0x1000 4)) entry4 ∧ entry4.present = true ∧
    entry4.accessed = false ∧ (sP 0x23).inText 0x80025 = false :=
  ⟨rfl, by decide, ⟨by decide, by decide, by decide⟩, readable_23, by decide, finds_entry4,
    ⟨by decide, by decide⟩, by decide, by decide, by decide⟩

/-- Two pages mapped to one place: the first and the fifth byte of a quadword at 2FFCH stand at 5000H. -/
def sTwice : State :=
  { long64 [] [(4, 0x7000), (0, 0x2FFC)] [(0x7000, 8, T)] with
    plat := { State.reset.plat with
      pages := [{ range := { lo := 0x2FFC, size := 4 }, reads := true, writes := true, user := true, supervisor := true
                  target := .maps 0x5000 },
                { range := { lo := 0x3000, size := 4 }, reads := true, writes := true, user := true, supervisor := true
                  target := .maps 0x5000 }] } }

/-- `PopMemoryCompletes` where two bytes of the destination have one physical address (log 35). -/
theorem witness_PopMemoryCompletes_twice : sTwice.Runs (.popRm64 bare (.mem (.base 0 .absent))) ∧
    sTwice.StackReadable .w64 (bytesOf 0x7000 8) ∧
    sTwice.DestWritable bare (.base 0 .absent) .w64 2 (bytesOf 0x5000 4 ++ bytesOf 0x5000 4) ∧ sTwice.mem.wf = true :=
  ⟨⟨by decide, by decide, by decide⟩, ⟨by decide, by decide, by decide, by decide, by decide, by decide, by decide, by decide, by decide⟩, ⟨⟨by decide, by decide, by decide, by decide, by decide, by decide, by decide, by decide, by decide⟩, by decide⟩, by decide⟩

/-- Every segment row has a context: the first in `Prot`, the others of FS and GS in `Long64`. -/
theorem witness_DataSegmentLoad_rows : (sP 0).Runs (.popEs bare) ∧ (sP 0).Runs (.popFs32 bare) ∧ (sP 0).Runs (.popGs32 bare) ∧
    (sP 0).Runs (.popFs16 (legacy [.opSize])) ∧ (sP 0).Runs (.popGs16 (legacy [.opSize])) ∧
    sA.Runs (.popFs64 bare) ∧ sA.Runs (.popGs64 bare) :=
  ⟨⟨by decide, by decide, by decide⟩, ⟨by decide, by decide, by decide⟩, ⟨by decide, by decide, by decide⟩,
    ⟨by decide, by decide, by decide⟩, ⟨by decide, by decide, by decide⟩, ⟨by decide, by decide, by decide⟩,
    ⟨by decide, by decide, by decide⟩⟩

theorem witness_StackSegmentLoad : (sP 0x23).protected = true ∧ (sP 0x23).Runs (.popSs bare) ∧
    (sP 0x23).StackReadable .w32 (bytesOf 0x1000 4) ∧
    3 < ((sP 0x23).poppedSelector (bytesOf 0x1000 4)).toNat ∧
    (sP 0x23).FindsDescriptor ((sP 0x23).poppedSelector (bytesOf 0x1000 4)) entry4 0x80025 ∧
    (sP 0x23).AcceptsStack ((sP 0x23).poppedSelector (bytesOf 0x1000 4)) entry4 ∧ entry4.present = true ∧
    (sP 0x23).inText 0x80025 = false :=
  ⟨by decide, ⟨by decide, by decide, by decide⟩, readable_23, by decide, finds_entry4,
    ⟨by decide, by decide, by decide, by decide⟩, by decide, by decide⟩

/-- The three ways to lie outside, the limit 57H being the last byte of entry 10: entry 11 of the global table, TI = 1
with no local table, and TI = 1 past the limit of one; 57H itself is inside. -/
theorem witness_OutsideTable : (sP 0x5B).OutsideTable ((sP 0x5B).poppedSelector (bytesOf 0x1000 4)) ∧
    (sP 0x27).OutsideTable ((sP 0x27).poppedSelector (bytesOf 0x1000 4)) ∧
    ({ sP 0x27 with ldtr := { sel := 8, base := 0, limit := 0x26, loaded := true } } : State).OutsideTable 0x27 ∧
    selIndex 0x53 * 8 + 7 = (sP 0).gdtr.limit.toNat :=
  ⟨.inr (.inr ⟨by decide, by decide⟩), .inl ⟨by decide, by decide⟩, .inr (.inl ⟨by decide, by decide, by decide⟩), by decide⟩

/-- S6: a data segment of DPL 0 at CPL 3, for DS. -/
def sDpl0 : State := prot32 3 [] [(4, 0x1000)] [(0x1000, 4, 0x10), entry 2 0x00CF92000000FFFF]

theorem readable_outside : (sP 0x5B).StackReadable .w32 (bytesOf 0x1000 4) :=
  ⟨by decide, by decide, by decide, by decide, by decide, by decide, by decide, by decide, by decide⟩

theorem readable_readOnly : (sP 0x2B).StackReadable .w32 (bytesOf 0x1000 4) :=
  ⟨by decide, by decide, by decide, by decide, by decide, by decide, by decide, by decide, by decide⟩

theorem readable_absent : (sP 0x33).StackReadable .w32 (bytesOf 0x1000 4) :=
  ⟨by decide, by decide, by decide, by decide, by decide, by decide, by decide, by decide, by decide⟩

/-- Entry 6 is found; its present bit is clear. -/
theorem finds_entry6 : (sP 0x33).FindsDescriptor ((sP 0x33).poppedSelector (bytesOf 0x1000 4)) entry6 0x80035 ∧
    entry6.present = false :=
  ⟨⟨0x80000, 0x57, bytesOf 0x80030 8, by decide, by decide, ⟨by decide, by decide, by decide⟩, by decide, by decide⟩, by decide⟩

/-- Clause by clause, POP DS in `Prot`: S13, S6, S8. -/
theorem witness_DataSegmentFaults :
    ((sP 0x5B).mode = .prot ∧ (sP 0x5B).Runs (.popDs bare) ∧ (sP 0x5B).StackReadable .w32 (bytesOf 0x1000 4) ∧
      3 < ((sP 0x5B).poppedSelector (bytesOf 0x1000 4)).toNat ∧
      (sP 0x5B).OutsideTable ((sP 0x5B).poppedSelector (bytesOf 0x1000 4))) ∧
    (sDpl0.mode = .prot ∧ sDpl0.Runs (.popDs bare) ∧ sDpl0.StackReadable .w32 (bytesOf 0x1000 4) ∧
      3 < (sDpl0.poppedSelector (bytesOf 0x1000 4)).toNat ∧
      sDpl0.FindsDescriptor (sDpl0.poppedSelector (bytesOf 0x1000 4)) (descriptorOf 0x00CF92000000FFFF) 0x80015 ∧
      ¬ sDpl0.AcceptsData (sDpl0.poppedSelector (bytesOf 0x1000 4)) (descriptorOf 0x00CF92000000FFFF)) ∧
    ((sP 0x33).mode = .prot ∧ (sP 0x33).Runs (.popDs bare) ∧ (sP 0x33).StackReadable .w32 (bytesOf 0x1000 4) ∧
      3 < ((sP 0x33).poppedSelector (bytesOf 0x1000 4)).toNat ∧
      (sP 0x33).FindsDescriptor ((sP 0x33).poppedSelector (bytesOf 0x1000 4)) entry6 0x80035 ∧
      (sP 0x33).AcceptsData ((sP 0x33).poppedSelector (bytesOf 0x1000 4)) entry6 ∧ entry6.present = false) :=
  ⟨⟨by decide, ⟨by decide, by decide, by decide⟩, readable_outside, by decide, .inr (.inr ⟨by decide, by decide⟩)⟩,
    ⟨by decide, ⟨by decide, by decide, by decide⟩, ⟨by decide, by decide, by decide, by decide, by decide, by decide, by decide, by decide, by decide⟩, by decide,
      ⟨0x80000, 0x57, bytesOf 0x80010 8, by decide, by decide, ⟨by decide, by decide, by decide⟩, by decide, by decide⟩,
      fun h => absurd h.2 (by decide)⟩,
    ⟨by decide, ⟨by decide, by decide, by decide⟩, readable_absent, by decide, finds_entry6.1, ⟨by decide, by decide⟩, finds_entry6.2⟩⟩

/-- Clause by clause, POP SS in `Prot`: S18, S13 for SS, S21, S24. -/
theorem witness_StackSegmentFaults :
    ((sP 3).protected = true ∧ (sP 3).Runs (.popSs bare) ∧
      (sP 3).StackReadable (operandSize (sP 3).ctx bare) (bytesOf 0x1000 4) ∧
      ((sP 3).poppedSelector (bytesOf 0x1000 4)).toNat ≤ 3) ∧
    ((sP 0x5B).protected = true ∧ (sP 0x5B).Runs (.popSs bare) ∧ (sP 0x5B).StackReadable .w32 (bytesOf 0x1000 4) ∧
      3 < ((sP 0x5B).poppedSelector (bytesOf 0x1000 4)).toNat ∧
      (sP 0x5B).OutsideTable ((sP 0x5B).poppedSelector (bytesOf 0x1000 4))) ∧
    ((sP 0x2B).protected = true ∧ (sP 0x2B).Runs (.popSs bare) ∧ (sP 0x2B).StackReadable .w32 (bytesOf 0x1000 4) ∧
      3 < ((sP 0x2B).poppedSelector (bytesOf 0x1000 4)).toNat ∧
      (sP 0x2B).FindsDescriptor ((sP 0x2B).poppedSelector (bytesOf 0x1000 4)) entry5 0x8002D ∧
      ¬ (sP 0x2B).AcceptsStack ((sP 0x2B).poppedSelector (bytesOf 0x1000 4)) entry5) ∧
    ((sP 0x33).protected = true ∧ (sP 0x33).Runs (.popSs bare) ∧ (sP 0x33).StackReadable .w32 (bytesOf 0x1000 4) ∧
      3 < ((sP 0x33).poppedSelector (bytesOf 0x1000 4)).toNat ∧
      (sP 0x33).FindsDescriptor ((sP 0x33).poppedSelector (bytesOf 0x1000 4)) entry6 0x80035 ∧
      (sP 0x33).AcceptsStack ((sP 0x33).poppedSelector (bytesOf 0x1000 4)) entry6 ∧ entry6.present = false) :=
  ⟨⟨by decide, ⟨by decide, by decide, by decide⟩, readable_null, by decide⟩,
    ⟨by decide, ⟨by decide, by decide, by decide⟩, readable_outside, by decide, .inr (.inr ⟨by decide, by decide⟩)⟩,
    ⟨by decide, ⟨by decide, by decide, by decide⟩, readable_readOnly, by decide,
      ⟨0x80000, 0x57, bytesOf 0x80028 8, by decide, by decide, ⟨by decide, by decide, by decide⟩, by decide, by decide⟩,
      fun h => absurd h.2.2.1 (by decide)⟩,
    ⟨by decide, ⟨by decide, by decide, by decide⟩, readable_absent, by decide, finds_entry6.1, ⟨by decide, by decide, by decide, by decide⟩,
      finds_entry6.2⟩⟩

/-! #### Exceptions of the accesses -/

theorem witness_LockRaisesInvalidOpcode : WellFormed c16 (.popRm16 (legacy [.addrSize, .lock]) (.mem (.base 0 .absent))) ∧
    .lock ∈ (legacy [.addrSize, .lock]).legacy := by decide

theorem witness_InvalidOpcodeCases : WellFormed c64 (.popR64 (legacy [.lock]) 0) ∧
    (Instr.popR64 (legacy [.lock]) 0).prefixes.has .lock = true ∧
    WellFormed sA.ctx (.popSs bare) ∧ (Instr.popSs bare).invalidIn64 = true ∧ sA.mode = .long64 := by decide

/-- Q8: SP = FFFFH on two bytes (at FFFEH they are inside, `witness_PopRegisterCompletes_boundary`). F2: the eighth byte is
the first non-canonical one (a byte lower, none is, `sA`'s destination). -/
theorem witness_StackOutsideSegment :
    ((rm16 [] [(4, 0xFFFF)] []).Runs (.popR16 bare 0) ∧ (rm16 [] [(4, 0xFFFF)] []).mode ≠ .long64 ∧
      inLimit ((rm16 [] [(4, 0xFFFF)] []).seg .ss).hidden (rm16 [] [(4, 0xFFFF)] []).stackPointer.toNat 2 = false) ∧
    ((long64 [] [(4, 0x7FFFFFFFFFF9)] []).Runs (.popR64 bare 0) ∧ (long64 [] [(4, 0x7FFFFFFFFFF9)] []).mode = .long64 ∧
      (∃ k < 8, canonical (long64 [] [(4, 0x7FFFFFFFFFF9)] []).plat.vaBits
        ((long64 [] [(4, 0x7FFFFFFFFFF9)] []).x rsp + BitVec.ofNat 64 k) = false) ∧
      (∀ k < 7, canonical 48 ((long64 [] [(4, 0x7FFFFFFFFFF9)] []).x rsp + BitVec.ofNat 64 k) = true)) :=
  ⟨⟨⟨by decide, by decide, by decide⟩, by decide, by decide⟩, ⟨⟨by decide, by decide, by decide⟩, by decide, by decide, by decide⟩⟩

/-- A 16-bit stack whose segment reaches past its offsets, and SP one byte too high for four bytes. -/
def sWide : State :=
  { small 0xFFFD with
    segs := { (small 0).segs with
      ss := { flat 3 0x23 with hidden := { (flat 3 0x23).hidden with attr := { (flat 3 0x23).hidden.attr with db := false } } } } }

/-- A10 with the first byte that straddles, and a 16-bit stack. -/
theorem witness_StackStraddleRefused :
    ((long64 [] [(4, 0xFFFFFFFFFFFFFFF9)] []).Runs (.popR64 bare 0) ∧ (long64 [] [(4, 0xFFFFFFFFFFFFFFF9)] []).mode = .long64 ∧
      (∀ k < 8, canonical 48 ((long64 [] [(4, 0xFFFFFFFFFFFFFFF9)] []).x rsp + BitVec.ofNat 64 k) = true) ∧
      2 ^ 64 + 1 = (long64 [] [(4, 0xFFFFFFFFFFFFFFF9)] []).stackPointer.toNat + 8) ∧
    (sWide.Runs (.popR32 bare 0) ∧ inLimit (sWide.seg .ss).hidden sWide.stackPointer.toNat 4 = true ∧ sWide.mode ≠ .long64 ∧
      2 ^ sWide.stackAddrSize.bits + 1 = sWide.stackPointer.toNat + 4) :=
  ⟨⟨⟨by decide, by decide, by decide⟩, by decide, by decide, by decide⟩, ⟨⟨by decide, by decide, by decide⟩, by decide, by decide, by decide⟩⟩

/-- F6: alignment checking at CPL 3, RSP = 7004H. -/
def sAlign : State := { long64 [] [(4, 0x7004)] [] with cr0 := 0x80040001, rflags := 0x40002 }

theorem witness_StackUnaligned : sAlign.Runs (.popR64 bare 0) ∧ sAlign.cr0.getLsbD 18 = true ∧ sAlign.rflags.getLsbD 18 = true ∧
    sAlign.cpl = 3 ∧ (sAlign.linear .ss sAlign.stackPointer).toNat % 8 ≠ 0 ∧ sAlign.stackPointer.toNat % 8 ≠ 0 ∧
    sAlign.mode = .long64 ∧ (∀ k < 8, canonical sAlign.plat.vaBits (sAlign.x rsp + BitVec.ofNat 64 k) = true) ∧
    sAlign.stackPointer.toNat + 8 ≤ 2 ^ sAlign.stackAddrSize.bits :=
  ⟨⟨by decide, by decide, by decide⟩, by decide, by decide, by decide, by decide, by decide, by decide, by decide, by decide⟩

/-- A page that refuses reads begins at the fifth byte of the stack read. -/
def sPage : State :=
  { long64 [] [(4, 0x6FFC)] [] with
    plat := { State.reset.plat with
      pages := [{ range := { lo := 0x7000, size := 0x1000 }, reads := true, writes := true, user := true, supervisor := true
                  target := .fails 4 }] } }

theorem witness_StackPageFault : sPage.Runs (.popR64 bare 0) ∧ sPage.mode = .long64 ∧
    (∀ j < 8, canonical sPage.plat.vaBits (sPage.x rsp + BitVec.ofNat 64 j) = true) ∧
    sPage.stackPointer.toNat + 8 ≤ 2 ^ sPage.stackAddrSize.bits ∧ sPage.alignCheckEnabled = false ∧
    (∀ j < 4, sPage.translate .read sPage.priv (sPage.linAt (sPage.linear .ss sPage.stackPointer) j) = .ok (0x6FFC + j)) ∧
    sPage.translate .read sPage.priv (sPage.linAt (sPage.linear .ss sPage.stackPointer) 4) = .error 4 :=
  ⟨⟨by decide, by decide, by decide⟩, by decide, by decide, by decide, by decide, by decide, by decide⟩

/-- `P32` with another hidden part in DS and an address in EBX. -/
def sD (h : Hidden) (a : Word64) : State :=
  { prot32 3 [] [(4, 0x100000), (3, a)] [(0x100000, 4, 0x12345678)] with
    segs := { (prot32 3 [] [] []).segs with ds := { sel := 0x23, hidden := h } } }

def flatHidden : Hidden := (flat 3 0x23).hidden

def sNull : State := sD { flatHidden with attr := { flatHidden.attr with unusable := true } } 0x2000

def sReadOnly : State := sD { flatHidden with attr := { flatHidden.attr with writable := false } } 0x2000

def sShort (a : Word64) : State := sD { flatHidden with limit := 0xFFF } a

/-- POP dword [EBX]. -/
def popAtEbx : Instr := .popRm32 bare (.mem (.base 3 .absent))

/-- Clause by clause: F10; F11; four bytes at FFDH under a limit of FFFH, those at FFCH being inside (F14). -/
theorem witness_DestinationChecks :
    (sNull.Runs popAtEbx ∧ sNull.StackReadable .w32 (bytesOf 0x100000 4) ∧ sNull.mode = .prot ∧ sNull.protected = true ∧
      sNull.memSeg bare (.base 3 .absent) = .ds ∧ (sNull.seg .ds).hidden.attr.unusable = true) ∧
    (sReadOnly.Runs popAtEbx ∧ sReadOnly.StackReadable .w32 (bytesOf 0x100000 4) ∧ sReadOnly.protected = true ∧
      sReadOnly.writable (sReadOnly.memSeg bare (.base 3 .absent)) = false) ∧
    ((sShort 0xFFD).Runs popAtEbx ∧ (sShort 0xFFD).StackReadable .w32 (bytesOf 0x100000 4) ∧
      (sShort 0xFFD).writable .ds = true ∧ ((sShort 0xFFD).seg .ds).hidden.attr.unusable = false ∧
      inLimit ((sShort 0xFFD).seg .ds).hidden ((sShort 0xFFD).destAddr bare (.base 3 .absent) .w32 popAtEbx.len).toNat 4 = false ∧
      inLimit ((sShort 0xFFC).seg .ds).hidden ((sShort 0xFFC).destAddr bare (.base 3 .absent) .w32 popAtEbx.len).toNat 4 = true) :=
  ⟨⟨⟨by decide, by decide, by decide⟩, ⟨by decide, by decide, by decide, by decide, by decide, by decide, by decide, by decide, by decide⟩, by decide, by decide, by decide, by decide⟩,
    ⟨⟨by decide, by decide, by decide⟩, ⟨by decide, by decide, by decide, by decide, by decide, by decide, by decide, by decide, by decide⟩, by decide, by decide⟩,
    ⟨⟨by decide, by decide, by decide⟩, ⟨by decide, by decide, by decide, by decide, by decide, by decide, by decide, by decide, by decide⟩, by decide, by decide, by decide, by decide⟩⟩

/-- F3, F4: through DS, and through SS; the last byte alone is non-canonical. -/
theorem witness_DestinationNonCanonical :
    ∃ s : State, s = long64 [] [(4, 0x7000), (0, 0x7FFFFFFFFFF9), (5, 0x7FFFFFFFFFF9)] [(0x7000, 8, T)] ∧
      s.Runs (.popRm64 bare (.mem (.base 0 .absent))) ∧ s.StackReadable .w64 (bytesOf 0x7000 8) ∧
      (∃ k < 8, canonical 48 (s.linear .ds (s.destAddr bare (.base 0 .absent) .w64 2) + BitVec.ofNat 64 k) = false) ∧
      s.memSeg bare (.base 5 (.byte 0)) = .ss ∧
      (∃ k < 8, canonical 48 (s.linear .ss (s.destAddr bare (.base 5 (.byte 0)) .w64 3) + BitVec.ofNat 64 k) = false) :=
  ⟨_, rfl, ⟨by decide, by decide, by decide⟩,
    ⟨by decide, by decide, by decide, by decide, by decide, by decide, by decide, by decide, by decide⟩,
    by decide, by decide, by decide⟩

theorem witness_WritableRule : sReadOnly.mode = .prot ∧ sReadOnly.writable .ds = false ∧ sReadOnly.writable .cs = false ∧
    (rm16 [] [] []).mode = .real ∧ (v86 [] [] []).mode = .v86 ∧ sA.mode = .long64 := by decide

/-- POP qword [RAX]. -/
def popAtRax : Instr := .popRm64 bare (.mem (.base 0 .absent))

/-- `L64` with a quadword at 7000H and an address in RAX. -/
def sT (a : Word64) : State := long64 [] [(4, 0x7000), (0, a)] [(0x7000, 8, T)]

/-- POP dword [BX], BX one too high for four bytes. -/
def popAtBx : Instr := .popRm32 (legacy [.addrSize]) (.mem (.base16 .bx .absent))

/-- 64-bit addresses, and 16-bit ones in a segment that reaches past them: the first byte that straddles. -/
theorem witness_DestinationStraddleRefused :
    ((sT 0xFFFFFFFFFFFFFFF9).Runs popAtRax ∧ (sT 0xFFFFFFFFFFFFFFF9).StackReadable .w64 (bytesOf 0x7000 8) ∧
      (sT 0xFFFFFFFFFFFFFFF9).PassesCheck .ds ((sT 0xFFFFFFFFFFFFFFF9).destAddr bare (.base 0 .absent) .w64 2) 8 .write ∧
      2 ^ 64 + 1 = ((sT 0xFFFFFFFFFFFFFFF9).destAddr bare (.base 0 .absent) .w64 2).toNat + 8) ∧
    ((sD flatHidden 0xFFFD).Runs popAtBx ∧ (sD flatHidden 0xFFFD).StackReadable .w32 (bytesOf 0x100000 4) ∧
      (sD flatHidden 0xFFFD).PassesCheck .ds
        ((sD flatHidden 0xFFFD).destAddr (legacy [.addrSize]) (.base16 .bx .absent) .w32 popAtBx.len) 4 .write ∧
      2 ^ 16 + 1 =
        ((sD flatHidden 0xFFFD).destAddr (legacy [.addrSize]) (.base16 .bx .absent) .w32 popAtBx.len).toNat + 4) :=
  ⟨⟨⟨by decide, by decide, by decide⟩, ⟨by decide, by decide, by decide, by decide, by decide, by decide, by decide, by decide, by decide⟩, ⟨by decide, by decide, by decide, by decide⟩, by decide⟩,
    ⟨⟨by decide, by decide, by decide⟩, ⟨by decide, by decide, by decide, by decide, by decide, by decide, by decide, by decide, by decide⟩, ⟨by decide, by decide, by decide, by decide⟩, by decide⟩⟩

/-- F9: alignment checking at CPL 3, RAX = 3001H, the stack aligned. -/
def sAlignDest : State := { sT 0x3001 with cr0 := 0x80040001, rflags := 0x40002 }

theorem witness_DestinationUnaligned : sAlignDest.Runs popAtRax ∧ sAlignDest.StackReadable .w64 (bytesOf 0x7000 8) ∧
    sAlignDest.PassesCheck .ds (sAlignDest.destAddr bare (.base 0 .absent) .w64 popAtRax.len) 8 .write ∧
    (sAlignDest.destAddr bare (.base 0 .absent) .w64 popAtRax.len).toNat + 8 ≤ 2 ^ (addrSize sAlignDest.ctx bare).bits ∧
    sAlignDest.cr0.getLsbD 18 = true ∧ sAlignDest.rflags.getLsbD 18 = true ∧ sAlignDest.cpl = 3 ∧
    (sAlignDest.linear .ds (sAlignDest.destAddr bare (.base 0 .absent) .w64 popAtRax.len)).toNat % 8 ≠ 0 ∧
    (sAlignDest.destAddr bare (.base 0 .absent) .w64 popAtRax.len).toNat % 8 ≠ 0 :=
  ⟨⟨by decide, by decide, by decide⟩, ⟨by decide, by decide, by decide, by decide, by decide, by decide, by decide, by decide, by decide⟩, ⟨by decide, by decide, by decide, by decide⟩, by decide, by decide, by decide, by decide, by decide,
    by decide⟩

/-- F18: a page that can be read and not written begins at the fifth byte of the destination. -/
def sPageDest : State :=
  { sT 0x2FFC with
    plat := { State.reset.plat with
      pages := [{ range := { lo := 0x3000, size := 0x1000 }, reads := false, writes := true, user := true, supervisor := true
                  target := .fails 7 }] } }

theorem witness_DestinationPageFault : sPageDest.Runs popAtRax ∧ sPageDest.StackReadable .w64 (bytesOf 0x7000 8) ∧
    sPageDest.PassesCheck .ds (sPageDest.destAddr bare (.base 0 .absent) .w64 popAtRax.len) 8 .write ∧
    (sPageDest.destAddr bare (.base 0 .absent) .w64 popAtRax.len).toNat + 8 ≤ 2 ^ (addrSize sPageDest.ctx bare).bits ∧
    sPageDest.linear .ds (sPageDest.destAddr bare (.base 0 .absent) .w64 popAtRax.len) = 0x2FFC ∧
    sPageDest.alignCheckEnabled = false ∧
    (∀ j < 4, sPageDest.translate .write sPageDest.priv (sPageDest.linAt 0x2FFC j) = .ok (0x2FFC + j)) ∧
    sPageDest.translate .write sPageDest.priv (sPageDest.linAt 0x2FFC 4) = .error 7 :=
  ⟨⟨by decide, by decide, by decide⟩, ⟨by decide, by decide, by decide, by decide, by decide, by decide, by decide, by decide, by decide⟩, ⟨by decide, by decide, by decide, by decide⟩, by decide, by decide, by decide, by decide, by decide⟩

/-- A program whose first byte is the destination's last. -/
def sText : State := { sT 0x3FFFF9 with prog := { base := 0x400000, bytes := [0x8F, 0x00] } }

/-- `sP` with byte 5 of entry 4, whose accessed bit is clear, the program's. -/
def sTextDesc : State := { sP 0x23 with prog := { base := 0x80025, bytes := [0x1F] } }

/-- The second clause, for DS and for SS. -/
theorem witness_ProgramWriteRefused_descriptor : sTextDesc.mode = .prot ∧ sTextDesc.Runs (.popDs bare) ∧
    sTextDesc.Runs (.popSs bare) ∧ sTextDesc.StackReadable .w32 (bytesOf 0x1000 4) ∧
    3 < (sTextDesc.poppedSelector (bytesOf 0x1000 4)).toNat ∧
    sTextDesc.FindsDescriptor (sTextDesc.poppedSelector (bytesOf 0x1000 4)) entry4 0x80025 ∧
    sTextDesc.AcceptsData (sTextDesc.poppedSelector (bytesOf 0x1000 4)) entry4 ∧
    sTextDesc.AcceptsStack (sTextDesc.poppedSelector (bytesOf 0x1000 4)) entry4 ∧
    entry4.present = true ∧ entry4.accessed = false ∧ sTextDesc.inText 0x80025 = true :=
  ⟨by decide, ⟨by decide, by decide, by decide⟩, ⟨by decide, by decide, by decide⟩, ⟨by decide, by decide, by decide, by decide, by decide, by decide, by decide, by decide, by decide⟩, by decide,
    ⟨0x80000, 0x57, bytesOf 0x80020 8, by decide, by decide, ⟨by decide, by decide, by decide⟩, by decide, by decide⟩,
    ⟨by decide, by decide⟩, ⟨by decide, by decide, by decide, by decide⟩, by decide, by decide, by decide⟩

theorem witness_ProgramWriteRefused : sText.Runs popAtRax ∧ sText.StackReadable .w64 (bytesOf 0x7000 8) ∧
    sText.Reaches .ds (sText.destAddr bare (.base 0 .absent) .w64 popAtRax.len) 8 (addrSize sText.ctx bare) .write
      (bytesOf 0x3FFFF9 8) ∧
    (∃ q ∈ bytesOf 0x3FFFF9 8, sText.inText q = true) ∧ sText.inText 0x3FFFFF = false :=
  ⟨⟨by decide, by decide, by decide⟩, ⟨by decide, by decide, by decide, by decide, by decide, by decide, by decide, by decide, by decide⟩, ⟨by decide, by decide, by decide, by decide, by decide, by decide, by decide, by decide, by decide⟩, by decide, by decide⟩

/-- Paging on in `Prot`, and supervisor accesses refused from the fifth byte of entry 4 on. -/
def sPageDesc : State :=
  { sP 0x23 with
    cr0 := 0x80000001
    plat := { State.reset.plat with
      pages := [{ range := { lo := 0x80024, size := 0x1000 }, reads := true, writes := true, user := false, supervisor := true
                  target := .fails 0 }] } }

theorem witness_DescriptorPageFault : sPageDesc.mode = .prot ∧ sPageDesc.Runs (.popDs bare) ∧ sPageDesc.Runs (.popSs bare) ∧
    sPageDesc.StackReadable .w32 (bytesOf 0x1000 4) ∧ sPageDesc.poppedSelector (bytesOf 0x1000 4) = 0x23 ∧
    sPageDesc.table 0x23 = some (0x80000, 0x57) ∧ selIndex 0x23 * 8 + 7 ≤ 0x57 ∧
    (∀ j < 4, sPageDesc.translate .read .supervisor (sPageDesc.linAt (sPageDesc.descLinear 0x80000 0x23) j) = .ok (0x80020 + j)) ∧
    sPageDesc.translate .read .supervisor (sPageDesc.linAt (sPageDesc.descLinear 0x80000 0x23) 4) = .error 0 :=
  ⟨by decide, ⟨by decide, by decide, by decide⟩, ⟨by decide, by decide, by decide⟩, ⟨by decide, by decide, by decide, by decide, by decide, by decide, by decide, by decide, by decide⟩, by decide, by decide, by decide, by decide, by decide⟩

/-- A fault in each kind of mode: `Prot`, `Real` (Q8), `V86` (F20). -/
theorem witness_Faults : (∃ f, exec (.popDs bare) (sP 0x5B) = .fault f) ∧
    ((rm16 [] [(4, 0xFFFF)] []).mode = .real ∧ ∃ f, exec (.popR16 bare 0) (rm16 [] [(4, 0xFFFF)] []) = .fault f) ∧
    ((v86 [] [(4, 0xFFFF)] []).mode = .v86 ∧ ∃ f, exec (.popR16 bare 0) (v86 [] [(4, 0xFFFF)] []) = .fault f) :=
  ⟨⟨_, rfl⟩, ⟨by decide, _, rfl⟩, ⟨by decide, _, rfl⟩⟩

/-! #### Frames -/

/-- A completed POP of each kind of destination, for the statements about every next state: `ControlUnchanged`,
`RegisterFrame`, `MemoryFrame`, `RipAdvances`, `InhibitionAfterPopSs`. -/
theorem witness_Next : (∃ t, exec (.popR64 bare 3) sA = .next t) ∧
    (∃ t, exec (.popRm64 bare (.mem (.base 0 .absent))) sA = .next t) ∧ (∃ t, exec (.popSs bare) sR = .next t) ∧
    (∃ t, exec (.popDs bare) (sP 3) = .next t) ∧ (∃ t, exec (.popSs bare) (sP 0x23) = .next t) :=
  ⟨⟨_, rfl⟩, ⟨_, rfl⟩, ⟨_, rfl⟩, ⟨_, rfl⟩, ⟨_, rfl⟩⟩

/-- Each clause of `MemoryFrame` has its premises; the states are those of `witness_Next`. -/
theorem witness_MemoryFrame :
    ((Instr.popR64 bare 3).memDest = none ∧ (Instr.popR64 bare 3).segDest = none) ∧
    sA.BytesAt .write sA.priv (sA.linear .ds (sA.destAddr bare (.base 0 .absent) .w64 2)) 8 (bytesOf 0x7FFFFFFFFFF8 8) ∧
    sR.mode = .real ∧ ((sP 3).poppedSelector (bytesOf 0x1000 4)).toNat ≤ 3 ∧
    (sP 0x23).FindsDescriptor ((sP 0x23).poppedSelector (bytesOf 0x1000 4)) entry4 0x80025 :=
  ⟨by decide, writable_sA.reaches.bytes, by decide, by decide, finds_entry4⟩

/-- Every flag but AC and VM turned over; a next state, a refusal and a fault. -/
theorem witness_OtherFlagsAreNotRead :
    ((0xFFFFFFFFFFF9FFFD : Word64).getLsbD 17 = sA.rflags.getLsbD 17 ∧
      (0xFFFFFFFFFFF9FFFD : Word64).getLsbD 18 = sA.rflags.getLsbD 18) ∧
    (∃ t, exec (.popR64 bare 3) sA = .next t) ∧ (∃ r, exec (.popR32 bare 3) sA = .refused r) ∧
    (∃ f, exec (.popDs bare) sA = .fault f) :=
  ⟨by decide, ⟨_, rfl⟩, ⟨_, rfl⟩, ⟨_, rfl⟩⟩

theorem witness_StepKeepsInvariant : (State.reset.withFetchWord 8 0x58).Inv ∧
    ∃ t, step (State.reset.withFetchWord 8 0x58) = .next t :=
  ⟨⟨by decide, by decide, by intro n; cases n <;> decide, by decide, by decide, by decide, by decide⟩, _, rfl⟩

end Sys2Proof.Tests
end

section
/-! PROOFS. What every completed POP leaves (10_state.md R38), and the invariant of a run. `Completes` says once what a
completed POP is, by its destination; the frame of every next state and the invariant are read off it. -/

namespace Sys2Proof.Machine

/-! ### A segment load that answers (41_pop_segment.md R141 to R148) -/

/-- The ways a selector is loaded into segment register `n`, each with the hidden part it answers and the memory of the
state after it: by `RealHidden`, with a NULL selector, and from a descriptor. -/
inductive State.SegLoad (s : State) (n : SegName) (sel : Word16) : Hidden → State → Prop
  | real (u : State) : s.mode = .real ∨ s.mode = .v86 → u.mem = s.mem → s.SegLoad n sel (s.realHidden n sel) u
  | null (u : State) : ¬ (s.mode = .real ∨ s.mode = .v86) → n ≠ .ss → selNull sel = true → u.mem = s.mem →
      s.SegLoad n sel s.nullHidden u
  | descriptor (u : State) (d : Descriptor) (byte5 : Nat) : ¬ (s.mode = .real ∨ s.mode = .v86) →
      selNull sel = false → s.lookup sel = .ok (some (d, byte5)) → (n = .ss → d.isWritableData = true) →
      AccessedBitOnly s u byte5 →
      s.SegLoad n sel (hiddenOf d (s.accessedBit d)) u

theorem State.segLoad_of_segHidden {s u : State} {n : SegName} {sel : Word16} {h : Hidden}
    (hs : s.segHidden n sel = .ok (h, u)) : s.SegLoad n sel h u := by
  unfold State.segHidden at hs
  split at hs
  next hm =>
    obtain ⟨rfl, rfl⟩ := Prod.mk.inj (Except.ok.inj hs)
    exact .real _ (.inl hm) rfl
  split at hs
  next hm =>
    obtain ⟨rfl, rfl⟩ := Prod.mk.inj (Except.ok.inj hs)
    exact .real _ (.inr hm) rfl
  next hreal hv86 =>
  have hm : ¬ (s.mode = .real ∨ s.mode = .v86) := not_or.mpr ⟨hreal, hv86⟩
  split at hs
  next hn =>
    obtain ⟨hnull, d, byte5, hl, -, hw, -, -, rfl, hmark⟩ := (s.loadSS_ok_iff sel h u).mp hs
    obtain ⟨-, hmem, -⟩ := State.markAccessed_ok hmark
    exact .descriptor u d byte5 hm hnull hl (fun _ => hw) hmem
  next hn =>
    split at hs
    next hnull =>
      obtain ⟨rfl, rfl⟩ := Prod.mk.inj (Except.ok.inj hs)
      exact .null _ hm hn hnull rfl
    next hnull =>
      obtain ⟨d, byte5, hl, -, -, -, rfl, hmark⟩ := (s.loadDataSeg_ok_iff sel h u).mp hs
      obtain ⟨-, hmem, -⟩ := State.markAccessed_ok hmark
      exact .descriptor u d byte5 hm (Bool.eq_false_iff.mpr hnull) hl (fun hn' => absurd hn' hn) hmem

/-! ### A completed POP, by its destination -/

/-- The ways a POP completes: into a general register (40_pop_general.md R121), into memory (R129), and into a segment
register (41_pop_segment.md R148), with the state each leaves. -/
inductive Completes (i : Instr) (s : State) : State → Prop
  | reg (r : Reg) (ps : List Nat) : i.regDest = some r → i.memDest = none → i.segDest = none →
      s.StackReadable (i.width s.ctx) ps →
      Completes i s
        (((s.writeSP s (i.width s.ctx)).writeReg (i.width s.ctx) r (s.mem.value ps)).retire i.len false)
  | mem (m : Mem) (ps qs : List Nat) : i.regDest = none → i.memDest = some m → i.segDest = none →
      s.StackReadable (i.width s.ctx) ps → s.DestWritable i.prefixes m (i.width s.ctx) i.len qs →
      Completes i s
        ((({ s with
            mem := s.mem.writeAll (s.storeOrder (qs.zip (leBytes (i.width s.ctx).bytes (s.mem.value ps))))
            draws := s.draws + 1 } : State).writeSP s (i.width s.ctx)).retire i.len false)
  | seg (n : SegName) (ps : List Nat) (h : Hidden) (u : State) : i.regDest = none → i.memDest = none →
      i.segDest = some n → s.StackReadable (i.width s.ctx) ps → s.segHidden n (s.poppedSelector ps) = .ok (h, u) →
      Completes i s
        (((u.writeSP s (i.width s.ctx)).setSeg n { sel := s.poppedSelector ps, hidden := h }).retire i.len
          (decide (n = .ss)))

theorem completes_of_next {i : Instr} {s t : State} (h : exec i s = .next t) : Completes i s t := by
  obtain ⟨hr, hb⟩ := runs_of_next h
  rcases dest_cases i with ⟨r, h1, h2, h3⟩ | ⟨m, h1, h2, h3⟩ | ⟨n, h1, h2, h3⟩
  · rw [body_of_regDest h1] at hb
    obtain ⟨ps, hps, rfl⟩ := (popToReg_ok_iff _ _ _ _ _).mp hb
    exact .reg r ps h1 h2 h3 hps
  · rw [body_of_memDest h2] at hb
    obtain ⟨ps, qs, hps, hqs, rfl⟩ := (popToMem_ok_iff _ _ _ _ _ _).mp hb
    exact .mem m ps qs h1 h2 h3 hps hqs
  · rw [body_of_runs h3 hr] at hb
    obtain ⟨ps, hid, u, hps, hs, rfl⟩ := (popToSeg_ok_iff _ _ _ _ _).mp hb
    rw [popSelector_eq hps] at hs ⊢
    exact .seg n ps hid u h1 h2 h3 hps hs

/-! ### What the writes of a POP keep -/

theorem SameControl.writeReg {s u : State} (h : SameControl s u) (w : Width) (r : Reg) (v : Word64) :
    SameControl s (u.writeReg w r v) := by
  cases w <;> exact ⟨h.rflags, h.cplField, h.cr0, h.cr2, h.efer, h.gdtr, h.ldtr, h.prog, h.plat⟩

theorem SameControl.writeSP {s u : State} (h : SameControl s u) (s0 : State) (w : Width) :
    SameControl s (u.writeSP s0 w) := h.writeReg _ _ _

theorem SameControl.setSeg {s u : State} (h : SameControl s u) (n : SegName) (v : SegReg) :
    SameControl s (u.setSeg n v) :=
  ⟨h.rflags, h.cplField, h.cr0, h.cr2, h.efer, h.gdtr, h.ldtr, h.prog, h.plat⟩

theorem SameControl.retire {s u : State} (h : SameControl s u) (len : Nat) (b : Bool) :
    SameControl s (u.retire len b) :=
  ⟨h.rflags, h.cplField, h.cr0, h.cr2, h.efer, h.gdtr, h.ldtr, h.prog, h.plat⟩

theorem State.x_congr {s t : State} (h : t.regs = s.regs) (q : Reg) : t.x q = s.x q := by
  simp only [State.x, h]

/-- The next instruction pointer reads the mode and `rip` (10_state.md R24). -/
theorem State.nextRip_congr {s t : State} (hm : t.mode = s.mode) (hr : t.rip = s.rip) (len : Nat) :
    t.nextRip len = s.nextRip len := by
  unfold State.nextRip
  rw [hm, hr]

theorem State.nextRip_toNat (s : State) (len : Nat) :
    (s.nextRip len).toNat = (s.rip.toNat + len) % 2 ^ (if s.mode = .long64 then 64 else 32) := by
  unfold State.nextRip
  split
  next hm => simp [hm]
  next hm => simp only [Width.trunc_toNat, Width.bits, BitVec.toNat_add, BitVec.toNat_ofNat, if_neg hm]; omega

/-- The bytes of an instruction are as many as its length says (30_encoding.md R104). -/
theorem encode_length (i : Instr) : (encode i).length = i.len := by
  cases i with
  | popRm16 p d => exact Laws.EncodedLength.popRm16 p d
  | popRm32 p d => exact Laws.EncodedLength.popRm32 p d
  | popRm64 p d => exact Laws.EncodedLength.popRm64 p d
  | popR16 p r => exact Laws.EncodedLength.popR16 p r
  | popR32 p r => exact Laws.EncodedLength.popR32 p r
  | popR64 p r => exact Laws.EncodedLength.popR64 p r
  | popDs p => exact Laws.EncodedLength.popDs p
  | popEs p => exact Laws.EncodedLength.popEs p
  | popSs p => exact Laws.EncodedLength.popSs p
  | popFs16 p => exact Laws.EncodedLength.popFs16 p
  | popFs32 p => exact Laws.EncodedLength.popFs32 p
  | popFs64 p => exact Laws.EncodedLength.popFs64 p
  | popGs16 p => exact Laws.EncodedLength.popGs16 p
  | popGs32 p => exact Laws.EncodedLength.popGs32 p
  | popGs64 p => exact Laws.EncodedLength.popGs64 p

/-- No POP loads CS (10_state.md R26). -/
theorem segDest_ne_cs (i : Instr) : i.segDest ≠ some .cs := by
  cases i <;> simp [Instr.segDest]

/-- The segment registers a POP loads in `Long64` (30_encoding.md R106). -/
theorem segDest_of_long64 {i : Instr} {s : State} {n : SegName} (hr : s.Runs i) (hm : s.mode = .long64)
    (hn : i.segDest = some n) : n = .fs ∨ n = .gs := by
  have hv : i.invalidIn64 ≠ true := fun hv => hr.valid hv hm
  cases i <;> simp_all [Instr.segDest, Instr.invalidIn64]

/-! ### What a completed POP leaves -/

section
variable {i : Instr} {s t : State}

theorem next_sameControl (h : exec i s = .next t) : SameControl s t := by
  cases completes_of_next h with
  | reg r ps => exact (((SameControl.refl s).writeSP s _).writeReg _ r _).retire _ _
  | mem m ps qs =>
    refine (SameControl.writeSP ?_ s _).retire _ _
    exact ⟨rfl, rfl, rfl, rfl, rfl, rfl, rfl, rfl, rfl⟩
  | seg n ps hid u _ _ _ _ hs =>
    obtain ⟨-, -, -, hc, -⟩ := State.segHidden_ok hs
    exact ((hc.writeSP s _).setSeg n _).retire _ _

/-- General registers other than the stack pointer and the destination (10_state.md R38). -/
theorem next_x (h : exec i s = .next t) {q : Reg} (hq : q ≠ rsp) (hd : i.regDest ≠ some q) : t.x q = s.x q := by
  cases completes_of_next h with
  | reg r ps hr =>
    have hqr : q ≠ r := fun e => hd (e ▸ hr)
    simp [hq, hqr]
  | mem m ps qs =>
    rw [State.x_retire, State.x_writeSP_ne _ _ _ hq]
    rfl
  | seg n ps hid u _ _ _ _ hs =>
    obtain ⟨hregs, -⟩ := State.segHidden_ok hs
    rw [State.x_retire, State.x_setSeg, State.x_writeSP_ne _ _ _ hq]
    exact State.x_congr hregs q

/-- Segment registers other than the destination (10_state.md R38). -/
theorem next_seg (h : exec i s = .next t) {q : SegName} (hd : i.segDest ≠ some q) : t.seg q = s.seg q := by
  cases completes_of_next h with
  | reg r ps => simp [State.seg]
  | mem m ps qs => simp [State.seg]
  | seg n ps hid u _ _ hn _ hs =>
    obtain ⟨-, -, hsegs, -⟩ := State.segHidden_ok hs
    have hqn : q ≠ n := fun e => hd (e ▸ hn)
    simp [State.seg, hqn, hsegs]

theorem next_cs (h : exec i s = .next t) : t.segs.cs = s.segs.cs := next_seg h (segDest_ne_cs i)

theorem next_mode (h : exec i s = .next t) : t.mode = s.mode := State.mode_congr (next_sameControl h) (next_cs h)

theorem next_cpl (h : exec i s = .next t) : t.cpl = s.cpl := State.cpl_congr (next_sameControl h) (next_cs h)

/-- The last thing a completed POP does is to move `rip` and to set or clear the inhibition (10_state.md R24, R37). -/
theorem next_retired (h : exec i s = .next t) :
    ∃ u : State, t = u.retire i.len (decide (i.segDest = some .ss)) ∧ u.rip = s.rip := by
  cases completes_of_next h with
  | reg r ps _ _ hn => exact ⟨_, by rw [hn]; rfl, by simp⟩
  | mem m ps qs _ _ hn => exact ⟨_, by rw [hn]; rfl, by simp⟩
  | seg n ps hid u _ _ hn _ hs =>
    obtain ⟨-, hrip, -⟩ := State.segHidden_ok hs
    exact ⟨_, by simp only [hn, Option.some.injEq]; rfl, by simp [hrip]⟩

theorem next_rip (h : exec i s = .next t) : t.rip = s.nextRip i.len := by
  have hm := next_mode h
  obtain ⟨u, rfl, hu⟩ := next_retired h
  exact State.nextRip_congr (t := u) hm hu i.len

theorem next_ssInhibit (h : exec i s = .next t) : t.ssInhibit = decide (i.segDest = some .ss) := by
  obtain ⟨u, rfl, -⟩ := next_retired h
  rfl

/-- The canonical form of memory is kept (10_state.md R40). -/
theorem next_mem_wf (h : exec i s = .next t) (hw : s.mem.wf = true) : t.mem.wf = true := by
  cases completes_of_next h with
  | reg r ps => simpa using hw
  | mem m ps qs => simpa using Memory.writeAll_wf _ hw
  | seg n ps hid u _ _ _ _ hs =>
    obtain ⟨-, -, -, -, hmem, -⟩ := State.segHidden_ok hs
    simpa using hmem hw

/-- A register destination changes no byte. -/
theorem next_mem_of_reg (h : exec i s = .next t) (hm : i.memDest = none) (hn : i.segDest = none) : t.mem = s.mem := by
  cases completes_of_next h with
  | reg r ps => simp
  | mem m ps qs _ hm' => simp [hm] at hm'
  | seg n ps hid u _ _ hn' => simp [hn] at hn'

/-- A memory destination changes no byte but those its write reaches (40_pop_general.md R129). -/
theorem next_read_of_mem (h : exec i s = .next t) {m : Mem} (hm : i.memDest = some m) {qs : List Nat}
    (hq : s.BytesAt .write s.priv
      (s.linear (s.memSeg i.prefixes m) (s.destAddr i.prefixes m (i.width s.ctx) i.len)) (i.width s.ctx).bytes qs)
    {a : Nat} (ha : a ∉ qs) : t.mem.read a = s.mem.read a := by
  cases completes_of_next h with
  | reg r ps _ hm' => simp [hm] at hm'
  | seg n ps hid u _ hm' => simp [hm] at hm'
  | mem m' ps qs' _ hm' _ _ hd =>
    obtain rfl : m = m' := Option.some.inj (hm.symm.trans hm')
    have hqs : qs' = qs := Except.ok.inj
      (((s.physRun_ok_iff _ _ _ _ _).mpr hd.reaches.bytes).symm.trans ((s.physRun_ok_iff _ _ _ _ _).mpr hq))
    subst hqs
    simp only [State.retire_mem, State.writeSP_mem]
    refine Memory.read_writeAll_ne _ _ fun c hc e => ha ?_
    rw [State.mem_storeOrder] at hc
    exact e ▸ (List.of_mem_zip hc).1

/-- What a completed POP into a segment register loaded, and what it did to memory. -/
theorem next_segLoad (h : exec i s = .next t) {n : SegName} (hn : i.segDest = some n) :
    ∃ ps u, s.StackReadable (i.width s.ctx) ps ∧ s.SegLoad n (s.poppedSelector ps) (t.seg n).hidden u ∧
      t.mem = u.mem := by
  cases completes_of_next h with
  | reg r ps _ _ hn' => simp [hn] at hn'
  | mem m ps qs _ _ hn' => simp [hn] at hn'
  | seg n' ps hid u _ _ hn' hps hs =>
    obtain rfl : n = n' := Option.some.inj (hn.symm.trans hn')
    refine ⟨ps, u, hps, ?_, by simp⟩
    simpa [State.seg] using State.segLoad_of_segHidden hs

/-- The selector loaded is the one on the stack, however its bytes are listed. -/
theorem next_segLoad_of_stack (h : exec i s = .next t) {n : SegName} (hn : i.segDest = some n) {ps : List Nat}
    (hps : s.StackReadable (i.width s.ctx) ps) :
    ∃ u, s.SegLoad n (s.poppedSelector ps) (t.seg n).hidden u ∧ t.mem = u.mem := by
  obtain ⟨ps', u, hps', hl, ht⟩ := next_segLoad h hn
  rw [← popSelector_eq hps', stackReadable_value hps hps', popSelector_eq hps] at hl
  exact ⟨u, hl, ht⟩

end

/-! ### What a segment load leaves in memory and in the hidden part -/

section
variable {s u : State} {n : SegName} {sel : Word16} {h : Hidden}

/-- A load in `Real` and in `V86` reads no table (41_pop_segment.md R141). -/
theorem State.SegLoad.mem_of_real_or_v86 (hl : s.SegLoad n sel h u) (hm : s.mode = .real ∨ s.mode = .v86) :
    u.mem = s.mem := by
  cases hl with
  | real _ _ hmem => exact hmem
  | null _ hm' => exact absurd hm hm'
  | descriptor _ d byte5 hm' => exact absurd hm hm'

/-- A NULL selector reads no table (41_pop_segment.md R144). -/
theorem State.SegLoad.mem_of_null (hl : s.SegLoad n sel h u) (hnull : selNull sel = true) : u.mem = s.mem := by
  cases hl with
  | real _ _ hmem => exact hmem
  | null _ _ _ _ hmem => exact hmem
  | descriptor _ d byte5 _ hnull' => simp [hnull] at hnull'

/-- A load changes no byte but byte 5 of the descriptor (41_pop_segment.md R147). -/
theorem State.SegLoad.read_of_lookup (hl : s.SegLoad n sel h u) {d : Descriptor} {byte5 : Nat}
    (hd : s.lookup sel = .ok (some (d, byte5))) {a : Nat} (ha : a ≠ byte5) : u.mem.read a = s.mem.read a := by
  cases hl with
  | real _ _ hmem => rw [hmem]
  | null _ _ _ _ hmem => rw [hmem]
  | descriptor _ d' byte5' _ _ hd' _ hacc =>
    rw [hd] at hd'
    cases hd'
    exact hacc.elsewhere a ha

/-- Outside `Long64` every load gives a base of 32 bits (10_state.md R27). -/
theorem State.SegLoad.base_lt (hl : s.SegLoad n sel h u) (hm : s.mode ≠ .long64) : h.base.toNat < 2 ^ 32 := by
  cases hl with
  | real =>
    have hb : (s.realHidden n sel).base = sel.setWidth 64 <<< 4 := by unfold State.realHidden; split <;> rfl
    have := sel.isLt
    rw [hb, BitVec.toNat_shiftLeft, BitVec.toNat_setWidth, Nat.shiftLeft_eq]
    omega
  | null =>
    simp only [State.nullHidden, if_neg hm, Width.trunc_toNat, Width.bits]
    omega
  | descriptor _ d =>
    have := d.base.isLt
    simp only [hiddenOf, BitVec.toNat_setWidth]
    omega

/-- What POP SS loads in `Prot` and `Compat` is a writable data segment (41_pop_segment.md R145). -/
theorem State.SegLoad.stack_writable (hl : s.SegLoad .ss sel h u) (hp : s.protected = true) :
    h.attr.kind = .data ∧ h.attr.writable = true := by
  cases hl with
  | real _ hm => rcases hm with hm | hm <;> simp [State.protected, hm] at hp
  | null _ _ hn => exact absurd rfl hn
  | descriptor _ d byte5 _ _ _ hw => simpa [hiddenOf, Descriptor.isWritableData] using hw rfl

end

/-! ### The invariant of a run -/

theorem State.protected_congr {s t : State} (h : t.mode = s.mode) : t.protected = s.protected := by
  simp only [State.protected, h]

theorem State.writable_congr {s t : State} {n : SegName} (h : t.seg n = s.seg n) : t.writable n = s.writable n := by
  simp only [State.writable, h]

/-- A step that answers a next state ran an instruction. -/
theorem step_next {s t : State} (h : step s = .next t) : ∃ i, exec i s = .next t := by
  unfold step at h
  split at h
  next e _ => cases e <;> cases h
  next => cases h
  next i _ => exact ⟨i, h⟩

section
variable {i : Instr} {s t : State}

/-- `rip` stays within 32 bits where it has 32 (10_state.md R24). -/
theorem next_rip_lt (h : exec i s = .next t) (hm : t.mode ≠ .long64) : t.rip.toNat < 2 ^ 32 := by
  rw [next_mode h] at hm
  rw [next_rip h, State.nextRip_toNat, if_neg hm]
  omega

/-- A base that has 32 bits stays within them (10_state.md R27). -/
theorem next_base_lt (h : exec i s = .next t) {n : SegName} (hm : t.mode = .long64 → n ≠ .fs ∧ n ≠ .gs)
    (hb : (s.seg n).hidden.base.toNat < 2 ^ 32) : (t.seg n).hidden.base.toNat < 2 ^ 32 := by
  rw [next_mode h] at hm
  by_cases hn : i.segDest = some n
  · have hmode : s.mode ≠ .long64 := fun h64 => by
      obtain ⟨hfs, hgs⟩ := hm h64
      exact (segDest_of_long64 (runs_of_next h).1 h64 hn).elim hfs hgs
    obtain ⟨ps, u, -, hl, -⟩ := next_segLoad h hn
    exact hl.base_lt hmode
  · rwa [next_seg h hn]

/-- In `Prot` and `Compat` SS stays a writable data segment (70_reset_and_hazards.md R201). -/
theorem next_stack_writable (h : exec i s = .next t) (hs : s.protected = true → s.writable .ss = true)
    (hp : t.protected = true) : t.writable .ss = true := by
  rw [State.protected_congr (next_mode h)] at hp
  by_cases hn : i.segDest = some .ss
  · obtain ⟨ps, u, -, hl, -⟩ := next_segLoad h hn
    simp [State.writable, hl.stack_writable hp]
  · rw [State.writable_congr (next_seg h hn)]
    exact hs hp

theorem next_inv (h : exec i s = .next t) (hs : s.Inv) : t.Inv := by
  have hc := next_sameControl h
  have hm := next_mode h
  have hcs := next_cs h
  exact {
    mem := next_mem_wf h hs.mem
    rip := next_rip_lt h
    bases := fun n hn => next_base_lt h hn (hs.bases n (hm ▸ hn))
    long := fun h64 => hcs ▸ hs.long (hm ▸ h64)
    real := fun hr => by rw [State.crPG, hc.cr0, hc.cplField]; exact hs.real (hm ▸ hr)
    v86 := fun hv => hc.cplField.trans (hs.v86 (hm ▸ hv))
    stack := next_stack_writable h hs.stack }

end

end Sys2Proof.Machine

end

section
/-! The bits of a segment descriptor and the read of one (10_state.md R31, R32). -/

namespace Sys2Proof

/-! ### The bits of a descriptor (10_state.md R32) -/

theorem getLsbD_iff_div_mod {w : Nat} (q : BitVec w) (k : Nat) : q.getLsbD k = true ↔ q.toNat / 2 ^ k % 2 = 1 := by
  rw [BitVec.getLsbD, Nat.testBit_eq_decide_div_mod_eq, decide_eq_true_iff]

theorem extractLsb'_toNat_div_mod {w : Nat} (q : BitVec w) (start len : Nat) :
    (q.extractLsb' start len).toNat = q.toNat / 2 ^ start % 2 ^ len := by
  rw [BitVec.extractLsb'_toNat, Nat.shiftRight_eq_div_pow]

/-- One value written above another. -/
theorem append_toNat {n m : Nat} (a : BitVec n) (b : BitVec m) : (a ++ b).toNat = a.toNat * 2 ^ m + b.toNat := by
  rw [BitVec.toNat_append, ← Nat.shiftLeft_add_eq_or_of_lt b.isLt, Nat.shiftLeft_eq]

theorem descLimit20_toNat (q : Word64) :
    (descLimit20 q).toNat = q.toNat % 2 ^ 16 + q.toNat / 2 ^ 48 % 16 * 2 ^ 16 := by
  simp only [descLimit20, append_toNat, extractLsb'_toNat_div_mod, Nat.pow_zero, Nat.div_one]
  omega

/-- The limit counts bytes, or pages of 4 KiB when G is set. -/
theorem descLimit_toNat (q : Word64) : (descLimit q).toNat =
    if q.toNat / 2 ^ 55 % 2 = 1 then (q.toNat % 2 ^ 16 + q.toNat / 2 ^ 48 % 16 * 2 ^ 16) * 2 ^ 12 + 0xFFF
    else q.toNat % 2 ^ 16 + q.toNat / 2 ^ 48 % 16 * 2 ^ 16 := by
  have hlt := (descLimit20 q).isLt
  unfold descLimit
  split
  next hg => rw [if_pos ((getLsbD_iff_div_mod q 55).mp hg), append_toNat, descLimit20_toNat]; rfl
  next hg =>
    rw [if_neg (mt (getLsbD_iff_div_mod q 55).mpr hg), BitVec.toNat_setWidth, ← descLimit20_toNat]
    omega

theorem descBase_toNat (q : Word64) :
    (descriptorOf q).base.toNat = q.toNat / 2 ^ 16 % 2 ^ 24 + q.toNat / 2 ^ 56 * 2 ^ 24 := by
  have hlt := q.isLt
  simp only [descriptorOf, append_toNat, extractLsb'_toNat_div_mod]
  omega

/-- The kind is given by S, bit 44, and by the upper type bit, bit 43. -/
theorem descKind_eq (q : Word64) : descKind q =
    if q.toNat / 2 ^ 44 % 2 = 1 then (if q.toNat / 2 ^ 43 % 2 = 1 then .code else .data) else .system := by
  simp only [descKind, getLsbD_iff_div_mod]

theorem descKind_iff (q : Word64) :
    (descKind q = .system ↔ q.toNat / 2 ^ 44 % 2 = 0) ∧ (descKind q = .code ↔ q.toNat / 2 ^ 43 % 4 = 3) ∧
      (descKind q = .data ↔ q.toNat / 2 ^ 43 % 4 = 2) := by
  have hk := descKind_eq q
  split at hk
  · split at hk <;> simp only [hk, reduceCtorEq, true_iff, false_iff] <;> omega
  · simp only [hk, reduceCtorEq, true_iff, false_iff]; omega

end Sys2Proof

namespace Sys2Proof.Machine

/-! ### The descriptor read (10_state.md R31) -/

/-- The first byte of a descriptor that `Translate` refuses ends the lookup (20_memory.md R61). -/
theorem State.lookup_pageFault {s : State} {sel : Word16} {base : Word64} {limit : Word32} {k : Nat} {code : Word32}
    (ht : s.table sel = some (base, limit)) (hlim : selIndex sel * 8 + 7 ≤ limit.toNat) (hk : k < 8)
    (hbefore : ∀ j < k, ∃ phys, s.translate .read .supervisor (s.linAt (s.descLinear base sel) j) = .ok phys)
    (hfail : s.translate .read .supervisor (s.linAt (s.descLinear base sel) k) = .error code) :
    s.lookup sel = .error (.raise (.pf code (s.linAt (s.descLinear base sel) k))) := by
  have hrun : s.translateRun .read .supervisor (s.linRun (s.descLinear base sel) 8) =
      .error (.raise (.pf code (s.linAt (s.descLinear base sel) k))) := by
    rw [← s.linRun_getD _ 8 k hk] at hfail ⊢
    refine translateRun_first _ k code (by rwa [s.linRun_length]) (fun j hj => ?_) hfail
    rw [s.linRun_getD _ 8 j (hj.trans hk)]
    exact hbefore j hj
  have hphys : s.physRun .read .supervisor (s.descLinear base sel) 8 =
      .error (.raise (.pf code (s.linAt (s.descLinear base sel) k))) := by
    unfold State.physRun
    rw [hrun]
  unfold State.lookup
  rw [ht]
  simp only [if_neg (Nat.not_lt.mpr hlim), hphys]

/-- In the protected modes nothing of a segment load comes before the lookup but the NULL test (60_exceptions.md R178). -/
theorem State.segHidden_of_lookup_error {s : State} {n : SegName} {sel : Word16} {e : Stop} (hr : s.mode ≠ .real)
    (hv : s.mode ≠ .v86) (hnull : selNull sel = false) (hl : s.lookup sel = .error e) :
    s.segHidden n sel = .error e := by
  unfold State.segHidden
  rw [if_neg hr, if_neg hv]
  split
  · simp [State.loadSS, hnull, hl]
  · simp [State.loadDataSeg, hnull, hl]

/-- The stack read done, a load that stops ends the POP. -/
theorem exec_of_segHidden_error {i : Instr} {s : State} {n : SegName} {ps : List Nat} {e : Stop}
    (hn : i.segDest = some n) (hr : s.Runs i) (hps : s.StackReadable (i.width s.ctx) ps)
    (hs : s.segHidden n (s.poppedSelector ps) = .error e) : exec i s = finish s (.error e) := by
  have hpop := (s.popRead_ok_iff _ _).mpr ⟨ps, hps, rfl⟩
  rw [exec_of_wf hr.wf hr.noLock, body_of_runs hn hr]
  unfold popToSeg
  rw [hpop]
  simp only [popSelector_eq hps, hs]

end Sys2Proof.Machine

end

section
/-! The flags of RFLAGS no POP reads (10_state.md R25): every operation of a POP commutes with replacing RFLAGS by a
value that agrees on AC and VM. -/

namespace Sys2Proof.Machine

/-- RFLAGS replaced. -/
def State.withFlags (s : State) (f : Word64) : State := { s with rflags := f }

/-- The flags POP reads, VM and AC, have the values of the state (10_state.md R34). -/
structure State.FlagsAgree (s : State) (f : Word64) : Prop where
  vm : f.getLsbD 17 = s.rflags.getLsbD 17
  ac : f.getLsbD 18 = s.rflags.getLsbD 18

/-- RFLAGS replaced in the state an outcome carries. -/
def outcomeWithFlags (f : Word64) : Host.Outcome State Fault Refusal → Host.Outcome State Fault Refusal
  | .next t => .next (t.withFlags f)
  | .fault e => .fault (e.withFlags f)
  | .refused r => .refused r

/-- RFLAGS replaced in the state a segment load answers. -/
def loadWithFlags (f : Word64) (r : Res (Hidden × State)) : Res (Hidden × State) :=
  r.map fun x => (x.1, x.2.withFlags f)

theorem State.FlagsAgree.congr {s u : State} {f : Word64} (h : s.FlagsAgree f) (hu : u.rflags = s.rflags) :
    u.FlagsAgree f := ⟨hu ▸ h.vm, hu ▸ h.ac⟩

/-- `StackAddrSize` reads the mode and SS (30_encoding.md R98). -/
theorem State.stackAddrSize_congr {s t : State} (hm : t.mode = s.mode) (hs : t.segs = s.segs) :
    t.stackAddrSize = s.stackAddrSize := by
  unfold State.stackAddrSize
  rw [hm, hs]

/-! ### The fields, and what reads no flag -/

section
variable (s : State) (f : Word64)

@[simp] theorem State.withFlags_regs : (s.withFlags f).regs = s.regs := rfl
@[simp] theorem State.withFlags_rip : (s.withFlags f).rip = s.rip := rfl
@[simp] theorem State.withFlags_rflags : (s.withFlags f).rflags = f := rfl
@[simp] theorem State.withFlags_segs : (s.withFlags f).segs = s.segs := rfl
@[simp] theorem State.withFlags_cplField : (s.withFlags f).cplField = s.cplField := rfl
@[simp] theorem State.withFlags_cr0 : (s.withFlags f).cr0 = s.cr0 := rfl
@[simp] theorem State.withFlags_efer : (s.withFlags f).efer = s.efer := rfl
@[simp] theorem State.withFlags_gdtr : (s.withFlags f).gdtr = s.gdtr := rfl
@[simp] theorem State.withFlags_ldtr : (s.withFlags f).ldtr = s.ldtr := rfl
@[simp] theorem State.withFlags_mem : (s.withFlags f).mem = s.mem := rfl
@[simp] theorem State.withFlags_prog : (s.withFlags f).prog = s.prog := rfl
@[simp] theorem State.withFlags_plat : (s.withFlags f).plat = s.plat := rfl
@[simp] theorem State.withFlags_draws : (s.withFlags f).draws = s.draws := rfl

@[simp] theorem State.x_withFlags (r : Reg) : (s.withFlags f).x r = s.x r := rfl
@[simp] theorem State.readReg_withFlags (w : Width) (r : Reg) : (s.withFlags f).readReg w r = s.readReg w r := rfl
@[simp] theorem State.seg_withFlags (n : SegName) : (s.withFlags f).seg n = s.seg n := rfl
@[simp] theorem State.writable_withFlags (n : SegName) : (s.withFlags f).writable n = s.writable n := rfl
@[simp] theorem State.table_withFlags (sel : Word16) : (s.withFlags f).table sel = s.table sel := rfl
@[simp] theorem State.storeOrder_withFlags (cs : List (Nat × Byte)) :
    (s.withFlags f).storeOrder cs = s.storeOrder cs := rfl
@[simp] theorem State.accessedBit_withFlags (d : Descriptor) : (s.withFlags f).accessedBit d = s.accessedBit d := rfl
@[simp] theorem State.setX_withFlags (r : Reg) (v : Word64) : (s.withFlags f).setX r v = (s.setX r v).withFlags f := rfl
@[simp] theorem State.setSeg_withFlags (n : SegName) (v : SegReg) :
    (s.withFlags f).setSeg n v = (s.setSeg n v).withFlags f := rfl

@[simp] theorem State.writeReg_withFlags (w : Width) (r : Reg) (v : Word64) :
    (s.withFlags f).writeReg w r v = (s.writeReg w r v).withFlags f := by
  cases w <;> rfl

end

/-! ### What reads VM or AC -/

section
variable {s : State} {f : Word64} (h : s.FlagsAgree f)
include h

@[simp] theorem State.mode_withFlags : (s.withFlags f).mode = s.mode := by
  have hvm : (s.withFlags f).flagVM = s.flagVM := h.vm
  unfold State.mode
  rw [hvm]
  rfl

@[simp] theorem State.cpl_withFlags : (s.withFlags f).cpl = s.cpl := by simp [State.cpl, h]

@[simp] theorem State.ctx_withFlags : (s.withFlags f).ctx = s.ctx := by simp [State.ctx, h]

@[simp] theorem State.stackAddrSize_withFlags : (s.withFlags f).stackAddrSize = s.stackAddrSize :=
  State.stackAddrSize_congr (State.mode_withFlags h) rfl

@[simp] theorem State.alignCheckEnabled_withFlags : (s.withFlags f).alignCheckEnabled = s.alignCheckEnabled := by
  have hac : (s.withFlags f).flagAC = s.flagAC := h.ac
  unfold State.alignCheckEnabled
  rw [hac, State.cpl_withFlags h]
  rfl

@[simp] theorem State.priv_withFlags : (s.withFlags f).priv = s.priv := by simp [State.priv, h]

@[simp] theorem State.errorCode_withFlags (code : Word32) : (s.withFlags f).errorCode code = s.errorCode code := by
  simp [State.errorCode, h]

@[simp] theorem State.nextRip_withFlags (len : Nat) : (s.withFlags f).nextRip len = s.nextRip len :=
  State.nextRip_congr (State.mode_withFlags h) rfl len

/-! ### Addresses -/

@[simp] theorem State.linear_withFlags (n : SegName) (off : Word64) :
    (s.withFlags f).linear n off = s.linear n off := by simp [State.linear, h]

@[simp] theorem State.linAt_withFlags (lin : Word64) (k : Nat) : (s.withFlags f).linAt lin k = s.linAt lin k := by
  simp [State.linAt, h]

@[simp] theorem State.linRun_withFlags (lin : Word64) (n : Nat) : (s.withFlags f).linRun lin n = s.linRun lin n := by
  simp [State.linRun, h]

@[simp] theorem State.translate_withFlags (acc : Access) (pr : Privilege) (lin : Word64) :
    (s.withFlags f).translate acc pr lin = s.translate acc pr lin := by
  simp [State.translate, State.pagingOn, State.crPG, h]

@[simp] theorem State.translateRun_withFlags (acc : Access) (pr : Privilege) (ls : List Word64) :
    (s.withFlags f).translateRun acc pr ls = s.translateRun acc pr ls := by
  induction ls with
  | nil => rfl
  | cons l ls ih => simp only [State.translateRun, State.translate_withFlags h, ih]

@[simp] theorem State.physRun_withFlags (acc : Access) (pr : Privilege) (lin : Word64) (n : Nat) :
    (s.withFlags f).physRun acc pr lin n = s.physRun acc pr lin n := by
  simp [State.physRun, h]

@[simp] theorem State.inText_withFlags (a : Nat) : (s.withFlags f).inText a = s.inText a := by
  simp [State.inText, State.textPhys, State.textOffset, h]

/-! ### Checked accesses -/

@[simp] theorem State.checkFault_withFlags (n : SegName) (off : Word64) (len : Nat) (acc : Access) :
    (s.withFlags f).checkFault n off len acc = s.checkFault n off len acc := by
  unfold State.checkFault
  rw [State.protected_congr (State.mode_withFlags h), State.mode_withFlags h, State.linear_withFlags h,
    State.linRun_withFlags h]
  rfl

@[simp] theorem State.check_withFlags (n : SegName) (off : Word64) (len : Nat) (sz : Width) (acc : Access) :
    (s.withFlags f).check n off len sz acc = s.check n off len sz acc := by
  simp only [State.check, State.checkFault_withFlags h]

@[simp] theorem State.alignCheck_withFlags (lin off : Word64) (n : Nat) :
    (s.withFlags f).alignCheck lin off n = s.alignCheck lin off n := by simp [State.alignCheck, h]

@[simp] theorem State.segRead_withFlags (n : SegName) (off : Word64) (len : Nat) (sz : Width) :
    (s.withFlags f).segRead n off len sz = s.segRead n off len sz := by
  simp [State.segRead, State.memRead, h]

theorem State.memWrite_withFlags (lin : Word64) (n : Nat) (v : Word64) :
    (s.withFlags f).memWrite lin n v = (s.memWrite lin n v).map (·.withFlags f) := by
  have htext : (s.withFlags f).inText = s.inText := funext (State.inText_withFlags h)
  unfold State.memWrite
  rw [State.physRun_withFlags h, State.priv_withFlags h, htext]
  cases s.physRun .write s.priv lin n with
  | error e => rfl
  | ok ps =>
    simp only
    cases ps.find? s.inText <;> rfl

theorem State.segWrite_withFlags (n : SegName) (off : Word64) (len : Nat) (sz : Width) (v : Word64) :
    (s.withFlags f).segWrite n off len sz v = (s.segWrite n off len sz v).map (·.withFlags f) := by
  simp only [State.segWrite, State.check_withFlags h, State.linear_withFlags h, State.alignCheck_withFlags h,
    State.memWrite_withFlags h]
  split
  · rfl
  · split <;> rfl

/-! ### The stack and the memory destination -/

@[simp] theorem State.stackPointer_withFlags : (s.withFlags f).stackPointer = s.stackPointer := by
  simp [State.stackPointer, h]

@[simp] theorem State.spAfter_withFlags (w : Width) : (s.withFlags f).spAfter w = s.spAfter w := by
  simp [State.spAfter, h]

@[simp] theorem State.popRead_withFlags (w : Width) : (s.withFlags f).popRead w = s.popRead w := by
  simp [State.popRead, h]

@[simp] theorem State.writeSP_withFlags (u : State) (w : Width) :
    (u.withFlags f).writeSP (s.withFlags f) w = (u.writeSP s w).withFlags f := by
  simp [State.writeSP, h]

@[simp] theorem State.spAdvanced_withFlags (w : Width) : (s.withFlags f).spAdvanced w = (s.spAdvanced w).withFlags f := by
  simp [State.spAdvanced, h]

@[simp] theorem State.effAddr_withFlags (m : Mem) (as : Width) (next : Word64) :
    (s.withFlags f).effAddr m as next = s.effAddr m as next := by
  have hindex : ∀ scale index, (s.withFlags f).indexValue as scale index = s.indexValue as scale index := fun _ _ => rfl
  have hbase : ∀ b, (s.withFlags f).baseValue16 b = s.baseValue16 b := fun _ => rfl
  cases m <;> simp [State.effAddr, hindex, hbase, h]

@[simp] theorem State.memSeg_withFlags (p : Prefixes) (m : Mem) : (s.withFlags f).memSeg p m = s.memSeg p m := by
  simp [State.memSeg, h]

@[simp] theorem State.destAddr_withFlags (p : Prefixes) (m : Mem) (w : Width) (len : Nat) :
    (s.withFlags f).destAddr p m w len = s.destAddr p m w len := by
  have hsp : (s.spAdvanced w).FlagsAgree f := h.congr (State.spAdvanced_rflags s w)
  simp [State.destAddr, State.wrapCase, h, hsp]

theorem State.retire_withFlags (len : Nat) (b : Bool) :
    (s.withFlags f).retire len b = (s.retire len b).withFlags f := by
  simp only [State.retire, State.nextRip_withFlags h]
  rfl

/-! ### Segment loads -/

@[simp] theorem State.lookup_withFlags (sel : Word16) : (s.withFlags f).lookup sel = s.lookup sel := by
  simp [State.lookup, State.descLinear, h]

theorem State.markAccessed_withFlags (d : Descriptor) (byte5 : Nat) :
    (s.withFlags f).markAccessed d byte5 = (s.markAccessed d byte5).map (·.withFlags f) := by
  simp only [State.markAccessed, State.inText_withFlags h]
  split
  · rfl
  · split <;> rfl

theorem State.loadDataSeg_withFlags (sel : Word16) :
    (s.withFlags f).loadDataSeg sel = loadWithFlags f (s.loadDataSeg sel) := by
  simp only [State.loadDataSeg, State.lookup_withFlags h, State.cpl_withFlags h, State.markAccessed_withFlags h]
  cases s.lookup sel with
  | error e => rfl
  | ok o =>
    cases o with
    | none => rfl
    | some db =>
      obtain ⟨d, byte5⟩ := db
      simp only
      split
      · rfl
      split
      · rfl
      split
      · rfl
      · cases s.markAccessed d byte5 <;> rfl

theorem State.loadSS_withFlags (sel : Word16) : (s.withFlags f).loadSS sel = loadWithFlags f (s.loadSS sel) := by
  simp only [State.loadSS, State.lookup_withFlags h, State.cpl_withFlags h, State.markAccessed_withFlags h]
  split
  · rfl
  · cases s.lookup sel with
    | error e => rfl
    | ok o =>
      cases o with
      | none => rfl
      | some db =>
        obtain ⟨d, byte5⟩ := db
        simp only
        split
        · rfl
        split
        · rfl
        split
        · rfl
        split
        · rfl
        · cases s.markAccessed d byte5 <;> rfl

theorem State.segHidden_withFlags (n : SegName) (sel : Word16) :
    (s.withFlags f).segHidden n sel = loadWithFlags f (s.segHidden n sel) := by
  have hreal : (s.withFlags f).realHidden n sel = s.realHidden n sel := by simp [State.realHidden, h]
  have hnull : (s.withFlags f).nullHidden = s.nullHidden := by simp [State.nullHidden, h]
  simp only [State.segHidden, State.mode_withFlags h, State.loadSS_withFlags h, State.loadDataSeg_withFlags h, hreal,
    hnull]
  repeat' split
  all_goals rfl

/-! ### The pseudocode -/

theorem popToReg_withFlags (r : Reg) (w : Width) (len : Nat) :
    popToReg r w len (s.withFlags f) = (popToReg r w len s).map (·.withFlags f) := by
  simp only [popToReg, State.popRead_withFlags h, State.writeSP_withFlags h, State.writeReg_withFlags]
  split
  · rfl
  · rw [State.retire_withFlags (h.congr (by simp))]
    rfl

theorem popToMem_withFlags (p : Prefixes) (m : Mem) (w : Width) (len : Nat) :
    popToMem p m w len (s.withFlags f) = (popToMem p m w len s).map (·.withFlags f) := by
  simp only [popToMem, State.popRead_withFlags h, State.memSeg_withFlags h, State.destAddr_withFlags h,
    State.ctx_withFlags h, State.segWrite_withFlags h]
  split
  · rfl
  next v _ =>
    cases hw : s.segWrite (s.memSeg p m) (s.destAddr p m w len) w.bytes (addrSize s.ctx p) v with
    | error e => rfl
    | ok t =>
      obtain ⟨qs, -, -, rfl⟩ := (s.segWrite_ok_iff _ _ _ _ _ t (Width.bytes_pos w)).mp hw
      simp only [Except.map, State.writeSP_withFlags h]
      rw [State.retire_withFlags (h.congr (by simp))]

theorem popToSeg_withFlags (n : SegName) (w : Width) (len : Nat) :
    popToSeg n w len (s.withFlags f) = (popToSeg n w len s).map (·.withFlags f) := by
  simp only [popToSeg, State.popRead_withFlags h, State.segHidden_withFlags h]
  split
  · rfl
  next v _ =>
    cases hs : s.segHidden n (popSelector v) with
    | error e => rfl
    | ok hu =>
      obtain ⟨hid, u⟩ := hu
      obtain ⟨-, -, -, hc, -⟩ := State.segHidden_ok hs
      simp only [loadWithFlags, Except.map, State.writeSP_withFlags h, State.setSeg_withFlags]
      rw [State.retire_withFlags (h.congr (by simp [hc.rflags]))]

theorem body_withFlags (i : Instr) : i.body (s.withFlags f) = (i.body s).map (·.withFlags f) := by
  have hctx := State.ctx_withFlags h
  rcases dest_cases i with ⟨r, hr, -⟩ | ⟨m, -, hm, -⟩ | ⟨n, -, -, hn⟩
  · rw [body_of_regDest hr, body_of_regDest hr, hctx, popToReg_withFlags h]
  · rw [body_of_memDest hm, body_of_memDest hm, hctx, popToMem_withFlags h]
  · rw [body_of_segDest hn, body_of_segDest hn, hctx, State.mode_withFlags h, popToSeg_withFlags h]
    split <;> rfl

/-! ### The outcome -/

theorem takeException_withFlags (e : Exc) :
    takeException e (s.withFlags f) = outcomeWithFlags f (takeException e s) := by
  cases e <;> simp only [takeException, State.errorCode_withFlags h] <;> rfl

theorem finish_withFlags (b : Res State) :
    finish (s.withFlags f) (b.map (·.withFlags f)) = outcomeWithFlags f (finish s b) := by
  cases b with
  | ok t => rfl
  | error e =>
    cases e with
    | raise e => exact takeException_withFlags h e
    | refuse r => rfl

/-- A POP commutes with replacing the flags it does not read. -/
theorem exec_withFlags (i : Instr) : exec i (s.withFlags f) = outcomeWithFlags f (exec i s) := by
  rw [exec_eq, exec_eq, body_withFlags h, perform, perform, State.ctx_withFlags h, takeException_withFlags h,
    finish_withFlags h]
  repeat' split
  all_goals rfl

end

end Sys2Proof.Machine

end

section
/-! The statements about the state, settled. -/

namespace Sys2Proof.Proofs

open Sys2Proof Sys2Proof.Machine

/-- Settles O58: a step is a completed POP, and every field of the invariant is kept by one. -/
theorem stepKeepsInvariant : Obligations.StepKeepsInvariant := fun _ _ hs h =>
  (step_next h).elim fun _ hi => next_inv hi hs

/-- Settles O13, field by field. -/
theorem descriptorLayout : Obligations.DescriptorLayout := by
  intro q
  obtain ⟨hsystem, hcode, hdata⟩ := descKind_iff q
  refine ⟨descBase_toNat q, descLimit_toNat q, extractLsb'_toNat_div_mod q 45 2, getLsbD_iff_div_mod q 47,
    getLsbD_iff_div_mod q 40, getLsbD_iff_div_mod q 54, getLsbD_iff_div_mod q 53, hsystem, hcode, hdata,
    fun (hk : descKind q = .data) => ?_, fun (hk : descKind q = .code) => ?_⟩
  · simp only [descriptorOf, hk, decide_true, Bool.true_and, getLsbD_iff_div_mod, and_self]
  · simp only [descriptorOf, hk, decide_true, Bool.true_and, getLsbD_iff_div_mod, and_self]

/-- Settles O46: the stack read done, the selector goes to the lookup, whose first refused byte ends the POP. -/
theorem descriptorPageFault : Obligations.DescriptorPageFault := by
  intro i n s ps base limit k code hn hreal hv86 hr hps hsel ht hlim hk hbefore hfail
  have hnull : selNull (s.poppedSelector ps) = false :=
    Bool.eq_false_iff.mpr fun h => absurd ((selNull_iff _).mp h) (Nat.not_le.mpr hsel)
  have hlookup := State.lookup_pageFault ht hlim hk hbefore hfail
  rw [exec_of_segHidden_error hn hr hps (State.segHidden_of_lookup_error hreal hv86 hnull hlookup)]
  simp only [finish, takeException, State.errorCode, if_neg hreal]

/-- Settles O52: the frame of control state, and that mode and privilege read nothing else but CS. -/
theorem controlUnchanged : Obligations.ControlUnchanged := fun _ _ _ h =>
  ⟨next_sameControl h, next_mode h, next_cpl h⟩

/-- Settles O53: what a POP writes of the registers is its destination and the stack pointer, and CS is no destination. -/
theorem registerFrame : Obligations.RegisterFrame := fun _ _ _ h =>
  ⟨fun _ hq hd => next_x h hq hd, fun _ hd => next_seg h hd, next_cs h⟩

/-- Settles O54: where a POP writes memory at all, it is the bytes of the destination or byte 5 of the descriptor. -/
theorem memoryFrame : Obligations.MemoryFrame := by
  intro i s t h
  refine ⟨next_mem_of_reg h, fun m hm qs hq a ha => next_read_of_mem h hm hq ha, fun n hn hm => ?_,
    fun n ps hn hps hnull => ?_, fun n ps d byte5 hn hps hd a ha => ?_⟩
  · obtain ⟨_, u, -, hl, ht⟩ := next_segLoad h hn
    exact ht.trans (hl.mem_of_real_or_v86 hm)
  · obtain ⟨u, hl, ht⟩ := next_segLoad_of_stack h hn hps
    exact ht.trans (hl.mem_of_null ((selNull_iff _).mpr hnull))
  · obtain ⟨u, hl, ht⟩ := next_segLoad_of_stack h hn hps
    rw [ht]
    exact hl.read_of_lookup ((s.lookup_some_iff _ d byte5).mpr hd) ha

/-- Settles O55: the length the model adds is the number of bytes encoded. -/
theorem ripAdvances : Obligations.RipAdvances := by
  intro i s t h
  rw [next_rip h, State.nextRip_toNat, encode_length]

/-- Settles O56: the inhibition is what `retire` sets, and IF is a flag no POP writes. -/
theorem inhibitionAfterPopSs : Obligations.InhibitionAfterPopSs := by
  intro i s t h
  have hi := next_ssInhibit h
  have hf : t.flagIF = s.rflags.getLsbD 9 := by rw [State.flagIF, (next_sameControl h).rflags]
  refine ⟨fun hs => ?_, fun hs => ?_⟩
  · have ht : t.ssInhibit = true := hi.trans (decide_eq_true hs)
    exact ⟨ht, by simp [State.interruptible, ht]⟩
  · have ht : t.ssInhibit = false := hi.trans (decide_eq_false hs)
    exact ⟨ht, by simp [State.interruptible, ht, hf]⟩

/-- Settles O57: the three outcomes of one commutation. -/
theorem otherFlagsAreNotRead : Obligations.OtherFlagsAreNotRead := by
  intro i s f hvm hac
  have key : exec i { s with rflags := f } = outcomeWithFlags f (exec i s) := exec_withFlags ⟨hvm, hac⟩ i
  refine ⟨fun t ht => ?_, fun r hr => ?_, fun e he => ?_⟩
  · rw [key, ht]; rfl
  · rw [key, hr]; rfl
  · rw [key, he]; rfl

/-- Settles O9: the model's chain of tests, with the bits written out. -/
theorem modeRule : Obligations.ModeRule := by
  intro s
  simp only [State.mode, State.crPE, State.eferLMA, State.flagVM, Bool.not_eq_true', Bool.and_eq_true]

/-- Settles O11: the 16-bit write by its low and its high part. -/
theorem registerWriteWidths : Obligations.RegisterWriteWidths := by
  intro s r v
  refine ⟨State.x_writeReg64_self s r v, ?_, ?_, fun w q hq => State.x_writeReg_ne s w v hq⟩
  · have hlow := replaceLow_low .w16 (s.x r) v
    have hhigh := replaceLow16_high (s.x r) v
    simp only [Width.bits] at hlow
    rw [State.x_writeReg16_self]
    omega
  · rw [State.x_writeReg32_self, append_32_toNat, BitVec.toNat_setWidth]
    omega

end Sys2Proof.Proofs
end

section
/-! PROOFS. The words of 20_memory.md: canonical addresses (R55), linear addresses (R52), limits (R54) and little-endian
values in memory (R51). -/

namespace Sys2Proof.Machine

/-! ### Canonical addresses (20_memory.md R55) -/

/-- A number of `n + 1` bits is all zeros or all ones exactly when every bit equals the top one. -/
theorem zeros_or_ones_iff {t n : Nat} (ht : t < 2 ^ (n + 1)) :
    t = 0 ∨ t = 2 ^ (n + 1) - 1 ↔ ∀ j ≤ n, t.testBit j = t.testBit n := by
  constructor
  · rintro (rfl | rfl) j hj
    · simp
    · simp only [Nat.testBit_two_pow_sub_one, Nat.lt_succ_of_le hj, Nat.lt_succ_self]
  · intro h
    have above : ∀ j, n < j → t.testBit j = false := fun j hj =>
      Nat.testBit_lt_two_pow (ht.trans_le (Nat.pow_le_pow_right Nat.two_pos hj))
    cases htop : t.testBit n
    case false =>
      refine .inl (Nat.eq_of_testBit_eq fun j => ?_)
      rw [Nat.zero_testBit]
      rcases Nat.lt_or_ge n j with hj | hj
      · exact above j hj
      · exact (h j hj).trans htop
    case true =>
      refine .inr (Nat.eq_of_testBit_eq fun j => ?_)
      rw [Nat.testBit_two_pow_sub_one]
      rcases Nat.lt_or_ge n j with hj | hj
      · simp [above j hj, hj]
      · simp [h j hj, htop, hj]

/-- The bits of an address from `VA_BITS - 1` up, as the number the model tests. -/
theorem canonical_iff {vaBits : Nat} (a : Word64) (hpos : 1 ≤ vaBits) (hle : vaBits ≤ 64) :
    canonical vaBits a = true ↔ ∀ k, vaBits - 1 ≤ k → k ≤ 63 → a.getLsbD k = a.getLsbD 63 := by
  obtain ⟨m, rfl⟩ : ∃ m, vaBits = m + 1 := ⟨vaBits - 1, by omega⟩
  have hm : m ≤ 63 := by omega
  have hlt : a.toNat / 2 ^ m < 2 ^ (63 - m + 1) := by
    rw [Nat.div_lt_iff_lt_mul (Nat.two_pow_pos m), ← Nat.pow_add, show 63 - m + 1 + m = 64 by omega]
    exact a.isLt
  have hones : 65 - (m + 1) = 63 - m + 1 := by omega
  simp only [canonical, Bool.or_eq_true, decide_eq_true_eq, Nat.add_sub_cancel, hones, zeros_or_ones_iff hlt,
    Nat.testBit_div_two_pow, Nat.sub_add_cancel hm, BitVec.getLsbD]
  constructor
  · intro h k hk hk63
    simpa only [Nat.sub_add_cancel hk] using h (k - m) (Nat.sub_le_sub_right hk63 m)
  · exact fun h j hj => h (j + m) (Nat.le_add_left m j) (by omega)

/-! ### Linear addresses (20_memory.md R52) -/

section
variable {s : State}

theorem State.linear_of_not_long64 (hm : s.mode ≠ .long64) (n : SegName) (off : Word64) :
    s.linear n off = Width.w32.trunc ((s.seg n).hidden.base + off) := by
  unfold State.linear
  split
  · contradiction
  · rfl

theorem State.linear_of_long64 (hm : s.mode = .long64) (n : SegName) (off : Word64) :
    s.linear n off = (if n = .fs ∨ n = .gs then (s.seg n).hidden.base else 0) + off := by
  simp only [State.linear, hm]

theorem State.linAt_of_not_long64 (hm : s.mode ≠ .long64) (lin : Word64) (k : Nat) :
    s.linAt lin k = Width.w32.trunc (lin + BitVec.ofNat 64 k) := by
  unfold State.linAt
  split
  · contradiction
  · rfl

theorem State.linAt_of_long64 (hm : s.mode = .long64) (lin : Word64) (k : Nat) :
    s.linAt lin k = lin + BitVec.ofNat 64 k := by
  simp only [State.linAt, hm]

/-- In `Long64` the stack pointer is the linear address of the top of the stack: it is 64 bits wide and SS has no base. -/
theorem State.linAt_stack_of_long64 (hm : s.mode = .long64) (k : Nat) :
    s.linAt (s.linear .ss s.stackPointer) k = s.x rsp + BitVec.ofNat 64 k := by
  simp [State.linAt_of_long64 hm, State.linear_of_long64 hm, State.stackPointer, State.stackAddrSize, hm, State.readReg,
    Width.trunc]

end

/-! ### Limits (20_memory.md R54) -/

theorem inLimit_iff {h : Hidden} (hup : ¬ (h.attr.kind = .data ∧ h.attr.expandDown = true)) (off n : Nat) :
    inLimit h off n = true ↔ off + n - 1 ≤ h.limit.toNat := by
  simp only [inLimit, if_neg hup, decide_eq_true_eq]

theorem inLimit_expandDown_iff {h : Hidden} (hdown : h.attr.kind = .data ∧ h.attr.expandDown = true) (off n : Nat) :
    inLimit h off n = true ↔
      h.limit.toNat < off ∧ off + n - 1 ≤ if h.attr.db = true then 2 ^ 32 - 1 else 2 ^ 16 - 1 := by
  simp only [inLimit, if_pos hdown, Bool.and_eq_true, decide_eq_true_eq, Nat.reducePow, Nat.reduceSub]

/-- The last of some bytes is at or below a bound exactly when each is. -/
theorem last_le_iff {off n bound : Nat} (hn : 0 < n) : off + n - 1 ≤ bound ↔ ∀ k < n, off + k ≤ bound :=
  ⟨fun h k hk => by omega, fun h => by have := h (n - 1) (by omega); omega⟩

/-- The first of some bytes is above a bound exactly when each is. -/
theorem first_gt_iff {off n bound : Nat} (hn : 0 < n) : bound < off ↔ ∀ k < n, bound < off + k :=
  ⟨fun h k _ => by omega, fun h => h 0 hn⟩

/-! ### Little-endian values (20_memory.md R51) -/

theorem leBytes_succ (n : Nat) (v : Word64) : leBytes (n + 1) v = v.extractLsb' 0 8 :: leBytes n (v >>> 8) := by
  have hshift : ∀ i, v.extractLsb' (8 * (i + 1)) 8 = (v >>> 8).extractLsb' (8 * i) 8 := fun i => by
    apply BitVec.eq_of_toNat_eq
    simp only [extractLsb'_toNat_div_mod, BitVec.toNat_ushiftRight, Nat.shiftRight_eq_div_pow, Nat.div_div_eq_div_mul,
      ← Nat.pow_add, Nat.mul_succ, Nat.add_comm]
  simp [leBytes, List.range_succ_eq_map, hshift]

/-- The low bytes of a value have its value modulo their width. -/
theorem leNat_leBytes (n : Nat) (v : Word64) : leNat (leBytes n v) = v.toNat % 2 ^ (8 * n) := by
  induction n generalizing v with
  | zero => simp [leBytes, leNat, Nat.mod_one]
  | succ n ih =>
    have hpow : 2 ^ (8 * (n + 1)) = 256 * 2 ^ (8 * n) := by rw [Nat.mul_succ, Nat.add_comm, Nat.pow_add]
    rw [leBytes_succ, leNat, ih, hpow, Nat.mod_mul]
    simp [Nat.shiftRight_eq_div_pow]

/-- What was stored at distinct addresses is what stands there. -/
theorem Memory.map_read_writeAll {m : Memory} (cs : List (Nat × Byte)) (hm : m.wf = true)
    (hd : (cs.map Prod.fst).Nodup) : (cs.map Prod.fst).map (m.writeAll cs).read = cs.map Prod.snd := by
  rw [List.map_map]
  exact List.map_congr_left fun _ hc => Memory.read_writeAll_mem cs hm hd hc

end Sys2Proof.Machine
end

section
/-! PROOFS. How an access stops before any byte is moved (20_memory.md R57 to R61, R71). `State.AccessStops` says once
what stops a checked access and with what; a POP whose stack read or destination stops that way ends with it. -/

namespace Sys2Proof.Machine

/-! ### The modes an exception is taken in (60_exceptions.md R177) -/

section
variable {s : State}

theorem State.not_real_of_protected (h : s.protected = true) : s.mode ≠ .real := fun hm => by
  simp [State.protected, hm] at h

theorem State.not_long64_of_protected (h : s.protected = true) : s.mode ≠ .long64 := fun hm => by
  simp [State.protected, hm] at h

theorem State.protected_iff : s.protected = true ↔ s.mode = .prot ∨ s.mode = .compat := by
  simp [State.protected]

/-- CPL is 0 in `Real` (10_state.md R33). -/
theorem State.not_real_of_cpl (h : s.cpl = 3) : s.mode ≠ .real := fun hm => by
  simp [State.cpl, hm] at h

theorem State.pagingOn_eq_false (h : s.cr0.getLsbD 31 = false ∨ s.mode = .real) : s.pagingOn = false := by
  rcases h with hpg | hm
  · simp only [State.pagingOn, State.crPG, hpg, Bool.false_and]
  · simp [State.pagingOn, hm]

theorem State.translate_of_pagingOff (h : s.pagingOn = false) (acc : Access) (pr : Privilege) (lin : Word64) :
    s.translate acc pr lin = .ok lin.toNat := by
  simp [State.translate, h]

/-- `Translate` refuses nothing in `Real` (20_memory.md R62). -/
theorem State.not_real_of_translate_error {acc : Access} {pr : Privilege} {lin : Word64} {code : Word32}
    (h : s.translate acc pr lin = .error code) : s.mode ≠ .real := fun hm => by
  rw [State.translate_of_pagingOff (State.pagingOn_eq_false (.inr hm))] at h
  cases h

theorem State.errorCode_of_not_real (h : s.mode ≠ .real) (code : Word32) : s.errorCode code = some code := if_neg h

theorem State.alignCheckEnabled_eq_true (ham : s.cr0.getLsbD 18 = true) (hac : s.rflags.getLsbD 18 = true)
    (hcpl : s.cpl = 3) : s.alignCheckEnabled = true := by
  simp [State.alignCheckEnabled, State.crAM, State.flagAC, ham, hac, hcpl]

end

/-- Where linear address and offset are both unaligned the test is not free (20_memory.md R57). -/
theorem unaligned_of_both {lin off : Word64} {n : Nat} (hlin : lin.toNat % n ≠ 0) (hoff : off.toNat % n ≠ 0) :
    unaligned lin off n = true := by
  simp [unaligned, hlin, hoff]

/-! ### `Check` (20_memory.md R59) -/

section
variable {s : State} {n : SegName} {off : Word64} {len : Nat} {acc : Access}

theorem State.checkFault_of_passesCheck (h : s.PassesCheck n off len acc) : s.checkFault n off len acc = none :=
  (s.checkFault_none_iff n off len acc).mpr ⟨h.canonical, h.usable, h.writable, h.limit⟩

theorem State.Reaches.passesCheck {sz : Width} {ps : List Nat} (h : s.Reaches n off len sz acc ps) :
    s.PassesCheck n off len acc := ⟨h.canonical, h.usable, h.writable, h.limit⟩

theorem State.checkFault_of_noncanonical (hm : s.mode = .long64) {k : Nat} (hk : k < len)
    (hc : canonical s.plat.vaBits (s.linAt (s.linear n off) k) = false) :
    s.checkFault n off len acc = some (limitFault n) := by
  have hsome : ¬ (s.linRun (s.linear n off) len).all (canonical s.plat.vaBits) = true := fun hall => by
    have := List.all_eq_true.mp hall _ (List.mem_map_of_mem (List.mem_range.mpr hk))
    exact Bool.false_ne_true (hc.symm.trans this)
  unfold State.checkFault
  rw [if_pos hm, if_neg hsome]
  rfl

theorem State.checkFault_of_unusable (hp : s.protected = true) (hn : n ≠ .ss)
    (hu : (s.seg n).hidden.attr.unusable = true) : s.checkFault n off len acc = some (.gp 0) := by
  unfold State.checkFault
  rw [if_neg (State.not_long64_of_protected hp), if_pos ⟨hp, hn, hu⟩]

/-- A write to a segment that is not writable, whether the segment is usable or not. -/
theorem State.checkFault_of_not_writable (hp : s.protected = true) (hw : s.writable n = false) :
    s.checkFault n off len .write = some (.gp 0) := by
  unfold State.checkFault
  rw [if_neg (State.not_long64_of_protected hp)]
  split
  · rfl
  · rw [if_pos ⟨hp, rfl, hw⟩]

theorem State.checkFault_of_outside (hm : s.mode ≠ .long64)
    (hu : s.protected = true → n ≠ .ss → (s.seg n).hidden.attr.unusable = false)
    (hw : s.protected = true → acc = .write → s.writable n = true)
    (hl : inLimit (s.seg n).hidden off.toNat len = false) : s.checkFault n off len acc = some (limitFault n) := by
  have husable : ¬ (s.protected = true ∧ n ≠ .ss ∧ (s.seg n).hidden.attr.unusable = true) := fun ⟨hp, hn, h⟩ =>
    Bool.false_ne_true ((hu hp hn).symm.trans h)
  have hwritable : ¬ (s.protected = true ∧ acc = .write ∧ s.writable n = false) := fun ⟨hp, ha, h⟩ =>
    Bool.false_ne_true (h.symm.trans (hw hp ha))
  unfold State.checkFault
  rw [if_neg hm, if_neg husable, if_neg hwritable, hl]
  rfl

/-- Outside the protected modes a write is checked as a read is (20_memory.md R56). -/
theorem State.checkFault_write_eq_read (hp : s.protected = false) :
    s.checkFault n off len .write = s.checkFault n off len .read := by
  simp [State.checkFault, hp]

end

/-! ### The ways an access stops -/

/-- What ends an access of `len` bytes at offset `off` of a segment before any byte is moved, in the order of R58 and R59:
an exception of `Check`, the top of the offset space (R71), the #AC test (R57), and the physical addresses (R61). -/
inductive State.AccessStops (s : State) (n : SegName) (off : Word64) (len : Nat) (sz : Width) (acc : Access) :
    Stop → Prop
  | check (e : Exc) : s.checkFault n off len acc = some e → s.AccessStops n off len sz acc (.raise e)
  | straddle : s.PassesCheck n off len acc → 2 ^ sz.bits < off.toNat + len →
      s.AccessStops n off len sz acc (.refuse .straddlesOffsetSpace)
  | unaligned : s.PassesCheck n off len acc → off.toNat + len ≤ 2 ^ sz.bits → s.alignCheckEnabled = true →
      unaligned (s.linear n off) off len = true → s.AccessStops n off len sz acc (.raise (.ac 0))
  | phys (e : Stop) : s.PassesCheck n off len acc → off.toNat + len ≤ 2 ^ sz.bits →
      (s.alignCheckEnabled = true → unaligned (s.linear n off) off len = false) →
      s.physRun acc s.priv (s.linear n off) len = .error e → s.AccessStops n off len sz acc e

section
variable {s : State} {n : SegName} {off : Word64} {len : Nat} {sz : Width} {acc : Access} {e : Stop}

/-- Which of the three stages of an access stops. -/
theorem State.AccessStops.stage (h : s.AccessStops n off len sz acc e) (hlen : 0 < len) :
    s.check n off len sz acc = .error e ∨
    (s.check n off len sz acc = .ok () ∧ s.alignCheck (s.linear n off) off len = .error e) ∨
    (s.check n off len sz acc = .ok () ∧ s.alignCheck (s.linear n off) off len = .ok () ∧
      s.physRun acc s.priv (s.linear n off) len = .error e) := by
  have passes (hp : s.PassesCheck n off len acc) (hroom : off.toNat + len ≤ 2 ^ sz.bits) :
      s.check n off len sz acc = .ok () :=
    (s.check_ok_iff n off len sz acc hlen).mpr ⟨State.checkFault_of_passesCheck hp, hroom⟩
  cases h with
  | check e he => exact .inl (by simp only [State.check, he])
  | straddle hp htop =>
    have hover : 2 ^ sz.bits ≤ off.toNat + len - 1 := by omega
    exact .inl (by simp only [State.check, State.checkFault_of_passesCheck hp, if_pos hover])
  | unaligned hp hroom hon hun =>
    exact .inr (.inl ⟨passes hp hroom, by simp only [State.alignCheck, hon, hun, Bool.and_self, if_true]⟩)
  | phys e hp hroom hal hrun =>
    exact .inr (.inr ⟨passes hp hroom, (s.alignCheck_ok_iff _ _ _).mpr hal, hrun⟩)

theorem State.segRead_of_accessStops (h : s.AccessStops n off len sz .read e) (hlen : 0 < len) :
    s.segRead n off len sz = .error e := by
  unfold State.segRead
  rcases h.stage hlen with hc | ⟨hc, ha⟩ | ⟨hc, ha, hp⟩
  · simp only [hc]
  · simp only [hc, ha]
  · simp only [hc, ha, State.memRead, hp, Except.map]

theorem State.segWrite_of_accessStops (h : s.AccessStops n off len sz .write e) (hlen : 0 < len) (v : Word64) :
    s.segWrite n off len sz v = .error e := by
  unfold State.segWrite
  rcases h.stage hlen with hc | ⟨hc, ha⟩ | ⟨hc, ha, hp⟩
  · simp only [hc]
  · simp only [hc, ha]
  · simp only [hc, ha, State.memWrite, hp]

/-- The first byte of an access that `Translate` refuses (20_memory.md R61). -/
theorem State.physRun_pageFault {pr : Privilege} {lin : Word64} {k : Nat} {code : Word32} (hk : k < len)
    (hbefore : ∀ j < k, ∃ phys, s.translate acc pr (s.linAt lin j) = .ok phys)
    (hfail : s.translate acc pr (s.linAt lin k) = .error code) :
    s.physRun acc pr lin len = .error (.raise (.pf code (s.linAt lin k))) := by
  rw [← s.linRun_getD lin len k hk] at hfail ⊢
  have hrun := translateRun_first (s.linRun lin len) k code (by rwa [s.linRun_length])
    (fun j hj => by rw [s.linRun_getD lin len j (hj.trans hk)]; exact hbefore j hj) hfail
  simp only [State.physRun, hrun]

/-- A write that gets past its checks and meets a byte of the program is refused with the first such byte
(20_memory.md R68). -/
theorem State.segWrite_of_inText {qs : List Nat} (h : s.Reaches n off len sz .write qs) (hlen : 0 < len)
    (htext : ∃ q ∈ qs, s.inText q = true) (v : Word64) :
    ∃ q ∈ qs, s.inText q = true ∧ s.segWrite n off len sz v = .error (.refuse (.writeIntoProgramText q)) := by
  have hcheck := (s.check_ok_iff n off len sz .write hlen).mpr ⟨State.checkFault_of_passesCheck h.passesCheck, h.room⟩
  have halign := (s.alignCheck_ok_iff (s.linear n off) off len).mpr h.aligned
  have hrun := (s.physRun_ok_iff .write s.priv (s.linear n off) len qs).mpr h.bytes
  obtain ⟨q, hfind⟩ := Option.isSome_iff_exists.mp (List.find?_isSome.mpr htext)
  exact ⟨q, List.mem_of_find?_eq_some hfind, List.find?_some hfind,
    by simp only [State.segWrite, hcheck, halign, State.memWrite, hrun, hfind]⟩

end

/-! ### A POP that stops with its access -/

section
variable {i : Instr} {s : State}

/-- The stack read is the first access of every POP (60_exceptions.md R178). -/
theorem exec_of_stack_stops {e : Stop} (hr : s.Runs i)
    (h : s.AccessStops .ss s.stackPointer (i.width s.ctx).bytes s.stackAddrSize .read e) :
    exec i s = finish s (.error e) :=
  exec_of_popRead_error hr (State.segRead_of_accessStops h (Width.bytes_pos _))

/-- The stack read done, a destination that cannot be written ends the POP. -/
theorem exec_of_segWrite_error {m : Mem} {ps : List Nat} {e : Stop} (hm : i.memDest = some m) (hr : s.Runs i)
    (hps : s.StackReadable (i.width s.ctx) ps)
    (h : s.segWrite (s.memSeg i.prefixes m) (s.destAddr i.prefixes m (i.width s.ctx) i.len) (i.width s.ctx).bytes
      (addrSize s.ctx i.prefixes) (s.mem.value ps) = .error e) : exec i s = finish s (.error e) := by
  have hpop := (s.popRead_ok_iff _ _).mpr ⟨ps, hps, rfl⟩
  rw [exec_of_wf hr.wf hr.noLock, body_of_memDest hm]
  simp only [popToMem, hpop, h]

theorem exec_of_dest_stops {m : Mem} {ps : List Nat} {e : Stop} (hm : i.memDest = some m) (hr : s.Runs i)
    (hps : s.StackReadable (i.width s.ctx) ps)
    (h : s.AccessStops (s.memSeg i.prefixes m) (s.destAddr i.prefixes m (i.width s.ctx) i.len) (i.width s.ctx).bytes
      (addrSize s.ctx i.prefixes) .write e) : exec i s = finish s (.error e) :=
  exec_of_segWrite_error hm hr hps (State.segWrite_of_accessStops h (Width.bytes_pos _) _)

/-- What `Check` asks of a stack read: SS has no test of its usability, and a read none of writability. -/
theorem State.stack_passesCheck {w : Width}
    (hl : s.mode ≠ .long64 → inLimit (s.seg .ss).hidden s.stackPointer.toNat w.bytes = true)
    (hc : s.mode = .long64 → ∀ k < w.bytes, canonical s.plat.vaBits (s.x rsp + BitVec.ofNat 64 k) = true) :
    s.PassesCheck .ss s.stackPointer w.bytes .read where
  canonical hm k hk := by rw [State.linAt_stack_of_long64 hm]; exact hc hm k hk
  usable _ hn := absurd rfl hn
  writable _ ha := nomatch ha
  limit := hl

end

/-! ### How each exception is taken (60_exceptions.md R177, R179) -/

section
variable {s : State}

theorem finish_limitFault (n : SegName) : finish s (.error (.raise (limitFault n))) =
    .fault (if n = .ss then .stackFault (s.errorCode 0) s else .generalProtection (s.errorCode 0) s) := by
  unfold limitFault
  split <;> rfl

theorem finish_gp (hm : s.mode ≠ .real) (code : Word32) :
    finish s (.error (.raise (.gp code))) = .fault (.generalProtection (some code) s) := by
  simp only [finish, takeException, State.errorCode_of_not_real hm]

theorem finish_ac (hm : s.mode ≠ .real) (code : Word32) :
    finish s (.error (.raise (.ac code))) = .fault (.alignmentCheck (some code) s) := by
  simp only [finish, takeException, State.errorCode_of_not_real hm]

theorem finish_pf (hm : s.mode ≠ .real) (code : Word32) (lin : Word64) :
    finish s (.error (.raise (.pf code lin))) = .fault (.pageFault (some code) lin { s with cr2 := lin }) := by
  simp only [finish, takeException, State.errorCode_of_not_real hm]

end

/-! ### The accessed bit in the program (41_pop_segment.md R147, 20_memory.md R68) -/

theorem selNull_eq_false {sel : Word16} (h : 3 < sel.toNat) : selNull sel = false :=
  Bool.eq_false_iff.mpr fun hn => absurd ((selNull_iff sel).mp hn) (Nat.not_le.mpr h)

section
variable {s : State} {sel : Word16} {d : Descriptor} {byte5 : Nat}

theorem State.markAccessed_of_inText (hd : d.accessed = false) (ht : s.inText byte5 = true) :
    s.markAccessed d byte5 = .error (.refuse (.writeIntoProgramText byte5)) := by
  simp [State.markAccessed, hd, ht]

/-- A data-segment load that accepts its descriptor stops where marking it does. -/
theorem State.loadDataSeg_of_markAccessed_error {e : Stop} (hl : s.lookup sel = .ok (some (d, byte5)))
    (ha : s.AcceptsData sel d) (hp : d.present = true) (he : s.markAccessed d byte5 = .error e) :
    s.loadDataSeg sel = .error e := by
  obtain ⟨hkind, hpriv⟩ := (acceptsData_iff s sel d).mp ha
  have hpriv : ¬ (d.isDataOrNonconforming = true ∧ privFail (selRPL sel) s.cpl d.dpl = true) := fun ⟨hn, hf⟩ =>
    Bool.false_ne_true ((hpriv hn).symm.trans hf)
  simp only [State.loadDataSeg, hl, hkind, if_neg hpriv, hp, he, Except.map, Bool.true_eq_false, if_false]

/-- A stack-segment load that accepts its descriptor stops where marking it does. -/
theorem State.loadSS_of_markAccessed_error {e : Stop} (hnull : selNull sel = false)
    (hl : s.lookup sel = .ok (some (d, byte5))) (ha : s.AcceptsStack sel d) (hp : d.present = true)
    (he : s.markAccessed d byte5 = .error e) : s.loadSS sel = .error e := by
  obtain ⟨hrpl, hwritable, hdpl⟩ := (acceptsStack_iff s sel d).mp ha
  simp only [State.loadSS, hnull, hl, hrpl, hwritable, hdpl, hp, he, Except.map, ne_eq, not_true_eq_false,
    Bool.true_eq_false, Bool.false_eq_true, if_false]

/-- In the protected modes a selector that is not NULL is loaded from its descriptor (41_pop_segment.md R148). -/
theorem State.segHidden_of_markAccessed_error {n : SegName} {e : Stop} (hr : s.mode ≠ .real) (hv : s.mode ≠ .v86)
    (hnull : selNull sel = false) (hl : s.lookup sel = .ok (some (d, byte5)))
    (hdata : n ≠ .ss → s.AcceptsData sel d) (hstack : n = .ss → s.AcceptsStack sel d) (hp : d.present = true)
    (he : s.markAccessed d byte5 = .error e) : s.segHidden n sel = .error e := by
  unfold State.segHidden
  rw [if_neg hr, if_neg hv]
  split
  next hn => exact State.loadSS_of_markAccessed_error hnull hl (hstack hn) hp he
  next hn =>
    rw [hnull]
    exact State.loadDataSeg_of_markAccessed_error hl (hdata hn) hp he

end

end Sys2Proof.Machine
end

section
/-! The statements about memory accesses, settled. -/

namespace Sys2Proof.Proofs

open Sys2Proof Sys2Proof.Machine

/-- Settles O36: the two causes of `Check` a stack read can meet, both the `LimitFault` of SS. -/
theorem stackOutsideSegment : Obligations.StackOutsideSegment := by
  intro i s hr
  have stop (h : s.checkFault .ss s.stackPointer (i.width s.ctx).bytes .read = some (limitFault .ss)) :
      exec i s = .fault (.stackFault (s.errorCode 0) s) := by
    rw [exec_of_stack_stops hr (.check _ h), finish_limitFault, if_pos rfl]
  refine ⟨fun hm hl => ?_, fun hm ⟨k, hk, hc⟩ => ?_⟩
  · exact stop (State.checkFault_of_outside hm (fun _ hn => absurd rfl hn) (fun _ ha => nomatch ha) hl)
  · rw [← State.linAt_stack_of_long64 hm] at hc
    rw [stop (State.checkFault_of_noncanonical hm hk hc), State.errorCode_of_not_real (by simp [hm])]

/-- Settles O37: the segment checks passed, the top of the offset space is next. -/
theorem stackStraddleRefused : Obligations.StackStraddleRefused := fun _ _ hr hl hc htop =>
  exec_of_stack_stops hr (.straddle (State.stack_passesCheck hl hc) htop)

/-- Settles O38: CPL 3 rules out `Real`, so #AC carries its code. -/
theorem stackUnaligned : Obligations.StackUnaligned := by
  intro i s hr hl hc hroom ham hac hcpl hlin hoff
  rw [exec_of_stack_stops hr (.unaligned (State.stack_passesCheck hl hc) hroom
    (State.alignCheckEnabled_eq_true ham hac hcpl) (unaligned_of_both hlin hoff))]
  exact finish_ac (State.not_real_of_cpl hcpl) 0

/-- Settles O39: where `Translate` refuses a byte the mode is not `Real`, so #PF carries its code. -/
theorem stackPageFault : Obligations.StackPageFault := by
  intro i s k code hr hl hc hroom hal hk hbefore hfail
  rw [exec_of_stack_stops hr (.phys _ (State.stack_passesCheck hl hc) hroom hal
    (State.physRun_pageFault hk hbefore hfail))]
  exact finish_pf (State.not_real_of_translate_error hfail) code _

/-- Settles O40: the causes of `Check` outside `Long64`, one by one. -/
theorem destinationChecks : Obligations.DestinationChecks := by
  intro i m s ps hm hr hps hlong
  refine ⟨fun hp hn hu => ?_, fun hp hw => ?_, fun hw hu hl => ?_⟩
  · rw [exec_of_dest_stops hm hr hps (.check _ (State.checkFault_of_unusable hp hn hu))]
    exact finish_gp (State.not_real_of_protected hp) 0
  · rw [exec_of_dest_stops hm hr hps (.check _ (State.checkFault_of_not_writable hp hw))]
    exact finish_gp (State.not_real_of_protected hp) 0
  · rw [exec_of_dest_stops hm hr hps (.check _ (State.checkFault_of_outside hlong hu (fun hp _ => hw hp) hl))]
    exact finish_limitFault _

/-- Settles O41: the one cause of `Check` in `Long64`. -/
theorem destinationNonCanonical : Obligations.DestinationNonCanonical := by
  intro i m s ps hm hr hps hlong ⟨k, hk, hc⟩
  rw [← State.linAt_of_long64 hlong] at hc
  rw [exec_of_dest_stops hm hr hps (.check _ (State.checkFault_of_noncanonical hlong hk hc)), finish_limitFault,
    State.errorCode_of_not_real (by simp [hlong])]

/-- Settles O42: as for the stack read, at the address size. -/
theorem destinationStraddleRefused : Obligations.DestinationStraddleRefused := fun _ _ _ _ hm hr hps hpass htop =>
  exec_of_dest_stops hm hr hps (.straddle hpass htop)

/-- Settles O43: as for the stack read. -/
theorem destinationUnaligned : Obligations.DestinationUnaligned := by
  intro i m s ps hm hr hps hpass hroom ham hac hcpl hlin hoff
  rw [exec_of_dest_stops hm hr hps (.unaligned hpass hroom (State.alignCheckEnabled_eq_true ham hac hcpl)
    (unaligned_of_both hlin hoff))]
  exact finish_ac (State.not_real_of_cpl hcpl) 0

/-- Settles O44: the physical addresses come before the first store, so the state is the one before but for CR2. -/
theorem destinationPageFault : Obligations.DestinationPageFault := by
  rintro i m s ps _ k code hm hr hps hpass hroom rfl hal hk hbefore hfail
  rw [exec_of_dest_stops hm hr hps (.phys _ hpass hroom hal (State.physRun_pageFault hk hbefore hfail))]
  exact finish_pf (State.not_real_of_translate_error hfail) code _

/-- Settles O45: the destination's write and the marking of the accessed bit are the two writes a POP makes. -/
theorem programWriteRefused : Obligations.ProgramWriteRefused := by
  refine ⟨fun i m s ps qs hm hr hps hqs htext => ?_,
    fun i n s ps d byte5 hn hreal hv86 hr hps hsel hfind hdata hstack hp hd ht => ?_⟩
  · obtain ⟨q, hq, hin, hwrite⟩ := State.segWrite_of_inText hqs (Width.bytes_pos _) htext (s.mem.value ps)
    exact ⟨q, hq, hin, exec_of_segWrite_error hm hr hps hwrite⟩
  · have hnull := selNull_eq_false hsel
    have hlookup := (s.lookup_some_iff _ d byte5).mpr hfind
    exact exec_of_segHidden_error hn hr hps (State.segHidden_of_markAccessed_error hreal hv86 hnull hlookup hdata hstack
      hp (State.markAccessed_of_inText hd ht))

/-- Settles O12: either way paging is off. -/
theorem translateIdentity : Obligations.TranslateIdentity := fun _ acc pr lin h =>
  State.translate_of_pagingOff (State.pagingOn_eq_false h) acc pr lin

/-- Settles O17: the test of writability stands under `protected`. -/
theorem writableRule : Obligations.WritableRule := by
  intro s n off len
  refine ⟨?_, fun hm hw => State.checkFault_of_not_writable (State.protected_iff.mpr hm) hw, fun hm => ?_⟩
  · simp only [State.writable, Bool.and_eq_true, decide_eq_true_eq, and_assoc]
  · refine State.checkFault_write_eq_read (Bool.eq_false_iff.mpr fun hp => ?_)
    rcases State.protected_iff.mp hp with h | h <;> simp [h] at hm

/-- Settles O14: the upper bits as one number, all zeros or all ones. -/
theorem canonicalForm : Obligations.CanonicalForm := fun _ a hpos hle => canonical_iff a hpos hle

/-- Settles O15: one truncation, at 32 or at 64 bits, of the sum. -/
theorem linearRule : Obligations.LinearRule := by
  intro s n off k
  refine ⟨fun hm => ?_, fun hm hn => ?_, fun hm hfs hgs => ?_, fun hm => ?_⟩
  · simp only [State.linAt_of_not_long64 hm, State.linear_of_not_long64 hm, Width.trunc_toNat, Width.bits,
      BitVec.toNat_add, BitVec.toNat_ofNat]
    omega
  · rw [State.linear_of_long64 hm, if_pos hn, BitVec.toNat_add]
  · rw [State.linear_of_long64 hm, if_neg (not_or.mpr ⟨hfs, hgs⟩), zero_add]
  · rw [State.linAt_of_long64 hm, BitVec.toNat_add, BitVec.toNat_ofNat, Nat.add_mod_mod]

/-- Settles O16: the last byte bounds an access from above, and the first bounds it from below. -/
theorem limitRule : Obligations.LimitRule := by
  intro h off n
  refine ⟨fun hup => ⟨inLimit_iff hup off n, fun hn => ?_⟩,
    fun hk hd => ⟨inLimit_expandDown_iff ⟨hk, hd⟩ off n, fun hn => ?_⟩⟩
  · rw [inLimit_iff hup, last_le_iff hn]
  · rw [inLimit_expandDown_iff ⟨hk, hd⟩, last_le_iff hn, first_gt_iff hn]
    simp only [forall_and]

/-- Settles O18: the bytes at the addresses are those stored, and their value is the value stored. -/
theorem storeThenLoad : Obligations.StoreThenLoad := by
  intro m ps v hm hd hlen
  have hbytes := leBytes_length ps.length v
  have hfst : (ps.zip (leBytes ps.length v)).map Prod.fst = ps := List.map_fst_zip hbytes.ge
  have hsnd : (ps.zip (leBytes ps.length v)).map Prod.snd = leBytes ps.length v := List.map_snd_zip hbytes.le
  have hread := Memory.map_read_writeAll (ps.zip (leBytes ps.length v)) hm (by rwa [hfst])
  rw [hfst, hsnd] at hread
  rw [Memory.value_toNat _ _ hlen, hread, leNat_leBytes]

end Sys2Proof.Proofs
end

section
/-! PROOFS. Which bytes the decoder reads as which instruction (30_encoding.md R105): the rows of the opcode table by
encoding form, the opcode and what follows it in both directions, whole instructions, and the sizes a term has. -/

namespace Sys2Proof

/-! ### The rows by encoding form (30_encoding.md R92, R93) -/

/-- A fact about every instruction is a fact about each encoding form, at every operand size it has. -/
theorem Instr.forms {motive : Instr → Prop}
    (rm : ∀ w p d, motive (rowM w p d)) (reg : ∀ w p r, motive (rowO w p r))
    (ds : ∀ p, motive (.popDs p)) (es : ∀ p, motive (.popEs p)) (ss : ∀ p, motive (.popSs p))
    (fs : ∀ w p, motive (rowFs w p)) (gs : ∀ w p, motive (rowGs w p)) (i : Instr) : motive i := by
  cases i with
  | popRm16 p d => exact rm .w16 p d
  | popRm32 p d => exact rm .w32 p d
  | popRm64 p d => exact rm .w64 p d
  | popR16 p r => exact reg .w16 p r
  | popR32 p r => exact reg .w32 p r
  | popR64 p r => exact reg .w64 p r
  | popDs p => exact ds p
  | popEs p => exact es p
  | popSs p => exact ss p
  | popFs16 p => exact fs .w16 p
  | popFs32 p => exact fs .w32 p
  | popFs64 p => exact fs .w64 p
  | popGs16 p => exact gs .w16 p
  | popGs32 p => exact gs .w32 p
  | popGs64 p => exact gs .w64 p

section
variable (c : Ctx) (w : Width) (p : Prefixes) (d : RmDest) (r : Reg)

@[simp] theorem rowM_prefixes : (rowM w p d).prefixes = p := by cases w <;> rfl
@[simp] theorem rowO_prefixes : (rowO w p r).prefixes = p := by cases w <;> rfl
@[simp] theorem rowFs_prefixes : (rowFs w p).prefixes = p := by cases w <;> rfl
@[simp] theorem rowGs_prefixes : (rowGs w p).prefixes = p := by cases w <;> rfl

@[simp] theorem rowM_bodyBytes : (rowM w p d).bodyBytes = 0x8F :: d.bytes := by cases w <;> rfl
@[simp] theorem rowO_bodyBytes : (rowO w p r).bodyBytes = [opcodeO r] := by cases w <;> rfl
@[simp] theorem rowFs_bodyBytes : (rowFs w p).bodyBytes = [0x0F, 0xA1] := by cases w <;> rfl
@[simp] theorem rowGs_bodyBytes : (rowGs w p).bodyBytes = [0x0F, 0xA9] := by cases w <;> rfl

@[simp] theorem rowM_width : (rowM w p d).width c = w := by cases w <;> rfl
@[simp] theorem rowO_width : (rowO w p r).width c = w := by cases w <;> rfl
@[simp] theorem rowFs_width : (rowFs w p).width c = w := by cases w <;> rfl
@[simp] theorem rowGs_width : (rowGs w p).width c = w := by cases w <;> rfl

@[simp] theorem rowM_rowEncodable :
    (rowM w p d).rowEncodable c = true ↔ operandSize c p = w ∧ d.encodable c p = true := by
  cases w <;> simp [rowM, Instr.rowEncodable]

@[simp] theorem rowO_rowEncodable : (rowO w p r).rowEncodable c = true ↔ operandSize c p = w ∧ r.high = p.rexB := by
  cases w <;> simp [rowO, Instr.rowEncodable]

@[simp] theorem rowFs_rowEncodable : (rowFs w p).rowEncodable c = true ↔ operandSize c p = w := by
  cases w <;> simp [rowFs, Instr.rowEncodable]

@[simp] theorem rowGs_rowEncodable : (rowGs w p).rowEncodable c = true ↔ operandSize c p = w := by
  cases w <;> simp [rowGs, Instr.rowEncodable]

end

/-! ### The opcode and what follows it (30_encoding.md R105) -/

section
variable {c : Ctx}

/-- `8F` is the opcode of format M (30_encoding.md R92). -/
theorem decodeOpcode_8F (p : Prefixes) (bs : List Byte) : decodeOpcode c p (0x8F :: bs) =
    (decodeModRm c p bs).map fun x => (rowM (operandSize c p) p x.1, x.2) := rfl

/-- The body written is the body read. -/
theorem decodeOpcode_bodyBytes {i : Instr} (rest : List Byte) (h : i.rowEncodable c = true) :
    decodeOpcode c i.prefixes (i.bodyBytes ++ rest) = .ok (i, rest) := by
  cases i using Instr.forms with
  | rm w p d =>
    obtain ⟨rfl, hd⟩ := (rowM_rowEncodable c w p d).mp h
    simp only [rowM_prefixes, rowM_bodyBytes, List.cons_append, decodeOpcode_8F, decodeModRm_bytes rest hd, Except.map]
  | reg w p r =>
    obtain ⟨rfl, hr⟩ := (rowO_rowEncodable c w p r).mp h
    simp only [rowO_prefixes, rowO_bodyBytes, List.cons_append, List.nil_append, decodeOpcode, opcodeO_opcode, if_true,
      opcodeO_field, ← hr, extend_high_field]
  | fs w p =>
    obtain rfl := (rowFs_rowEncodable c w p).mp h
    rw [rowFs_prefixes, rowFs_bodyBytes]
    rfl
  | gs w p =>
    obtain rfl := (rowGs_rowEncodable c w p).mp h
    rw [rowGs_prefixes, rowGs_bodyBytes]
    rfl
  | ds p => rfl
  | es p => rfl
  | ss p => rfl

/-- The body read is spelled by the bytes consumed, and its row is the one of its operand size. -/
theorem decodeOpcode_ok {p : Prefixes} {bs rest : List Byte} {i : Instr} (h : decodeOpcode c p bs = .ok (i, rest)) :
    i.prefixes = p ∧ i.rowEncodable c = true ∧ bs = i.bodyBytes ++ rest := by
  unfold decodeOpcode at h
  split at h
  next => cases h
  next op bs =>
  split at h
  next hop =>
    cases h
    simp [opcodeO_of_byte _ hop]
  split at h
  next hop =>
    obtain ⟨⟨d, tl⟩, hd, hi⟩ := map_ok h
    cases hi
    obtain ⟨henc, rfl⟩ := decodeModRm_ok hd
    simp [hop, henc]
  split at h
  next hop => cases h; exact ⟨rfl, rfl, by rw [hop]; rfl⟩
  split at h
  next hop => cases h; exact ⟨rfl, rfl, by rw [hop]; rfl⟩
  split at h
  next hop => cases h; exact ⟨rfl, rfl, by rw [hop]; rfl⟩
  split at h
  next hop =>
    split at h
    next => cases h
    next op2 bs =>
    split at h
    next hop2 => cases h; simp [hop, hop2]
    split at h
    next hop2 => cases h; simp [hop, hop2]
    next => cases h
  next => cases h

/-- No body begins with the byte of one of the prefixes, so the prefixes written are the prefixes read (30_encoding.md R80). -/
theorem takePrefixes_encode {m : Mode} (i : Instr) (rest : List Byte)
    (hrex : i.prefixes.rex.isNone = true ∨ m = .long64) :
    takePrefixes m (encode i ++ rest) = (i.prefixes, i.bodyBytes ++ rest) := by
  have head : ∃ op tl, i.bodyBytes = op :: tl ∧ legacyOfByte op = none ∧ rexOfByte op = none := by
    cases i using Instr.forms with
    | rm w p d => exact ⟨0x8F, _, rowM_bodyBytes w p d, rfl, rfl⟩
    | reg w p r => exact ⟨opcodeO r, [], rowO_bodyBytes w p r, opcodeO_not_prefix r⟩
    | ds p => exact ⟨0x1F, [], rfl, rfl, rfl⟩
    | es p => exact ⟨0x07, [], rfl, rfl, rfl⟩
    | ss p => exact ⟨0x17, [], rfl, rfl, rfl⟩
    | fs w p => exact ⟨0x0F, _, rowFs_bodyBytes w p, rfl, rfl⟩
    | gs w p => exact ⟨0x0F, _, rowGs_bodyBytes w p, rfl, rfl⟩
  obtain ⟨op, tl, hbody, hlegacy, hrexByte⟩ := head
  rw [encode, hbody, List.append_assoc]
  exact takePrefixes_append (tl ++ rest) hrex hlegacy hrexByte

/-! ### Whole instructions -/

theorem wellFormed_iff {i : Instr} : WellFormed c i ↔
    (prefixError i.prefixes = none ∧ (i.prefixes.rex.isNone = true ∨ c.mode = .long64)) ∧
      i.rowEncodable c = true ∧ i.len ≤ 15 := by
  simp only [WellFormed, Instr.encodable, Bool.and_eq_true, decide_eq_true_eq, prefixes_encodable_iff, and_assoc]

/-- What decoding an instruction is: prefixes that R88 does not refuse, a body, and at most 15 bytes. -/
theorem decode_ok_iff {bs rest : List Byte} {i : Instr} : decode c bs = .ok (i, rest) ↔
    prefixError (takePrefixes c.mode bs).1 = none ∧
      decodeOpcode c (takePrefixes c.mode bs).1 (takePrefixes c.mode bs).2 = .ok (i, rest) ∧ i.len ≤ 15 := by
  unfold decode
  split
  next e he => simp [he]
  next hp =>
    split
    next e he => simp [he]
    next j tl hj =>
      rw [hj, Except.ok.injEq, Prod.mk.injEq]
      split
      next hlen =>
        simp only [hp, Except.ok.injEq, Prod.mk.injEq, true_and]
        exact ⟨fun ⟨hi, hr⟩ => ⟨⟨hi, hr⟩, hi ▸ hlen⟩, fun h => h.1⟩
      next hlen =>
        simp only [reduceCtorEq, false_iff]
        rintro ⟨-, ⟨rfl, -⟩, hi⟩
        exact hlen hi

theorem decode_encode {i : Instr} (rest : List Byte) (h : WellFormed c i) :
    decode c (encode i ++ rest) = .ok (i, rest) := by
  obtain ⟨⟨hprefix, hrex⟩, hrow, hlen⟩ := wellFormed_iff.mp h
  rw [decode_ok_iff, takePrefixes_encode i rest hrex]
  exact ⟨hprefix, decodeOpcode_bodyBytes rest hrow, hlen⟩

theorem decode_of_encode_eq {i : Instr} {bs : List Byte} (hwf : WellFormed c i) (hbytes : encode i = bs) :
    decode c bs = .ok (i, []) := by
  rw [← hbytes, ← List.append_nil (encode i)]
  exact decode_encode [] hwf

theorem wellFormed_of_decode {bs rest : List Byte} {i : Instr} (h : decode c bs = .ok (i, rest)) :
    WellFormed c i ∧ bs = encode i ++ rest := by
  obtain ⟨hprefix, hop, hlen⟩ := decode_ok_iff.mp h
  obtain ⟨hp, hrow, hbody⟩ := decodeOpcode_ok hop
  have hbytes := takePrefixes_bytes c.mode bs
  rw [hbody, ← hp, ← List.append_assoc] at hbytes
  exact ⟨wellFormed_iff.mpr ⟨⟨hp ▸ hprefix, hp ▸ takeRex_long⟩, hrow, hlen⟩, hbytes⟩

/-- The row of a well-formed instruction is the one `OperandSize` selects (30_encoding.md R93). -/
theorem width_of_rowEncodable {i : Instr} (h : i.rowEncodable c = true) : i.width c = operandSize c i.prefixes := by
  cases i using Instr.forms with
  | rm w p d => simpa using ((rowM_rowEncodable c w p d).mp h).1.symm
  | reg w p r => simpa using ((rowO_rowEncodable c w p r).mp h).1.symm
  | fs w p => simpa using ((rowFs_rowEncodable c w p).mp h).symm
  | gs w p => simpa using ((rowGs_rowEncodable c w p).mp h).symm
  | ds p => rfl
  | es p => rfl
  | ss p => rfl

/-- `8F` is none of the prefixes, so it is the opcode of what it begins. -/
theorem takePrefixes_8F (m : Mode) (bs : List Byte) :
    takePrefixes m (0x8F :: bs) = ({ legacy := [], rex := none }, 0x8F :: bs) :=
  takePrefixes_append (p := { legacy := [], rex := none }) bs (.inl rfl) rfl rfl

theorem decodeModRm_reg_ne_zero {p : Prefixes} {m : Byte} (bs : List Byte) (h : m.extractLsb' 3 3 ≠ 0) :
    decodeModRm c p (m :: bs) = .error (.notPop8F (m.extractLsb' 3 3)) := if_pos h

end

/-! ### Sizes (30_encoding.md R96, R97) -/

section
variable {c : Ctx}

theorem operandSize_of_long64 (hm : c.mode = .long64) (p : Prefixes) :
    operandSize c p = if p.has .opSize && !p.rexW then .w16 else .w64 := by
  simp only [operandSize, hm]

theorem operandSize_of_not_long64 (hm : c.mode ≠ .long64) (p : Prefixes) :
    operandSize c p = if c.codeD != p.has .opSize then .w32 else .w16 := by
  unfold operandSize
  split
  · contradiction
  · rfl

theorem addrSize_of_long64 (hm : c.mode = .long64) (p : Prefixes) :
    addrSize c p = if p.has .addrSize then .w32 else .w64 := by
  simp only [addrSize, hm]

theorem addrSize_of_not_long64 (hm : c.mode ≠ .long64) (p : Prefixes) :
    addrSize c p = if c.codeD != p.has .addrSize then .w32 else .w16 := by
  unfold addrSize
  split
  · contradiction
  · rfl

/-- Outside `Long64` an address that is not of 16 bits is of 32. -/
theorem addrSize_eq_w32 {p : Prefixes} (hm : c.mode ≠ .long64) (h : addrSize c p ≠ .w16) : addrSize c p = .w32 := by
  rw [addrSize_of_not_long64 hm] at h ⊢
  split at h
  next hd => exact if_pos hd
  next => contradiction

theorem operandSize_ne_w32 (hm : c.mode = .long64) (p : Prefixes) : operandSize c p ≠ .w32 := by
  rw [operandSize_of_long64 hm]
  split <;> exact Width.noConfusion

theorem operandSize_ne_w64 (hm : c.mode ≠ .long64) (p : Prefixes) : operandSize c p ≠ .w64 := by
  rw [operandSize_of_not_long64 hm]
  split <;> exact Width.noConfusion

end

end Sys2Proof
end

section
/-! PROOFS. The addresses of memory destinations as integers (30_encoding.md R99 to R102). `Width.Represents` says which
integers a word stands for at a width; sums, scaling, displacements and truncation keep it. -/

namespace Sys2Proof

/-! ### Integers and words -/

/-- At a width, the low bits of the word are those of the integer. -/
def Width.Represents (w : Width) (v : Word64) (z : Int) : Prop := (v.toNat : Int) ≡ z [ZMOD 2 ^ w.bits]

theorem Width.pow_bits_dvd (w : Width) : (2 ^ w.bits : Int) ∣ 2 ^ 64 := by
  cases w <;> exact pow_dvd_pow 2 (by decide)

theorem toNat_ofInt_eq_emod (n : Nat) (z : Int) : ((BitVec.ofInt n z).toNat : Int) = z % 2 ^ n := by
  rw [BitVec.toNat_ofInt, Int.toNat_of_nonneg (Int.emod_nonneg _ (mod_cast (Nat.two_pow_pos n).ne'))]
  push_cast
  rfl

section
variable {w : Width} {u v : Word64} {y z : Int}

/-- What is computed modulo 2^64 represents the untruncated number. -/
theorem Width.Represents.of_mod (h : (v.toNat : Int) = z % 2 ^ 64) : w.Represents v z := by
  unfold Width.Represents
  rw [h]
  exact (Int.mod_modEq z _).of_dvd w.pow_bits_dvd

theorem Width.represents_toNat (v : Word64) : w.Represents v v.toNat := Int.ModEq.refl _

theorem Width.represents_signExtend {n : Nat} (d : BitVec n) : w.Represents (d.signExtend 64) d.toInt :=
  .of_mod (toNat_ofInt_eq_emod 64 d.toInt)

theorem Width.Represents.add (hu : w.Represents u y) (hv : w.Represents v z) : w.Represents (u + v) (y + z) :=
  (Width.Represents.of_mod (by rw [BitVec.toNat_add]; push_cast; rfl)).trans (Int.ModEq.add hu hv)

theorem Width.Represents.shiftLeft (hv : w.Represents v z) (k : Nat) : w.Represents (v <<< k) (z * 2 ^ k) :=
  (Width.Represents.of_mod (by rw [BitVec.toNat_shiftLeft, Nat.shiftLeft_eq]; push_cast; rfl)).trans
    (Int.ModEq.mul_right _ hv)

/-- Truncating a word to a width gives the integer modulo that width. -/
theorem Width.Represents.trunc_eq (hv : w.Represents v z) : ((w.trunc v).toNat : Int) = z % 2 ^ w.bits := by
  rw [Machine.Width.trunc_toNat]
  push_cast
  exact hv

theorem Width.Represents.trunc (hv : w.Represents v z) : w.Represents (w.trunc v) z := by
  unfold Width.Represents
  rw [hv.trunc_eq]
  exact Int.mod_modEq z _

end

namespace Machine

/-! ### Displacements (30_encoding.md R99, R100) -/

theorem dispValue16_eq (d : Disp16) : dispValue16 d = BitVec.ofInt 16 d.int := by
  cases d with
  | absent => rfl
  | byte d => rfl
  | word d => simp [dispValue16, Disp16.int]

theorem represents_dispValue32 {w : Width} (d : Disp32) : w.Represents (dispValue32 d) d.int := by
  cases d with
  | absent => exact Width.represents_toNat 0
  | byte d => exact Width.represents_signExtend d
  | dword d => exact Width.represents_signExtend d

/-! ### Registers after the increment (40_pop_general.md R129) -/

theorem replaceLow_toNat (w : Width) (old v : Word64) :
    (replaceLow w old v).toNat = old.toNat / 2 ^ w.bits * 2 ^ w.bits + v.toNat % 2 ^ w.bits := by
  have hold := old.isLt
  cases w with
  | w16 =>
    simp only [replaceLow, Width.bits, append_16_toNat, BitVec.toNat_setWidth, BitVec.extractLsb'_toNat,
      Nat.shiftRight_eq_div_pow]
    omega
  | w32 =>
    simp only [replaceLow, Width.bits, append_32_toNat, BitVec.toNat_setWidth, BitVec.extractLsb'_toNat,
      Nat.shiftRight_eq_div_pow]
    omega
  | w64 =>
    simp only [replaceLow, Width.bits]
    omega

section
variable (s : State) (w as : Width)

theorem State.stackPointer_toNat : s.stackPointer.toNat = (s.x rsp).toNat % 2 ^ s.stackAddrSize.bits :=
  Width.trunc_toNat _ _

@[simp] theorem State.spAdvanced_mode : (s.spAdvanced w).mode = s.mode := rfl

theorem State.spAdvanced_x_ne {r : Reg} (h : r ≠ rsp) : (s.spAdvanced w).x r = s.x r := State.x_setX_ne s _ h

theorem State.spAdvanced_x_toNat (r : Reg) : ((s.spAdvanced w).x r).toNat = s.addressReg w r := by
  unfold State.addressReg
  split
  next h =>
    rw [h, State.spAdvanced, State.x_setX_self, replaceLow_toNat, State.spAfter_toNat, State.stackPointer_toNat,
      Nat.mod_mod, Nat.mod_add_mod]
  next h => rw [State.spAdvanced_x_ne s w h]

theorem State.represents_readReg (r : Reg) : as.Represents ((s.spAdvanced w).readReg as r) (s.addressReg w r) := by
  rw [← State.spAdvanced_x_toNat]
  exact (Width.represents_toNat _).trunc

theorem State.represents_indexValue (scale : BitVec 2) (index : Option Reg) :
    as.Represents ((s.spAdvanced w).indexValue as scale index) (s.scaledIndex w scale index) := by
  cases index with
  | none => exact Width.represents_toNat 0
  | some r =>
    simp only [State.scaledIndex]
    push_cast
    exact (s.represents_readReg w as r).shiftLeft scale.toNat

/-! ### Where the destination's address is its effective address (40_pop_general.md R130) -/

theorem State.wrapCase_iff (m : Mem) : s.wrapCase w m = true ↔ s.stackWraps w ∧ basedOnSP m = true := by
  simp only [State.wrapCase, State.stackWraps, Bool.and_eq_true, decide_eq_true_eq, State.stackPointer_toNat]
  refine and_congr_left fun _ => and_congr_right fun h => ?_
  rw [h]
  rfl

variable {s w} {p : Prefixes} {m : Mem} {len : Nat}

theorem State.destAddr_of_not_wrap (h : ¬ (s.stackWraps w ∧ basedOnSP m = true)) :
    s.destAddr p m w len = (s.spAdvanced w).effAddr m (addrSize s.ctx p) (s.nextRip len) := by
  rw [State.destAddr, if_neg (mt (s.wrapCase_iff w m).mp h)]

/-- Only a SIB byte can give register 4 as base. -/
theorem State.destAddr_of_not_based (h : basedOnSP m = false) :
    s.destAddr p m w len = (s.spAdvanced w).effAddr m (addrSize s.ctx p) (s.nextRip len) :=
  State.destAddr_of_not_wrap fun hw => Bool.false_ne_true (h.symm.trans hw.2)

end

/-! ### 16-bit addresses (30_encoding.md R99) -/

/-- The sum of the base and index registers of a 16-bit address, untruncated. -/
def State.baseSum16 (s : State) : Base16 → Int
  | .bxSi => (s.x 3).toNat + (s.x 6).toNat
  | .bxDi => (s.x 3).toNat + (s.x 7).toNat
  | .bpSi => (s.x 5).toNat + (s.x 6).toNat
  | .bpDi => (s.x 5).toNat + (s.x 7).toNat
  | .si => (s.x 6).toNat
  | .di => (s.x 7).toNat
  | .bp => (s.x 5).toNat
  | .bx => (s.x 3).toNat

section
variable (s : State) (p : Prefixes) (w : Width) (len : Nat)

/-- Register 4 is in no 16-bit address, so the increment does not show. -/
theorem State.baseValue16_eq (b : Base16) : (s.spAdvanced w).baseValue16 b = BitVec.ofInt 16 (s.baseSum16 b) := by
  have low (v : Word64) : v.setWidth 16 = BitVec.ofInt 16 v.toNat := by
    rw [BitVec.ofInt_natCast, BitVec.ofNat_toNat]
  have h3 := s.spAdvanced_x_ne w (r := 3) (by decide)
  have h5 := s.spAdvanced_x_ne w (r := 5) (by decide)
  have h6 := s.spAdvanced_x_ne w (r := 6) (by decide)
  have h7 := s.spAdvanced_x_ne w (r := 7) (by decide)
  cases b <;> simp only [State.baseValue16, State.baseSum16, h3, h5, h6, h7, low, BitVec.ofInt_add]

theorem State.destAddr_base16 (b : Base16) (d : Disp16) :
    ((s.destAddr p (.base16 b d) w len).toNat : Int) = (s.baseSum16 b + d.int) % 2 ^ 16 := by
  rw [State.destAddr_of_not_based rfl, State.effAddr, State.baseValue16_eq, dispValue16_eq, ← BitVec.ofInt_add,
    BitVec.toNat_setWidth_of_le (by decide), toNat_ofInt_eq_emod]

theorem State.destAddr_disp16 (a : Word16) : (s.destAddr p (.disp16 a) w len).toNat = a.toNat := by
  rw [State.destAddr_of_not_based rfl, State.effAddr, BitVec.toNat_setWidth_of_le (by decide)]

/-! ### 32-bit and 64-bit addresses (30_encoding.md R100 to R102) -/

theorem State.destAddr_base (r : Reg) (d : Disp32) :
    ((s.destAddr p (.base r d) w len).toNat : Int) = (s.addressReg w r + d.int) % 2 ^ (addrSize s.ctx p).bits := by
  rw [State.destAddr_of_not_based rfl]
  exact ((s.represents_readReg w _ r).add (represents_dispValue32 d)).trunc_eq

theorem State.destAddr_sib {r : Reg} (h : ¬ (r = rsp ∧ s.stackWraps w))
    (sc : BitVec 2) (ix : Option Reg) (d : Disp32) :
    ((s.destAddr p (.sib sc ix r d) w len).toNat : Int) =
      (s.addressReg w r + s.scaledIndex w sc ix + d.int) % 2 ^ (addrSize s.ctx p).bits := by
  have hwrap : ¬ (s.stackWraps w ∧ basedOnSP (.sib sc ix r d) = true) :=
    fun ⟨hw, hr⟩ => h ⟨of_decide_eq_true hr, hw⟩
  rw [State.destAddr_of_not_wrap hwrap]
  exact (((s.represents_readReg w _ r).add (s.represents_indexValue w _ sc ix)).add (represents_dispValue32 d)).trunc_eq

theorem State.destAddr_sibNoBase (sc : BitVec 2) (ix : Option Reg) (a : Word32) :
    ((s.destAddr p (.sibNoBase sc ix a) w len).toNat : Int) =
      (s.scaledIndex w sc ix + a.toInt) % 2 ^ (addrSize s.ctx p).bits := by
  rw [State.destAddr_of_not_based rfl]
  exact ((s.represents_indexValue w _ sc ix).add (Width.represents_signExtend a)).trunc_eq

variable {s}

theorem State.represents_nextRip {as : Width} (hm : s.mode = .long64) (len : Nat) :
    as.Represents (s.nextRip len) (s.rip.toNat + len) :=
  .of_mod (by rw [State.nextRip_toNat, if_pos hm]; push_cast; rfl)

/-- A displacement alone is relative to the next instruction in `Long64` (30_encoding.md R102). -/
theorem State.destAddr_disp32_of_long64 (hm : s.mode = .long64) (a : Word32) : s.destAddr p (.disp32 a) w len =
    (addrSize s.ctx p).trunc (s.nextRip len + a.signExtend 64) := by
  rw [State.destAddr_of_not_based rfl, State.effAddr, State.spAdvanced_mode, if_pos hm]

/-- A displacement alone is the address outside `Long64` (30_encoding.md R100). -/
theorem State.destAddr_disp32_of_not_long64 (hm : s.mode ≠ .long64) (has : addrSize s.ctx p = .w32) (a : Word32) :
    (s.destAddr p (.disp32 a) w len).toNat = a.toNat := by
  rw [State.destAddr_of_not_based rfl, State.effAddr, State.spAdvanced_mode, if_neg hm, zero_add, has]
  have htrunc := (Width.represents_signExtend (w := .w32) a).trunc_eq
  have ha := a.isLt
  rw [BitVec.toInt_eq_toNat_cond, Width.bits] at htrunc
  split at htrunc <;> omega

end

end Machine

end Sys2Proof
end

section
/-! PROOFS. The size of the stack pointer (30_encoding.md R98), where a step fetches (70_reset_and_hazards.md R208), the
segment of a memory destination (30_encoding.md R103) and the encodings that raise #UD (R86, R106). -/

namespace Sys2Proof.Machine

section
variable {s : State}

theorem State.stackAddrSize_of_long64 (hm : s.mode = .long64) : s.stackAddrSize = .w64 := by
  simp only [State.stackAddrSize, hm]

theorem State.stackAddrSize_of_not_long64 (hm : s.mode ≠ .long64) :
    s.stackAddrSize = if s.segs.ss.hidden.attr.db then .w32 else .w16 := by
  unfold State.stackAddrSize
  split
  · contradiction
  · rfl

/-! ### The instruction at `rip` (70_reset_and_hazards.md R208) -/

/-- The distance from the program's base, at the width of the instruction pointer. -/
theorem State.fetchIndex_eq (s : State) : s.fetchIndex =
    (s.rip.toNat + 2 ^ 64 - s.prog.base.toNat) % 2 ^ (if s.mode = .long64 then 64 else 32) := by
  have hbase := s.prog.base.isLt
  unfold State.fetchIndex
  split
  next hm => rw [if_pos hm, BitVec.toNat_sub]; omega
  next hm => rw [if_neg hm, Width.trunc_toNat, BitVec.toNat_sub, Width.bits]; omega

theorem step_of_decode {i : Instr} {rest : List Byte} (hk : s.fetchIndex < s.prog.bytes.length)
    (hd : decode s.ctx (s.prog.bytes.drop s.fetchIndex) = .ok (i, rest)) : step s = exec i s := by
  simp only [step, State.nextInstr, State.fetch, if_pos hk, hd]

/-! ### #UD (30_encoding.md R86, R106) -/

theorem exec_of_lock {i : Instr} (hw : WellFormed s.ctx i) (hl : i.prefixes.has .lock = true) :
    exec i s = .fault (.invalidOpcode s) := by
  rw [exec_eq, perform, if_pos hw, if_pos hl]
  rfl

theorem segDest_of_invalidIn64 {i : Instr} (h : i.invalidIn64 = true) : ∃ n, i.segDest = some n := by
  cases i with
  | popDs p => exact ⟨.ds, rfl⟩
  | popEs p => exact ⟨.es, rfl⟩
  | popSs p => exact ⟨.ss, rfl⟩
  | _ => cases h

theorem exec_of_invalidIn64 {i : Instr} (hw : WellFormed s.ctx i) (hl : i.prefixes.has .lock = false)
    (hi : i.invalidIn64 = true) (hm : s.mode = .long64) : exec i s = .fault (.invalidOpcode s) := by
  obtain ⟨n, hn⟩ := segDest_of_invalidIn64 hi
  rw [exec_of_wf hw hl, body_of_segDest hn, if_pos ⟨hi, hm⟩]
  rfl

/-! ### Segments (30_encoding.md R87, R103) -/

section
variable {p : Prefixes} {n : SegName} (m : Mem)

theorem segOverride_of_segs_nil (md : Mode) (h : p.segs = []) : segOverride md p = none := by
  simp only [segOverride, h, List.head?_nil]

/-- In `Long64` only FS and GS override. -/
theorem segOverride_of_segs_singleton (md : Mode) (h : p.segs = [n]) :
    segOverride md p = if md ≠ .long64 ∨ n = .fs ∨ n = .gs then some n else none := by
  simp only [segOverride, h, List.head?_cons]
  by_cases hm : md = .long64 <;> simp [hm]

theorem State.memSeg_of_override (h : segOverride s.mode p = some n) : s.memSeg p m = n := by
  simp only [State.memSeg, h]

theorem State.memSeg_of_no_override (h : segOverride s.mode p = none) : s.memSeg p m = defaultSeg m := by
  simp only [State.memSeg, h]

end

theorem baseSeg_eq_ss_iff (r : Reg) : baseSeg r = .ss ↔ r = 4 ∨ r = 5 := by
  unfold baseSeg
  split
  next h => exact iff_of_true rfl h
  next h => exact iff_of_false SegName.noConfusion h

theorem baseSeg_ss_or_ds (r : Reg) : baseSeg r = .ss ∨ baseSeg r = .ds := ite_eq_or_eq _ _ _

theorem defaultSeg_ss_or_ds (m : Mem) : defaultSeg m = .ss ∨ defaultSeg m = .ds := by
  cases m with
  | base16 b d => cases b <;> simp [defaultSeg]
  | disp16 a => exact .inr rfl
  | base r d => exact baseSeg_ss_or_ds r
  | disp32 a => exact .inr rfl
  | sib sc ix r d => exact baseSeg_ss_or_ds r
  | sibNoBase sc ix a => exact .inr rfl

/-- The default is SS exactly when BP, ESP, EBP, RSP or RBP is the base. -/
theorem defaultSeg_eq_ss_iff (m : Mem) : defaultSeg m = .ss ↔
    (∃ d, m = .base16 .bpSi d ∨ m = .base16 .bpDi d ∨ m = .base16 .bp d) ∨
    (∃ r d, (r = 4 ∨ r = 5) ∧ (m = .base r d ∨ ∃ sc ix, m = .sib sc ix r d)) := by
  cases m with
  | base16 b d => cases b <;> simp [defaultSeg]
  | disp16 a => simp [defaultSeg]
  | base r d => simp [defaultSeg, baseSeg_eq_ss_iff]
  | disp32 a => simp [defaultSeg]
  | sib sc ix r d => simp [defaultSeg, baseSeg_eq_ss_iff]
  | sibNoBase sc ix a => simp [defaultSeg]

end

end Sys2Proof.Machine
end

section
/-! The statements about the encoding, settled. -/

namespace Sys2Proof.Proofs

open Sys2Proof Sys2Proof.Machine

/-- Settles O1: prefixes, opcode and operand are each read back as written. -/
theorem decodeOfEncode : Obligations.DecodeOfEncode := fun _ _ rest h => decode_encode rest h

/-- Settles O2: prefixes, opcode and operand are each spelled by the bytes they were read from. -/
theorem encodeOfDecode : Obligations.EncodeOfDecode := fun _ _ _ _ h => wellFormed_of_decode h

/-- Settles O4: what decodes is well formed, and `OperandSize` is never 32 in `Long64` and never 64 elsewhere. -/
theorem decodedRowMatchesSize : Obligations.DecodedRowMatchesSize := by
  intro c bs i rest h
  obtain ⟨-, hrow, -⟩ := wellFormed_iff.mp (wellFormed_of_decode h).1
  rw [width_of_rowEncodable hrow]
  exact ⟨rfl, fun hm => operandSize_ne_w32 hm _, fun hm => operandSize_ne_w64 hm _⟩

/-- Settles O3: each vector is the encoding of its instruction, which is well formed. -/
theorem sampleWordsDecode : Obligations.SampleWordsDecode :=
  ⟨decode_of_encode_eq (by decide) rfl, decode_of_encode_eq (by decide) rfl, decode_of_encode_eq (by decide) rfl,
    decode_of_encode_eq (by decide) rfl, decode_of_encode_eq (by decide) rfl, decode_of_encode_eq (by decide) rfl,
    decode_of_encode_eq (by decide) rfl⟩

/-- Settles O5: `8F` at the front is the opcode, and the ModRM byte is refused by its reg field. -/
theorem modRmRegMustBeZero : Obligations.ModRmRegMustBeZero := by
  intro c m rest h
  have hprefix : prefixError { legacy := [], rex := none } = none := rfl
  simp only [decode, takePrefixes_8F, hprefix, decodeOpcode_8F, decodeModRm_reg_ne_zero rest h, Except.map]

/-- Settles O6: both halves by the two flags each reads. -/
theorem operandSizeRule : Obligations.OperandSizeRule := by
  intro c p
  refine ⟨fun hm => ?_, fun hm => ?_⟩
  · rw [operandSize_of_not_long64 hm]
    cases c.codeD <;> cases p.has .opSize <;> rfl
  · rw [operandSize_of_long64 hm]
    cases p.has .opSize <;> cases p.rexW <;> rfl

/-- Settles O7: as for the operand size. -/
theorem addrSizeRule : Obligations.AddrSizeRule := by
  intro c p
  refine ⟨fun hm => ?_, fun hm => ?_⟩
  · rw [addrSize_of_not_long64 hm]
    cases c.codeD <;> cases p.has .addrSize <;> rfl
  · rw [addrSize_of_long64 hm]
    cases p.has .addrSize <;> rfl

/-- Settles O8: the two halves are the model's. -/
theorem stackAddrSizeRule : Obligations.StackAddrSizeRule := by
  intro s
  split
  next hm => rw [State.stackAddrSize_of_long64 hm]; rfl
  next hm =>
    rw [State.stackAddrSize_of_not_long64 hm]
    split <;> rfl

/-- Settles O19: the offset given is where the step fetches. -/
theorem stepRunsDecoded : Obligations.StepRunsDecoded := by
  rintro s k i rest hk rfl hd
  rw [← State.fetchIndex_eq] at hk hd
  exact step_of_decode hk hd

/-- Settles O31: one sum of registers for each of the eight forms with a base, and the displacement alone. -/
theorem addressTable16 : Obligations.AddressTable16 := by
  intro s p d a w len
  have table (b : Base16) := s.destAddr_base16 p w len b d
  exact ⟨table .bxSi, table .bxDi, table .bpSi, table .bpDi, table .si, table .di, table .bp, table .bx,
    s.destAddr_disp16 p w len a⟩

/-- Settles O32: each operand form by its own sum; outside `Long64` an address that is not of 16 bits has 32. -/
theorem addressTable32 : Obligations.AddressTable32 := by
  intro s p sc ix r d a w len has
  refine ⟨s.destAddr_base p w len r d, fun hm => ?_, fun hm => ?_, fun hw => s.destAddr_sib p w len hw sc ix d,
    s.destAddr_sibNoBase p w len sc ix a⟩
  · rw [State.destAddr_disp32_of_long64 p w len hm]
    exact ((State.represents_nextRip hm len).add (Width.represents_signExtend a)).trunc_eq
  · exact State.destAddr_disp32_of_not_long64 p w len hm (addrSize_eq_w32 hm has) a

/-- Settles O30: the same address, the displacement as a word. -/
theorem ripRelativeDestination : Obligations.RipRelativeDestination := by
  intro s p a w len hm
  rw [State.destAddr_disp32_of_long64 p w len hm]
  exact_mod_cast ((State.represents_nextRip hm len).add (Width.represents_toNat (a.signExtend 64))).trunc_eq

/-- Settles O33: by the one override there can be, and by the operand's form. -/
theorem destinationSegment : Obligations.DestinationSegment := by
  intro s p m n
  refine ⟨fun h => ?_, fun h hn => ?_, fun h hm hfs hgs => ?_, defaultSeg_ss_or_ds m, defaultSeg_eq_ss_iff m⟩
  · exact State.memSeg_of_no_override m (segOverride_of_segs_nil _ h)
  · exact State.memSeg_of_override m (by rw [segOverride_of_segs_singleton _ h, if_pos hn])
  · exact State.memSeg_of_no_override m (by rw [segOverride_of_segs_singleton _ h, if_neg (by tauto)])

/-- Settles O34: LOCK is tested before the instruction's own pseudocode. -/
theorem lockRaisesInvalidOpcode : Obligations.LockRaisesInvalidOpcode :=
  ⟨legacyOfByte_byte .lock, fun _ _ hw hl => exec_of_lock hw (decide_eq_true hl)⟩

/-- Settles O35: without LOCK the pseudocode of the three legacy rows begins with the test of the mode. -/
theorem invalidOpcodeCases : Obligations.InvalidOpcodeCases := by
  intro i s hw h
  cases hl : i.prefixes.has .lock with
  | true => exact exec_of_lock hw hl
  | false =>
    rcases h with hlock | ⟨hi, hm⟩
    · exact absurd (hl.symm.trans hlock) Bool.false_ne_true
    · exact exec_of_invalidIn64 hw hl hi hm

end Sys2Proof.Proofs
end

section
/-! PROOFS. POP into a general register and into memory (40_pop_general.md R121, R129): the state each completes in,
what it leaves there, and the address of a destination whose base is the stack pointer (R129, R130). -/

namespace Sys2Proof.Machine

/-! ### Completion -/

section
variable {i : Instr} {s t : State} {ps qs : List Nat} {r : Reg} {m : Mem}

theorem exec_of_regDest (hi : i.regDest = some r) (hr : s.Runs i) (hps : s.StackReadable (i.width s.ctx) ps) :
    exec i s = .next
      (((s.writeSP s (i.width s.ctx)).writeReg (i.width s.ctx) r (s.mem.value ps)).retire i.len false) :=
  exec_of_body hr ((body_of_regDest hi).trans ((popToReg_ok_iff _ _ _ _ _).mpr ⟨ps, hps, rfl⟩))

theorem exec_of_memDest (hm : i.memDest = some m) (hr : s.Runs i) (hps : s.StackReadable (i.width s.ctx) ps)
    (hqs : s.DestWritable i.prefixes m (i.width s.ctx) i.len qs) :
    exec i s = .next ((({ s with
      mem := s.mem.writeAll (s.storeOrder (qs.zip (leBytes (i.width s.ctx).bytes (s.mem.value ps))))
      draws := s.draws + 1 } : State).writeSP s (i.width s.ctx)).retire i.len false) :=
  exec_of_body hr ((body_of_memDest hm).trans ((popToMem_ok_iff _ _ _ _ _ _).mpr ⟨ps, qs, hps, hqs, rfl⟩))

theorem otherDests_eq_none_of_regDest (hi : i.regDest = some r) : i.memDest = none ∧ i.segDest = none := by
  rcases dest_cases i with ⟨_, -, h⟩ | ⟨_, h, -⟩ | ⟨_, h, -⟩
  · exact h
  · simp [hi] at h
  · simp [hi] at h

theorem otherDests_eq_none_of_memDest (hm : i.memDest = some m) : i.regDest = none ∧ i.segDest = none := by
  rcases dest_cases i with ⟨_, -, h, -⟩ | ⟨_, hreg, -, hseg⟩ | ⟨_, -, h, -⟩
  · simp [hm] at h
  · exact ⟨hreg, hseg⟩
  · simp [hm] at h

/-- Without a segment destination every segment register is kept (10_state.md R38). -/
theorem next_segs (h : exec i s = .next t) (hseg : i.segDest = none) : t.segs = s.segs := by
  cases completes_of_next h with
  | reg r ps => simp
  | mem m ps qs => simp
  | seg n ps hid u _ _ hn => simp [hseg] at hn

/-! ### A register destination -/

/-- A 16-bit register write keeps the bits above it, of whatever register (10_state.md R22). -/
theorem State.x_writeReg16_high (s : State) (r q : Reg) (v : Word64) :
    ((s.writeReg .w16 r v).x q).toNat / 2 ^ 16 = (s.x q).toNat / 2 ^ 16 := by
  by_cases h : q = r
  · rw [h, State.x_writeReg16_self, replaceLow16_high]
  · rw [State.x_writeReg_ne _ _ _ h]

/-- A register written with the value popped holds it: it has no more bits than the operand. -/
theorem State.readReg_writeReg_popped {w : Width} (hps : s.StackReadable w ps) (u : State) (r : Reg) :
    ((u.writeReg w r (s.mem.value ps)).readReg w r).toNat = leNat (ps.map s.mem.read) := by
  rw [State.readReg_writeReg_self, stackReadable_toNat hps, Nat.mod_eq_of_lt (stackReadable_lt hps)]

theorem next_poppedIntoReg (hi : i.regDest = some r) (hps : s.StackReadable (i.width s.ctx) ps)
    (h : exec i s = .next t) : PoppedIntoReg s t (i.width s.ctx) r (leNat (ps.map s.mem.read)) i.len := by
  obtain ⟨hmem, hseg⟩ := otherDests_eq_none_of_regDest hi
  obtain rfl : _ = t := Host.Outcome.next.inj ((exec_of_regDest hi (runs_of_next h).1 hps).symm.trans h)
  exact {
    dest := State.readReg_writeReg_popped hps _ r
    keeps := fun hw hr => by
      rw [State.x_retire, hw, State.x_writeReg16_high, State.x_writeSP_ne _ _ _ hr]
    stack := fun hr => State.writeSP_stackAdvanced _ rfl (State.x_writeReg_ne _ _ _ (Ne.symm hr))
    others := fun q hqr hq => next_x h hq (by simpa [hi] using Ne.symm hqr)
    rip := next_rip h
    inhibit := by rw [next_ssInhibit h, hseg]; rfl
    segs := next_segs h hseg
    mem := next_mem_of_reg h hmem hseg
    control := next_sameControl h }

/-- Under a 16-bit operand the bits of the stack pointer above it are those of the incremented one, also where the stack
pointer is the destination (40_pop_general.md R128). -/
theorem next_rsp_high (hi : i.regDest = some r) (hps : s.StackReadable (i.width s.ctx) ps)
    (h : exec i s = .next t) (hw : i.width s.ctx = .w16) :
    (t.x rsp).toNat / 2 ^ 16 = ((s.writeSP s .w16).x rsp).toNat / 2 ^ 16 := by
  obtain rfl : _ = t := Host.Outcome.next.inj ((exec_of_regDest hi (runs_of_next h).1 hps).symm.trans h)
  rw [State.x_retire, hw, State.x_writeReg16_high]

/-- The stack pointer written, and nothing after it. -/
theorem State.stackAdvanced_writeSP (s : State) (w : Width) : StackAdvanced s (s.writeSP s w) w :=
  State.writeSP_stackAdvanced w rfl rfl

/-- Where the stack pointer is wider than 16 bits, its part above them is that of the increment. -/
theorem StackAdvanced.pointer_high {w : Width} {u : State} (ha : StackAdvanced s u w) (hsa : s.stackAddrSize ≠ .w16)
    (hu : (t.x rsp).toNat / 2 ^ 16 = (u.x rsp).toNat / 2 ^ 16) :
    (t.x rsp).toNat % 2 ^ s.stackAddrSize.bits / 2 ^ 16 =
      (s.stackPointer.toNat + w.bytes) % 2 ^ s.stackAddrSize.bits / 2 ^ 16 := by
  rw [← ha.pointer, State.readReg, Width.trunc_toNat]
  cases h : s.stackAddrSize with
  | w16 => exact absurd h hsa
  | w32 => simp only [Width.bits]; omega
  | w64 => simp only [Width.bits]; omega

/-! ### A memory destination -/

/-- What the bytes of a value listed with their addresses are. -/
theorem mem_zip_leBytes_iff {n : Nat} (hlen : qs.length = n) (v : Word64) (c : Nat × Byte) :
    c ∈ qs.zip (leBytes n v) ↔ ∃ k < n, c = (qs.getD k 0, v.extractLsb' (8 * k) 8) := by
  have hget (k : Nat) (hk : k < n) : (qs[k], (leBytes n v)[k]'(by rwa [leBytes_length])) =
      (qs.getD k 0, v.extractLsb' (8 * k) 8) := by
    rw [← leBytes_getD n k v hk, List.getD_eq_getElem, List.getD_eq_getElem]
  simp only [List.mem_iff_getElem, List.length_zip, leBytes_length, hlen, min_self, List.getElem_zip]
  exact exists_congr fun k => ⟨fun ⟨hk, e⟩ => ⟨hk, e ▸ hget k hk⟩, fun ⟨hk, e⟩ => ⟨hk, e ▸ hget k hk⟩⟩

/-- A byte at one of the addresses of a write is one of the bytes stored there, in whatever order they are stored
(20_memory.md R61, R63). -/
theorem State.read_writeAll_storeOrder {n : Nat} (hlen : qs.length = n) (v : Word64) (hwf : s.mem.wf = true) {k : Nat}
    (hk : k < n) : ∃ j < n, qs.getD j 0 = qs.getD k 0 ∧
      (s.mem.writeAll (s.storeOrder (qs.zip (leBytes n v)))).read (qs.getD k 0) = v.extractLsb' (8 * j) 8 := by
  have hmem := (s.mem_storeOrder (qs.zip (leBytes n v)) _).mpr ((mem_zip_leBytes_iff hlen v _).mpr ⟨k, hk, rfl⟩)
  obtain ⟨c, hc, haddr, hread⟩ := Memory.read_writeAll_exists _ hwf ⟨_, hmem, rfl⟩
  obtain ⟨j, hj, rfl⟩ := (mem_zip_leBytes_iff hlen v c).mp ((s.mem_storeOrder _ c).mp hc)
  exact ⟨j, hj, haddr, hread⟩

theorem getD_inj_of_nodup (hd : qs.Nodup) {j k : Nat} (hj : j < qs.length) (hk : k < qs.length)
    (h : qs.getD j 0 = qs.getD k 0) : j = k := by
  rw [List.getD_eq_getElem _ _ hj, List.getD_eq_getElem _ _ hk] at h
  exact (hd.getElem_inj_iff).mp h

/-- What stands at the destination after a completed POP (40_pop_general.md R129; log 35). -/
theorem next_read_memDest (hm : i.memDest = some m) (hps : s.StackReadable (i.width s.ctx) ps)
    (hqs : s.DestWritable i.prefixes m (i.width s.ctx) i.len qs) (h : exec i s = .next t) (hwf : s.mem.wf = true)
    {k : Nat} (hk : k < (i.width s.ctx).bytes) : ∃ j < (i.width s.ctx).bytes, qs.getD j 0 = qs.getD k 0 ∧
      t.mem.read (qs.getD k 0) = s.mem.read (ps.getD j 0) := by
  have hlen := hps.bytes.length
  obtain rfl : _ = t := Host.Outcome.next.inj ((exec_of_memDest hm (runs_of_next h).1 hps hqs).symm.trans h)
  obtain ⟨j, hj, haddr, hread⟩ :=
    State.read_writeAll_storeOrder hqs.reaches.bytes.length (s.mem.value ps) hwf hk
  rw [Memory.value_byte _ _ (hlen.le.trans (Width.bytes_le _)) j (hlen ▸ hj)] at hread
  exact ⟨j, hj, haddr, by simpa using hread⟩

theorem next_stackAdvanced_of_memDest (hm : i.memDest = some m) (h : exec i s = .next t) :
    StackAdvanced s t (i.width s.ctx) := by
  obtain ⟨hreg, hseg⟩ := otherDests_eq_none_of_memDest hm
  cases completes_of_next h with
  | reg r ps hr => simp [hreg] at hr
  | mem m ps qs => exact State.writeSP_stackAdvanced _ (by rfl) (State.x_retire _ _ _ _)
  | seg n ps hid u _ _ hn => simp [hseg] at hn

theorem next_poppedIntoMem (hm : i.memDest = some m) (hps : s.StackReadable (i.width s.ctx) ps)
    (hqs : s.DestWritable i.prefixes m (i.width s.ctx) i.len qs) (h : exec i s = .next t) :
    PoppedIntoMem s t (i.width s.ctx) ps qs i.len := by
  obtain ⟨hreg, hseg⟩ := otherDests_eq_none_of_memDest hm
  have hlen := hqs.reaches.bytes.length
  exact {
    stored := fun hwf hd k hk => by
      obtain ⟨j, hj, haddr, hread⟩ := next_read_memDest hm hps hqs h hwf hk
      obtain rfl := getD_inj_of_nodup hd (hlen ▸ hj) (hlen ▸ hk) haddr
      exact hread
    among := fun hwf k hk => next_read_memDest hm hps hqs h hwf hk
    elsewhere := fun a ha => next_read_of_mem h hm hqs.reaches.bytes ha
    stack := next_stackAdvanced_of_memDest hm h
    others := fun q hq => next_x h hq (by simp [hreg])
    rip := next_rip h
    inhibit := by rw [next_ssInhibit h, hseg]; rfl
    segs := next_segs h hseg
    control := next_sameControl h }

end

/-! ### The stack pointer as base of an address (40_pop_general.md R129, R130) -/

section
variable {s : State} {w as : Width}

/-- Where the increment does not carry out of a 16-bit stack pointer, register 4 as an address reads it is the register
plus the increment, at every address size the stack-address size admits. -/
theorem State.addressReg_rsp_modEq (hwrap : ¬ s.stackWraps w) (has : as = .w64 → s.stackAddrSize = .w64) :
    s.addressReg w rsp ≡ (s.x rsp).toNat + w.bytes [MOD 2 ^ as.bits] := by
  have hlt := (s.x rsp).isLt
  unfold State.addressReg Nat.ModEq
  rw [if_pos rfl]
  cases hsa : s.stackAddrSize with
  | w16 =>
    have hcarry : (s.x rsp).toNat % 2 ^ 16 + w.bytes < 2 ^ 16 := Nat.lt_of_not_le fun h => hwrap ⟨hsa, h⟩
    congr 1
    simp only [Width.bits]
    omega
  | w32 => cases as with
    | w16 => simp only [Width.bits]; omega
    | w32 => simp only [Width.bits]; omega
    | w64 => exact absurd (hsa.symm.trans (has rfl)) Width.noConfusion
  | w64 => cases as <;> simp only [Width.bits] <;> omega

variable {p : Prefixes} {len : Nat} (sc : BitVec 2) (d : Disp32)

/-- A destination based on register 4 without an index, where no increment carries out of a 16-bit stack pointer. -/
theorem State.destAddr_sib_rsp (hwrap : ¬ s.stackWraps w)
    (has : addrSize s.ctx p = .w64 → s.stackAddrSize = .w64) :
    (s.destAddr p (.sib sc none rsp d) w len).toNat =
      ((s.x rsp).toNat + w.bytes + (dispValue32 d).toNat) % 2 ^ (addrSize s.ctx p).bits := by
  have haddr := s.destAddr_sib p w len (r := rsp) (fun h => hwrap h.2) sc none d
  have hbase := Int.natCast_modEq_iff.mpr (State.addressReg_rsp_modEq hwrap has)
  have hdisp : (dispValue32 d).toNat ≡ d.int [ZMOD 2 ^ (addrSize s.ctx p).bits] := represents_dispValue32 d
  push_cast at hbase
  rw [State.scaledIndex, Nat.cast_zero, add_zero, hbase.add hdisp.symm] at haddr
  exact_mod_cast haddr

theorem State.effAddr_sib (s : State) (w as : Width) (sc : BitVec 2) (ix : Option Reg) (r : Reg) (d : Disp32)
    (next : Word64) : (s.spAdvanced w).effAddr (.sib sc ix r d) as next =
      BitVec.ofInt 64 ((s.addressReg w r + s.scaledIndex w sc ix + d.int) % 2 ^ as.bits) := by
  rw [← (((s.represents_readReg w as r).add (s.represents_indexValue w as sc ix)).add
    (represents_dispValue32 d)).trunc_eq, BitVec.ofInt_natCast, BitVec.ofNat_toNat, BitVec.setWidth_eq]
  rfl

theorem State.destAddr_of_wrap {m : Mem} (hwrap : s.stackWraps w) (hm : basedOnSP m = true) :
    s.destAddr p m w len = (Config.wrapWriteLoc (s.x rsp) w.bytes
      ((s.spAdvanced w).effAddr m (addrSize s.ctx p) (s.nextRip len))).setWidth 64 := by
  rw [State.destAddr, if_pos ((s.wrapCase_iff w m).mpr ⟨hwrap, hm⟩)]

end

end Sys2Proof.Machine
end

section
/-! The statements about POP into a register and into memory, settled. -/

namespace Sys2Proof.Proofs

open Sys2Proof Sys2Proof.Machine

/-- Settles O21: the POP completes, and every field of the claim is read off the state it completes in. -/
theorem popRegisterCompletes : Obligations.PopRegisterCompletes := fun _ _ _ _ hi hr hps =>
  have h := exec_of_regDest hi hr hps
  ⟨_, h, next_poppedIntoReg hi hps h⟩

/-- Settles O22: as for a register, the write to the destination given. -/
theorem popMemoryCompletes : Obligations.PopMemoryCompletes := fun _ _ _ _ _ hm hr hps hqs =>
  have h := exec_of_memDest hm hr hps hqs
  ⟨_, h, next_poppedIntoMem hm hps hqs h⟩

/-- Settles O28: what the destination holds is the value popped, and a 16-bit write leaves the bits above it as the
increment did. -/
theorem popIntoStackPointer : Obligations.PopIntoStackPointer := by
  intro i r s ps hi hr hps
  obtain ⟨t, h⟩ : ∃ t, exec i s = .next t := ⟨_, exec_of_regDest hi hr hps⟩
  have hp := next_poppedIntoReg hi hps h
  have hsa : t.stackAddrSize = s.stackAddrSize := State.stackAddrSize_congr (next_mode h) hp.segs
  have hlow : (t.x r).toNat % 2 ^ (i.width s.ctx).bits = leNat (ps.map s.mem.read) := by
    rw [← Width.trunc_toNat]; exact hp.dest
  refine ⟨t, h, ?equal, ?low16, ?keep16, ?low32, ?r12⟩
  case equal =>
    rintro rfl hw
    rw [State.stackPointer_toNat, hsa, ← hw, hlow]
  case low16 =>
    rintro rfl hw hne
    refine ⟨by simpa only [hw, Width.bits] using hlow, ?_⟩
    exact (s.stackAdvanced_writeSP .w16).pointer_high hne (next_rsp_high hi hps h hw)
  case keep16 =>
    rintro rfl hw h16
    rw [next_rsp_high hi hps h hw, (s.stackAdvanced_writeSP .w16).above16 h16]
  case low32 =>
    rintro rfl hw -
    simpa only [hw, Width.bits] using hlow
  case r12 =>
    rintro rfl
    exact ⟨hp.dest, hp.stack (by decide)⟩

/-- Settles O29: without a carry one sum at every size, with one the free location of that sum. -/
theorem stackBasedDestination : Obligations.StackBasedDestination := by
  intro s p sc ix d w len
  refine ⟨fun hm has => ?_, fun hsa has => ?_, fun hsa has hcarry => ?_, fun hsa has hcarry => ?_⟩
  · have hsa := State.stackAddrSize_of_long64 hm
    have hwrap : ¬ s.stackWraps w := fun h => absurd (hsa.symm.trans h.1) Width.noConfusion
    apply BitVec.eq_of_toNat_eq
    rw [State.destAddr_sib_rsp sc d hwrap fun _ => hsa, has]
    simp [Width.bits]
  · rw [State.destAddr_sib_rsp sc d (fun h => hsa h.1) (by simp [has]), has, Width.bits]
  · rw [State.destAddr_sib_rsp sc d (fun h => Nat.not_le.mpr hcarry h.2) (by simp [has]), has, Width.bits]
  · rw [State.destAddr_of_wrap ⟨hsa, hcarry⟩ rfl, State.effAddr_sib, has, Width.bits]

end Sys2Proof.Proofs
end

section
/-! PROOFS. POP into a segment register (41_pop_segment.md R141 to R149): what a load answers in each mode, what stops it,
and the state the POP completes in. -/

namespace Sys2Proof.Machine

/-! ### Completion -/

section
variable {i : Instr} {s t : State} {n : SegName} {ps : List Nat}

theorem exec_of_segDest {h : Hidden} {u : State} (hn : i.segDest = some n) (hr : s.Runs i)
    (hps : s.StackReadable (i.width s.ctx) ps) (hs : s.segHidden n (s.poppedSelector ps) = .ok (h, u)) :
    exec i s = .next
      (((u.writeSP s (i.width s.ctx)).setSeg n { sel := s.poppedSelector ps, hidden := h }).retire i.len
        (decide (n = .ss))) := by
  rw [← popSelector_eq hps] at hs ⊢
  exact exec_of_body hr ((body_of_runs hn hr).trans ((popToSeg_ok_iff _ _ _ _ _).mpr ⟨ps, h, u, hps, hs, rfl⟩))

theorem regDest_eq_none_of_segDest (hn : i.segDest = some n) : i.regDest = none := by
  rcases dest_cases i with ⟨_, -, -, h⟩ | ⟨_, h, -⟩ | ⟨_, h, -⟩
  · simp [hn] at h
  · exact h
  · exact h

/-- A load that answers completes the POP: the hidden part and the memory are those the load answered. -/
theorem exec_completes_of_segHidden {h : Hidden} {u : State} (hn : i.segDest = some n) (hr : s.Runs i)
    (hps : s.StackReadable (i.width s.ctx) ps) (hs : s.segHidden n (s.poppedSelector ps) = .ok (h, u)) :
    ∃ t, exec i s = .next t ∧ PoppedIntoSeg s t n (i.width s.ctx) (s.poppedSelector ps) i.len ∧
      (t.seg n).hidden = h ∧ t.mem = u.mem := by
  have hnext := exec_of_segDest hn hr hps hs
  obtain ⟨hregs, -⟩ := State.segHidden_ok hs
  refine ⟨_, hnext, ?_, by simp [State.seg], by simp⟩
  exact {
    sel := by simp [State.seg]
    otherSegs := fun q hq => next_seg hnext (by simpa [hn] using Ne.symm hq)
    stack := State.writeSP_stackAdvanced _ (State.x_congr hregs rsp) (by simp)
    others := fun q hq => next_x hnext hq (by simp [regDest_eq_none_of_segDest hn])
    rip := next_rip hnext
    inhibit := rfl
    control := next_sameControl hnext }

end

/-! ### The load by mode (41_pop_segment.md R148) -/

section
variable {s : State} {n : SegName} {sel : Word16}

theorem State.not_v86_of_protected (hp : s.protected = true) : s.mode ≠ .v86 := fun hm => by
  simp [State.protected, hm] at hp

theorem State.segHidden_of_real (hm : s.mode = .real) : s.segHidden n sel = .ok (s.realHidden n sel, s) := if_pos hm

theorem State.segHidden_of_v86 (hm : s.mode = .v86) :
    s.segHidden n sel = .ok (s.realHidden n sel, { s with draws := s.draws + 1 }) := by
  simp [State.segHidden, hm]

theorem State.segHidden_of_null (hr : s.mode ≠ .real) (hv : s.mode ≠ .v86) (hn : n ≠ .ss) (hnull : selNull sel = true) :
    s.segHidden n sel = .ok (s.nullHidden, { s with draws := s.draws + 1 }) := by
  simp only [State.segHidden, if_neg hr, if_neg hv, if_neg hn, if_pos hnull]

theorem State.segHidden_of_data (hr : s.mode ≠ .real) (hv : s.mode ≠ .v86) (hn : n ≠ .ss) (hnull : selNull sel = false) :
    s.segHidden n sel = s.loadDataSeg sel := by
  simp only [State.segHidden, if_neg hr, if_neg hv, if_neg hn, hnull, Bool.false_eq_true, if_false]

theorem State.segHidden_of_stack (hp : s.protected = true) : s.segHidden .ss sel = s.loadSS sel := by
  simp only [State.segHidden, if_neg (State.not_real_of_protected hp), if_neg (State.not_v86_of_protected hp), if_true]

/-- The base of a load in `Real` and `V86` is the selector times 16 (41_pop_segment.md R141). -/
theorem State.realHidden_base_toNat (s : State) (n : SegName) (sel : Word16) :
    (s.realHidden n sel).base.toNat = sel.toNat * 16 := by
  have hb : (s.realHidden n sel).base = sel.setWidth 64 <<< 4 := by unfold State.realHidden; split <;> rfl
  have hlt := sel.isLt
  rw [hb, BitVec.toNat_shiftLeft, BitVec.toNat_setWidth, Nat.shiftLeft_eq]
  omega

/-- In `Real` limit and attributes stay, and the register is usable. -/
theorem State.realHidden_of_real (hm : s.mode = .real) : s.realHidden n sel =
    { base := sel.setWidth 64 <<< 4
      limit := (s.seg n).hidden.limit
      attr := { (s.seg n).hidden.attr with unusable := false } } := by
  simp [State.realHidden, hm]

/-- In `V86` limit and attributes are fixed. -/
theorem State.realHidden_of_v86 (hm : s.mode = .v86) : s.realHidden n sel =
    { base := sel.setWidth 64 <<< 4, limit := 0xFFFF, attr := v86Attr (Config.accessedInV86 s.draws) } := if_pos hm

end

/-! ### The load of a descriptor (41_pop_segment.md R143, R145) -/

section
variable {s t u : State} {sel : Word16} {d : Descriptor} {byte5 : Nat}

theorem holdsDescriptor_hiddenOf {accessed : Bool} (ha : d.accessed = true → accessed = true) :
    HoldsDescriptor (hiddenOf d accessed) d where
  base := by
    have hlt := d.base.isLt
    simp only [hiddenOf, BitVec.toNat_setWidth]
    omega
  limit := rfl
  kind := rfl
  writable := rfl
  readable := rfl
  conforming := rfl
  expandDown := rfl
  dpl := rfl
  present := rfl
  db := rfl
  l := rfl
  unusable := rfl
  accessed := ha

/-- The bit a load leaves is set where the descriptor's was (log 34). -/
theorem State.accessedBit_of_accessed (s : State) (hd : d.accessed = true) : s.accessedBit d = true := by
  simp [State.accessedBit, hd]

theorem AccessedBitOnly.congr_mem (h : AccessedBitOnly s u byte5) (hm : t.mem = u.mem) : AccessedBitOnly s t byte5 where
  elsewhere := by rw [hm]; exact h.elsewhere
  byte := by rw [hm]; exact h.byte

theorem State.loadDataSeg_of_acceptsData (hl : s.lookup sel = .ok (some (d, byte5))) (ha : s.AcceptsData sel d)
    (hp : d.present = true) (ht : d.accessed = false → s.inText byte5 = false) :
    ∃ u, s.loadDataSeg sel = .ok (hiddenOf d (s.accessedBit d), u) ∧ AccessedBitOnly s u byte5 := by
  obtain ⟨u, hu⟩ := State.markAccessed_total ht
  obtain ⟨hkind, hpriv⟩ := (acceptsData_iff s sel d).mp ha
  obtain ⟨-, hmem, -⟩ := State.markAccessed_ok hu
  exact ⟨u, (s.loadDataSeg_ok_iff sel _ u).mpr ⟨d, byte5, hl, hkind, hpriv, hp, rfl, hu⟩, hmem⟩

theorem State.loadSS_of_acceptsStack (hnull : selNull sel = false) (hl : s.lookup sel = .ok (some (d, byte5)))
    (ha : s.AcceptsStack sel d) (hp : d.present = true) (ht : d.accessed = false → s.inText byte5 = false) :
    ∃ u, s.loadSS sel = .ok (hiddenOf d (s.accessedBit d), u) ∧ AccessedBitOnly s u byte5 := by
  obtain ⟨u, hu⟩ := State.markAccessed_total ht
  obtain ⟨hrpl, hwritable, hdpl⟩ := (acceptsStack_iff s sel d).mp ha
  obtain ⟨-, hmem, -⟩ := State.markAccessed_ok hu
  exact ⟨u, (s.loadSS_ok_iff sel _ u).mpr ⟨hnull, d, byte5, hl, hrpl, hwritable, hdpl, hp, rfl, hu⟩, hmem⟩

end

/-! ### A load that faults (41_pop_segment.md R143, R145; 10_state.md R31) -/

section
variable {s : State} {sel : Word16} {d : Descriptor} {byte5 : Nat}

theorem State.lookup_of_outsideTable (h : s.OutsideTable sel) : s.lookup sel = .ok none := by
  rcases h with ⟨hti, hld⟩ | ⟨hti, hld, hlim⟩ | ⟨hti, hlim⟩
  · simp only [State.lookup, State.table, hti, hld, Bool.false_eq_true, if_true, if_false]
  · simp only [State.lookup, State.table, hti, hld, if_true, if_pos hlim]
  · simp only [State.lookup, State.table, hti, Bool.false_eq_true, if_false, if_pos hlim]

theorem State.loadDataSeg_of_outsideTable (h : s.OutsideTable sel) :
    s.loadDataSeg sel = .error (.raise (.gp (selCode sel))) := by
  simp only [State.loadDataSeg, State.lookup_of_outsideTable h]

/-- The two tests of a data-segment load, as the load makes them. -/
theorem acceptsData_iff_tests : s.AcceptsData sel d ↔ d.isDataOrReadableCode = true ∧
    ¬ (d.isDataOrNonconforming = true ∧ privFail (selRPL sel) s.cpl d.dpl = true) := by
  simp only [acceptsData_iff, not_and, Bool.not_eq_true]

theorem State.loadDataSeg_of_not_acceptsData (hl : s.lookup sel = .ok (some (d, byte5))) (ha : ¬ s.AcceptsData sel d) :
    s.loadDataSeg sel = .error (.raise (.gp (selCode sel))) := by
  simp only [State.loadDataSeg, hl]
  split
  next => rfl
  next hkind =>
    split
    next => rfl
    next hpriv => exact absurd (acceptsData_iff_tests.mpr ⟨Bool.eq_true_of_not_eq_false hkind, hpriv⟩) ha

theorem State.loadDataSeg_of_not_present (hl : s.lookup sel = .ok (some (d, byte5))) (ha : s.AcceptsData sel d)
    (hp : d.present = false) : s.loadDataSeg sel = .error (.raise (.np (selCode sel))) := by
  obtain ⟨hkind, hpriv⟩ := acceptsData_iff_tests.mp ha
  simp only [State.loadDataSeg, hl, hkind, if_neg hpriv, hp, Bool.true_eq_false, if_false, if_true]

theorem State.loadSS_of_null (hnull : selNull sel = true) : s.loadSS sel = .error (.raise (.gp 0)) := if_pos hnull

theorem State.loadSS_of_outsideTable (hnull : selNull sel = false) (h : s.OutsideTable sel) :
    s.loadSS sel = .error (.raise (.gp (selCode sel))) := by
  simp only [State.loadSS, hnull, State.lookup_of_outsideTable h, Bool.false_eq_true, if_false]

theorem State.loadSS_of_not_acceptsStack (hnull : selNull sel = false) (hl : s.lookup sel = .ok (some (d, byte5)))
    (ha : ¬ s.AcceptsStack sel d) : s.loadSS sel = .error (.raise (.gp (selCode sel))) := by
  simp only [State.loadSS, hnull, hl, Bool.false_eq_true, if_false]
  split
  next => rfl
  next hrpl =>
    split
    next => rfl
    next hwritable =>
      split
      next => rfl
      next hdpl =>
        exact absurd ((acceptsStack_iff s sel d).mpr
          ⟨not_not.mp hrpl, Bool.eq_true_of_not_eq_false hwritable, not_not.mp hdpl⟩) ha

theorem State.loadSS_of_not_present (hnull : selNull sel = false) (hl : s.lookup sel = .ok (some (d, byte5)))
    (ha : s.AcceptsStack sel d) (hp : d.present = false) : s.loadSS sel = .error (.raise (.ss (selCode sel))) := by
  obtain ⟨hrpl, hwritable, hdpl⟩ := (acceptsStack_iff s sel d).mp ha
  simp only [State.loadSS, hnull, hl, hrpl, hwritable, hdpl, hp, ne_eq, not_true_eq_false, Bool.true_eq_false,
    Bool.false_eq_true, if_false, if_true]

theorem finish_np (hm : s.mode ≠ .real) (code : Word32) :
    finish s (.error (.raise (.np code))) = .fault (.segmentNotPresent (some code) s) := by
  simp only [finish, takeException, State.errorCode_of_not_real hm]

theorem finish_ss (hm : s.mode ≠ .real) (code : Word32) :
    finish s (.error (.raise (.ss code))) = .fault (.stackFault (some code) s) := by
  simp only [finish, takeException, State.errorCode_of_not_real hm]

end

end Sys2Proof.Machine
end

section
/-! The statements about POP into a segment register, settled. -/

namespace Sys2Proof.Proofs

open Sys2Proof Sys2Proof.Machine

/-- Settles O23: the load answers `RealHidden` and leaves the state. -/
theorem realModeSegmentLoad : Obligations.RealModeSegmentLoad := by
  intro i n s ps hn hm hr hps
  obtain ⟨t, hnext, hpop, hhid, hmem⟩ := exec_completes_of_segHidden hn hr hps (State.segHidden_of_real hm)
  refine ⟨t, hnext, hpop, hmem, ?_, ?_, ?_⟩
  · rw [hhid, State.realHidden_base_toNat]
  · rw [hhid, State.realHidden_of_real hm]
  · rw [hhid, State.realHidden_of_real hm]

/-- Settles O24: as in `Real`, with the attributes of `V86`. -/
theorem virtualModeSegmentLoad : Obligations.VirtualModeSegmentLoad := by
  intro i n s ps hn hm hr hps
  obtain ⟨t, hnext, hpop, hhid, hmem⟩ := exec_completes_of_segHidden hn hr hps (State.segHidden_of_v86 hm)
  refine ⟨t, hnext, hpop, hmem, ?_, ?_⟩
  · rw [hhid, State.realHidden_base_toNat]
  · rw [hhid, State.realHidden_of_v86 hm]
    exact ⟨rfl, rfl, rfl, rfl, rfl, rfl, rfl, rfl⟩

/-- Settles O25: a NULL selector reads no table and answers `NullHidden`. -/
theorem nullSelectorLoad : Obligations.NullSelectorLoad := by
  intro i n s ps hn hss hreal hv86 hr hps hsel
  obtain ⟨t, hnext, hpop, hhid, hmem⟩ := exec_completes_of_segHidden hn hr hps
    (State.segHidden_of_null hreal hv86 hss ((selNull_iff _).mpr hsel))
  exact ⟨t, hnext, hpop, hmem, by rw [hhid]; rfl⟩

/-- Settles O26: the descriptor accepted is what the register holds, and marking it is all that memory sees. -/
theorem dataSegmentLoad : Obligations.DataSegmentLoad := by
  intro i n s ps d byte5 hn hss hreal hv86 hr hps hsel hfind ha hp ht
  have hlookup := (s.lookup_some_iff _ d byte5).mpr hfind
  obtain ⟨u, hload, hacc⟩ := State.loadDataSeg_of_acceptsData hlookup ha hp ht
  rw [← State.segHidden_of_data hreal hv86 hss (selNull_eq_false hsel)] at hload
  obtain ⟨t, hnext, hpop, hhid, hmem⟩ := exec_completes_of_segHidden hn hr hps hload
  refine ⟨t, hnext, hpop, ?_, hacc.congr_mem hmem⟩
  rw [hhid]
  exact holdsDescriptor_hiddenOf s.accessedBit_of_accessed

/-- Settles O27: as for a data segment; the stack-address size is then read from the descriptor's D/B bit. -/
theorem stackSegmentLoad : Obligations.StackSegmentLoad := by
  intro p s ps d byte5 hprot hr hps hsel hfind ha hp ht
  have hlookup := (s.lookup_some_iff _ d byte5).mpr hfind
  obtain ⟨u, hload, hacc⟩ := State.loadSS_of_acceptsStack (selNull_eq_false hsel) hlookup ha hp ht
  rw [← State.segHidden_of_stack hprot] at hload
  obtain ⟨t, hnext, hpop, hhid, hmem⟩ := exec_completes_of_segHidden (i := .popSs p) rfl hr hps hload
  have hholds : HoldsDescriptor (t.seg .ss).hidden d := by
    rw [hhid]; exact holdsDescriptor_hiddenOf s.accessedBit_of_accessed
  have hmode : t.mode ≠ .long64 := by rw [next_mode hnext]; exact State.not_long64_of_protected hprot
  refine ⟨t, hnext, hpop, hholds, hacc.congr_mem hmem, ?_⟩
  rw [← hholds.db]
  exact State.stackAddrSize_of_not_long64 hmode

/-- Settles O47: the lookup, the tests and the present bit, each with the masked selector as code. -/
theorem dataSegmentFaults : Obligations.DataSegmentFaults := by
  intro i n s ps hn hss hreal hv86 hr hps hsel
  have stop {e : Exc} (h : s.loadDataSeg (s.poppedSelector ps) = .error (.raise e)) :
      exec i s = finish s (.error (.raise e)) :=
    exec_of_segHidden_error hn hr hps ((State.segHidden_of_data hreal hv86 hss (selNull_eq_false hsel)).trans h)
  rw [← selCode_eq]
  refine ⟨fun hout => ?_, fun d byte5 hfind => ?_⟩
  · rw [stop (State.loadDataSeg_of_outsideTable hout), finish_gp hreal]
  · have hlookup := (s.lookup_some_iff _ d byte5).mpr hfind
    refine ⟨fun ha => ?_, fun ha hp => ?_⟩
    · rw [stop (State.loadDataSeg_of_not_acceptsData hlookup ha), finish_gp hreal]
    · rw [stop (State.loadDataSeg_of_not_present hlookup ha hp), finish_np hreal]

/-- Settles O48: as for a data segment, after the NULL test. -/
theorem stackSegmentFaults : Obligations.StackSegmentFaults := by
  intro p s ps hprot hr hps
  have hreal := State.not_real_of_protected hprot
  have stop {e : Exc} (h : s.loadSS (s.poppedSelector ps) = .error (.raise e)) :
      exec (.popSs p) s = finish s (.error (.raise e)) :=
    exec_of_segHidden_error rfl hr hps ((State.segHidden_of_stack hprot).trans h)
  rw [← selCode_eq]
  refine ⟨fun hsel => ?_, fun hsel hout => ?_, fun d byte5 hsel hfind => ?_⟩
  · rw [stop (State.loadSS_of_null ((selNull_iff _).mpr hsel)), finish_gp hreal]
  · rw [stop (State.loadSS_of_outsideTable (selNull_eq_false hsel) hout), finish_gp hreal]
  · have hlookup := (s.lookup_some_iff _ d byte5).mpr hfind
    have hnull := selNull_eq_false hsel
    refine ⟨fun ha => ?_, fun ha hp => ?_⟩
    · rw [stop (State.loadSS_of_not_acceptsStack hnull hlookup ha), finish_gp hreal]
    · rw [stop (State.loadSS_of_not_present hnull hlookup ha hp), finish_ss hreal]

end Sys2Proof.Proofs
end

section
/-! PROOFS. The faults of a POP (60_exceptions.md R170 to R181): everything the pseudocode can raise, and what taking an
exception leaves. In `Real` and `V86` no selector is looked up, so only #UD and the exceptions of the two accesses
are left. -/

namespace Sys2Proof.Machine

section
variable {i : Instr} {s : State} {n : SegName} {e : Exc} {f : Fault}

/-! ### Everything the pseudocode can raise -/

theorem State.popRead_raise {w : Width} (h : s.popRead w = .error (.raise e)) : s.AccessExc e := State.segRead_raise h

theorem popToReg_raise {r : Reg} {w : Width} {len : Nat} (h : popToReg r w len s = .error (.raise e)) :
    s.AccessExc e := by
  unfold popToReg at h
  split at h
  next hpop => cases h; exact State.popRead_raise hpop
  next => cases h

theorem popToMem_raise {p : Prefixes} {m : Mem} {w : Width} {len : Nat}
    (h : popToMem p m w len s = .error (.raise e)) : s.AccessExc e := by
  unfold popToMem at h
  split at h
  next hpop => cases h; exact State.popRead_raise hpop
  next =>
    split at h
    next hwrite => cases h; exact State.segWrite_raise hwrite
    next => cases h

/-- The stack read or the load of the selector raises (41_pop_segment.md R148). -/
theorem popToSeg_raise {w : Width} {len : Nat} (h : popToSeg n w len s = .error (.raise e)) :
    s.AccessExc e ∨ ∃ sel, s.segHidden n sel = .error (.raise e) := by
  unfold popToSeg at h
  split at h
  next hpop => cases h; exact .inl (State.popRead_raise hpop)
  next =>
    split at h
    next hload => cases h; exact .inr ⟨_, hload⟩
    next => cases h

/-- #UD, an exception of an access, or one of a selector's load (60_exceptions.md R176). -/
theorem body_raise (h : i.body s = .error (.raise e)) :
    e = .ud ∨ s.AccessExc e ∨ ∃ n sel, s.segHidden n sel = .error (.raise e) := by
  rcases dest_cases i with ⟨r, hr, -⟩ | ⟨m, -, hm, -⟩ | ⟨n, -, -, hn⟩
  · rw [body_of_regDest hr] at h
    exact .inr (.inl (popToReg_raise h))
  · rw [body_of_memDest hm] at h
    exact .inr (.inl (popToMem_raise h))
  · rw [body_of_segDest hn] at h
    split at h
    next => cases h; exact .inl rfl
    next => exact .inr ((popToSeg_raise h).imp_right fun hload => ⟨n, hload⟩)

/-! ### What taking an exception leaves (60_exceptions.md R179, R181) -/

theorem takeException_state (h : takeException e s = .fault f) :
    f.state = s ∨ ∃ code lin, f = .pageFault code lin { s with cr2 := lin } := by
  cases e with
  | pf code lin => cases h; exact .inr ⟨_, lin, rfl⟩
  | ud | np code | ss code | gp code | ac code => cases h; exact .inl rfl

/-- An exception of an access (`State.AccessExc`) as it is taken, under the same conditions on CPL and paging. -/
def State.AccessFault (s : State) (f : Fault) : Prop :=
  f = .stackFault (s.errorCode 0) s ∨ f = .generalProtection (s.errorCode 0) s ∨
    (f = .alignmentCheck (s.errorCode 0) s ∧ s.cpl = 3) ∨
    ∃ code lin, f = .pageFault (s.errorCode code) lin { s with cr2 := lin } ∧ s.pagingOn = true

theorem State.AccessExc.accessFault (he : s.AccessExc e) (h : takeException e s = .fault f) : s.AccessFault f := by
  rcases he with rfl | rfl | ⟨rfl, hcpl⟩ | ⟨code, lin, rfl, hpaging⟩
  · cases h; exact .inl rfl
  · cases h; exact .inr (.inl rfl)
  · cases h; exact .inr (.inr (.inl ⟨rfl, hcpl⟩))
  · cases h; exact .inr (.inr (.inr ⟨code, lin, rfl, hpaging⟩))

/-! ### Where no selector is looked up: `Real` and `V86` -/

/-- Where selectors are loaded by `RealHidden`, loading one raises nothing (41_pop_segment.md R141). -/
theorem State.segHidden_ne_error (hm : s.mode = .real ∨ s.mode = .v86) (n : SegName) (sel : Word16) (stop : Stop) :
    s.segHidden n sel ≠ .error stop := by
  rcases hm with hm | hm
  · rw [State.segHidden_of_real hm]; exact nofun
  · rw [State.segHidden_of_v86 hm]; exact nofun

theorem exec_fault_of_real_or_v86 (hm : s.mode = .real ∨ s.mode = .v86) (h : exec i s = .fault f) :
    f = .invalidOpcode s ∨ s.AccessFault f := by
  rcases exec_fault h with hud | ⟨e, hbody, htake⟩
  · exact .inl hud
  rcases body_raise hbody with rfl | haccess | ⟨n, sel, hload⟩
  · cases htake; exact .inl rfl
  · exact .inr (haccess.accessFault htake)
  · exact absurd hload (State.segHidden_ne_error hm n sel _)

theorem State.errorCode_of_real (hm : s.mode = .real) (code : Word32) : s.errorCode code = none := if_pos hm

end

end Sys2Proof.Machine
end

section
/-! The statements about the faults of a POP, settled. -/

namespace Sys2Proof.Proofs

open Sys2Proof Sys2Proof.Machine

/-- Settles O49: every fault is an exception taken in the state before, and taking one writes CR2 alone. -/
theorem faultsArePrecise : Obligations.FaultsArePrecise := by
  intro i s f h
  rcases exec_fault h with rfl | ⟨e, -, htake⟩
  · exact .inl rfl
  · exact takeException_state htake

/-- Settles O50: CPL 0 leaves no #AC and paging off no #PF, and the mode drops the codes of the other two. -/
theorem faultsOfRealMode : Obligations.FaultsOfRealMode := by
  intro i s f hm h
  rw [← State.errorCode_of_real hm 0]
  rcases exec_fault_of_real_or_v86 (.inl hm) h with hud | hss | hgp | ⟨-, hcpl⟩ | ⟨code, lin, -, hpaging⟩
  · exact .inl hud
  · exact .inr (.inl hss)
  · exact .inr (.inr hgp)
  · exact absurd hm (State.not_real_of_cpl hcpl)
  · exact absurd hpaging (Bool.eq_false_iff.mp (State.pagingOn_eq_false (.inr hm)))

/-- Settles O51: the exceptions of the accesses, each with its code, are all that is left beside #UD. -/
theorem faultsOfVirtualMode : Obligations.FaultsOfVirtualMode := by
  intro i s f hm h
  have hcode := State.errorCode_of_not_real (s := s) (by simp [hm])
  rw [← hcode 0]
  rcases exec_fault_of_real_or_v86 (.inr hm) h with hud | hss | hgp | ⟨hac, -⟩ | ⟨code, lin, hpf, -⟩
  · exact .inl hud
  · exact .inr (.inl hss)
  · exact .inr (.inr (.inl hgp))
  · exact .inr (.inr (.inr (.inl hac)))
  · exact .inr (.inr (.inr (.inr ⟨code, lin, hcode code ▸ hpf⟩)))

end Sys2Proof.Proofs
end

section
/-! PROOFS. The end of a run (70_reset_and_hazards.md R208) and the state after reset (R200). -/

namespace Sys2Proof.Machine

/-! ### The end of a run (70_reset_and_hazards.md R208) -/

theorem step_of_fetchIndex_eq_length {s : State} (h : s.fetchIndex = s.prog.bytes.length) :
    step s = .refused .endOfProgram := by
  simp only [step, State.nextInstr, State.fetch, h, Nat.lt_irrefl, if_false, if_true]

/-! ### The state after reset (70_reset_and_hazards.md R200) -/

@[simp] theorem State.mode_reset : State.reset.mode = .real := rfl

@[simp] theorem State.x_reset (r : Reg) : State.reset.x r = 0 := Vector.getElem_replicate r.isLt

theorem State.seg_reset {n : SegName} (hn : n ≠ .cs) : State.reset.seg n = resetData := by
  cases n with
  | cs => contradiction
  | _ => rfl

theorem State.writable_reset {n : SegName} (hn : n ≠ .cs) : State.reset.writable n = true := by
  simp [State.writable, State.seg_reset hn, hn, resetData]

/-- After reset a segment register is that of the code segment or that of every other one, so what holds of those two
holds of all six. -/
theorem State.seg_reset_induction {P : SegReg → Prop} (hcode : P resetCode) (hdata : P resetData) (n : SegName) :
    P (State.reset.seg n) := by
  by_cases hn : n = .cs
  · exact hn ▸ hcode
  · exact State.seg_reset hn ▸ hdata

/-- The reset state is in `Real`, so of the conditions by mode those of the other modes do not bear on it. -/
theorem State.inv_reset : State.reset.Inv where
  mem := rfl
  rip _ := by decide
  bases n _ := State.seg_reset_induction (P := fun g => g.hidden.base.toNat < 2 ^ 32) (by decide) (by decide) n
  long hm := nomatch hm
  real _ := ⟨rfl, rfl⟩
  v86 hm := nomatch hm
  stack _ := State.writable_reset nofun

end Sys2Proof.Machine
end

section
/-! The statements about reset and the end of a run, settled. -/

namespace Sys2Proof.Proofs

open Sys2Proof Sys2Proof.Machine

/-- Settles O10: the segment registers by the two values they have after reset, the general registers all zero, and every
other field as the reset state gives it. -/
theorem resetValues : Obligations.ResetValues := by
  have hidden := State.seg_reset_induction (P := fun g => g.hidden.limit = 0xFFFF ∧ g.hidden.attr.present = true ∧
    g.hidden.attr.accessed = true ∧ g.hidden.attr.db = false) ⟨rfl, rfl, rfl, rfl⟩ ⟨rfl, rfl, rfl, rfl⟩
  have data (n : SegName) (hn : n ≠ .cs) : (State.reset.seg n).sel = 0 ∧ (State.reset.seg n).hidden.base = 0 ∧
      State.reset.writable n = true := by
    rw [State.seg_reset hn]
    exact ⟨rfl, rfl, State.writable_reset hn⟩
  have high (r : Reg) : (State.reset.x r).toNat / 2 ^ 32 = 0 := by rw [State.x_reset]; rfl
  exact ⟨State.mode_reset, rfl, rfl, rfl, rfl, rfl, rfl, rfl, rfl, rfl, hidden, data, fun r _ _ => State.x_reset r, high,
    rfl, rfl, rfl, rfl, rfl⟩

/-- Settles O20: the offset given is where the step fetches, and there is no byte there. -/
theorem stepEndsAfterProgram : Obligations.StepEndsAfterProgram := by
  intro s h
  rw [← State.fetchIndex_eq] at h
  exact step_of_fetchIndex_eq_length h

/-- Settles O59: the invariant holds after reset, and nothing inhibits interrupts. -/
theorem resetIsLaunch : Obligations.ResetIsLaunch := ⟨State.inv_reset, rfl⟩

end Sys2Proof.Proofs
end
